-- ==== Sys2Proof/Word.lean ====
section
/-! DEFINITION. The block's word types (R6, R8, R11): bytes, 16-bit halves, 32-bit words and the lane
vectors of the accumulators. Lane 0 holds the lowest-addressed element (R11). -/

namespace Sys2Proof

/-- One byte of the buffer space (R34). -/
abbrev Byte := BitVec 8

/-- `bits16`: a checksum word and a narrow lane (R6: WORD, NARROW_LANES). -/
abbrev Half := BitVec 16

/-- `bits32`: a register and a wide lane (R6: REG_W, ACC_W). -/
abbrev Word := BitVec 32

/-- Sixteen lanes of 16 bits: the narrow accumulators and the carry accumulator (R6, R26). -/
abbrev Lanes16 := Vector Half 16

/-- Eight lanes of 32 bits: the wide accumulator (R6, R26). -/
abbrev Lanes32 := Vector Word 8

/-- One bit per narrow lane: the transient overflow vector (R28, R78). -/
abbrev LaneBits := Vector Bool 16

end Sys2Proof
end

