-- ==== Sys2Proof/Config.lean ====
section
/-! DEFINITION. The block's fixed parameters (R6), its identity (R1), and the free values: results the
spec leaves open, constants without a body, so that no proof can see one. The open parameters of R7
(CSUM_BASE, Readable, NUM_INSTANCES) are data in State (log 4, 5, 6). -/

namespace Sys2Proof.Config

/-- The name and version tag of R1 (D34). There is no version register. -/
def identity : String := "scalar_checksum_accumulator csum-core/v7"

/-- Number of byte addresses of the buffer space: 32-bit addresses (R6 ADDR_W, R34). -/
abbrev addressSpace : Nat := 2 ^ 32

/-- Size of one instance's register window in bytes (R7, R52). -/
abbrev windowBytes : Nat := 0x100

/-- The alignment of `CSUM_BASE` (R7). -/
abbrev windowAlign : Nat := 0x100

/-- The one access width the window defines, in bits (R65). -/
abbrev accessBits : Nat := 32

/-- Bytes one vector beat of WIDE or NARROW consumes (R6 CHUNK). -/
abbrev chunkBytes : Nat := 32

/-- Bytes one beat of POPCNT consumes: a pair of chunks (R29, R70). -/
abbrev pairBytes : Nat := 64

/-- FREE VALUE (I6, log 8): the `n`-th read of the byte at address `a` where reads have side effects or
are not idempotent. -/
opaque freeByte : Nat → Nat → Byte

/-- FREE VALUE (I6, log 8): SUM after a command whose buffer covers such addresses. -/
opaque freeSum : Nat → Word

/-- FREE VALUE (I6, log 8): CARRY after such a command. -/
opaque freeCarry : Nat → Word

/-- FREE VALUE (I6, log 8): RESULT[15:0] after such a command. -/
opaque freeResult : Nat → Half

/-- FREE VALUE (I6, log 8): STATUS.OVF after such a command. -/
opaque freeOvf : Nat → Bool

end Sys2Proof.Config
end

