-- ==== Sys2Proof/Syntax.lean ====
section
/-! DEFINITION. The command set (R54): one constructor per row of the opcode map. A command has no
register fields and no immediates (R53); its operands are registers latched at acceptance (R56). -/

namespace Sys2Proof

/-- The five commands of the opcode map (R54). -/
inductive Instr where
  | scalar
  | wide
  | narrow
  | popcnt
  | fold
  deriving DecidableEq, Repr

end Sys2Proof
end

