-- ==== Sys2Proof/WellFormed.lean ====
section
/-! DEFINITION. What a legal command word and a legal window base are. A command
itself has no operand that could be out of range (R53), so every `Instr` is well formed; the checks with
something to refuse are on words and bases. -/

namespace Sys2Proof

/-- A command carries no field beyond its opcode (R53), so there is nothing to check on it. -/
def Instr.wf : Instr → Bool
  | .scalar => true
  | .wide => true
  | .narrow => true
  | .popcnt => true
  | .fold => true

/-- A 32-bit word is a defined command word: bits 31:4 are zero and `opc` is 1 to 5 (R53, R54, R55). -/
def commandWordWf (w : Word) : Bool :=
  w.extractLsb' 4 28 == 0 && decide (1 ≤ (w.extractLsb' 0 4).toNat) && decide ((w.extractLsb' 0 4).toNat ≤ 5)

/-- A legal `CSUM_BASE`: 256-byte aligned (R7). -/
def windowBaseWf (base : Nat) : Bool :=
  base % Config.windowAlign == 0

/-- The windows of all instances are legal and pairwise distinct, so that a bus address names at most one
register (R7, R15, R33). -/
def windowsWf (bases : List Nat) : Bool :=
  bases.all windowBaseWf && decide bases.Nodup

end Sys2Proof
end

