-- ==== Sys2Proof/Decode.lean ====
section
/-! DEFINITION. Command words (R53, R54, R55): the decoder, total on every 32-bit word and rejecting by
name, the encoder, and the opcode map as the spec's table of match and mask. -/

namespace Sys2Proof

/-- Why a word is no command (R55). -/
inductive DecodeError where
  /-- A bit of `rsv`, bits 31:4, is set. -/
  | reservedBits (rsv : BitVec 28)
  /-- `opc` is 0x0 or 0x6 to 0xF. -/
  | reservedOpcode (opc : BitVec 4)
  deriving DecidableEq, Repr

/-- What the decoder answers. -/
inductive Decoded where
  | instr (i : Instr)
  | rejected (e : DecodeError)
  deriving DecidableEq, Repr

/-- `opc`, bits 3:0 of a command word (R53). -/
def opcField (w : Word) : BitVec 4 := w.extractLsb' 0 4

/-- `rsv`, bits 31:4 of a command word (R53). -/
def rsvField (w : Word) : BitVec 28 := w.extractLsb' 4 28

/-- The operation selector (R54). -/
def decodeOpc (opc : BitVec 4) : Option Instr :=
  if opc = 0x1#4 then some .scalar
  else if opc = 0x2#4 then some .wide
  else if opc = 0x3#4 then some .narrow
  else if opc = 0x4#4 then some .popcnt
  else if opc = 0x5#4 then some .fold
  else none

/-- The decoder: a defined command is exactly one word (R54); every other word is rejected (R55). -/
def decodeWord (w : Word) : Decoded :=
  if rsvField w = 0 then
    match decodeOpc (opcField w) with
    | some i => .instr i
    | none => .rejected (.reservedOpcode (opcField w))
  else .rejected (.reservedBits (rsvField w))

/-- The command word of each command, from the opcode map (R54). -/
def encode : Instr → Word
  | .scalar => 0x00000001#32
  | .wide => 0x00000002#32
  | .narrow => 0x00000003#32
  | .popcnt => 0x00000004#32
  | .fold => 0x00000005#32

/-- One row of the opcode map: a word `w` is the command when `w & mask = pattern` (R54). -/
structure OpcodeRow where
  mask : Word
  pattern : Word
  instr : Instr
  deriving DecidableEq, Repr

/-- The word selects this row (R54). -/
def OpcodeRow.selects (r : OpcodeRow) (w : Word) : Bool := w &&& r.mask == r.pattern

/-- The opcode map with its masks (R54). -/
def opcodeMap : List OpcodeRow :=
  [⟨0xFFFFFFFF#32, 0x00000001#32, .scalar⟩,
   ⟨0xFFFFFFFF#32, 0x00000002#32, .wide⟩,
   ⟨0xFFFFFFFF#32, 0x00000003#32, .narrow⟩,
   ⟨0xFFFFFFFF#32, 0x00000004#32, .popcnt⟩,
   ⟨0xFFFFFFFF#32, 0x00000005#32, .fold⟩]

/-- The instruction read, if one was. -/
def Decoded.instr? : Decoded → Option Instr
  | .instr i => some i
  | .rejected _ => none

/-- The decoder on a word numbered as the opcode table numbers it: a command is one 32-bit bus word, so
there is no byte order between the table's bits and the decoder's (R53). -/
def decodeTableWord (nbits w : Nat) : Option Instr :=
  (decodeWord (BitVec.ofNat 32 (w % 2 ^ nbits))).instr?

end Sys2Proof
end

