-- ==== Sys2Proof/Machine/Agents.lean ====
section
/-! DEFINITION. The types of what the agents of R5 do: the host's operations (R59), the memory writes of
other agents, whose turn it is (R140), the transactions a host program leaves behind (R61), and the
regions that write down the platform's maps (R7, I6). -/

namespace Sys2Proof.Machine

/-- One operation of a host program (R59, R140). Register accesses carry the width and the host bus
address of the transaction (R61); the block defines only 32-bit aligned ones (R65). -/
inductive HostOp where
  /-- `RD`: a read of `width` bits at a bus address (R62). -/
  | rd (width addr : Nat)
  /-- `WR`: a write of `v` with `width` bits at a bus address (R63). -/
  | wr (width addr : Nat) (v : Word)
  /-- `POLL`: repeat a 32-bit read until `value & mask = val` (R59). -/
  | poll (addr : Nat) (mask val : Word)
  /-- A host read of `n` bytes of memory (R5, R140). -/
  | load (addr n : Nat)
  /-- A host write of the `n` low bytes of `v` to memory, little-endian (`MemWrite`, R10; `MEM`, R59). -/
  | store (addr n v : Nat)
  deriving DecidableEq, Repr

/-- A memory write of an agent the block does not know (R5). -/
structure MemWrite where
  addr : Nat
  n : Nat
  v : Nat
  deriving DecidableEq, Repr

/-- Whose step it is (R140): the host, the engine of instance `k`, another memory writer, or a reset of
instance `k` (R137). Instance 0 is the one in focus. -/
inductive Turn where
  | host
  | engine (k : Nat)
  | writer
  | reset (k : Nat)
  deriving DecidableEq, Repr

/-- What a host step leaves on the bus: the triples `(dir, address, data)` of R61 for register accesses,
and the host's memory accesses beside them. -/
inductive Transaction where
  | regRead (addr : Nat) (data : Word)
  | regWrite (addr : Nat) (data : Word)
  | memRead (addr n v : Nat)
  | memWrite (addr n v : Nat)
  deriving DecidableEq, Repr

/-- A range of byte addresses: `size` bytes from `base`. -/
structure Region where
  base : Nat
  size : Nat
  deriving DecidableEq, Repr

/-- The region holds the byte at `a`. -/
def Region.contains (r : Region) (a : Nat) : Bool :=
  decide (r.base ≤ a) && decide (a < r.base + r.size)

/-- The region holds a byte of `[src, src + len)`. -/
def Region.meets (r : Region) (src len : Nat) : Bool :=
  decide (max r.base src < min (r.base + r.size) (src + len))

/-- Some region of the list holds the byte at `a`. -/
def regionsHold (rs : List Region) (a : Nat) : Bool :=
  rs.any fun r => r.contains a

end Sys2Proof.Machine
end

