-- ==== Sys2Proof/Machine/State.lean ====
section
/-! DEFINITION. The state of the block and of the platform around it (R15, R26, R34), plain data; the
state after reset (R32); and the reasons a step can stop (R36, R65, R125, R142). -/

namespace Sys2Proof.Machine

/-- The model faults (R125): a faulted run has no outcome. -/
inductive Fault where
  /-- An engine read of the byte at `a` with `Readable(a)` false (R36, R125; I1). Raised by the beats.
  SAFE: the spec gives the hardware no behaviour there, and the run stops. -/
  | bufferNotReadable (a : Nat)
  /-- A write of the byte at `a` inside the buffer of a running command, by any agent (R125, R142; I2).
  Raised by host and other-writer steps. SAFE: the run stops. -/
  | bufferWrittenWhileBusy (a : Nat)
  /-- The engine is busy and no rule of R70 gives its next step: `E.op` is NONE, or FOLD with bytes left.
  Raised by the engine step; no state that meets the invariant reaches it (log 13). SAFE: the run stops. -/
  | noEngineRule
  deriving DecidableEq, Repr

/-- What the model refuses. -/
inductive Refusal where
  /-- An instruction without a meaning yet; raised in exec's arms only. SAFE: the run stops. -/
  | notModelled (mnemonic : String)
  /-- A host access to the window that is not 32 bits wide at a 4-byte aligned offset (R65; I5). Raised by
  host steps. SAFE: the spec says a model refuses it. -/
  | undefinedAccess (width addr : Nat)
  /-- A host bus access outside every instance's window, which this spec says nothing about (log 14).
  Raised by host steps. SAFE: the run stops. -/
  | outsideWindows (addr : Nat)
  /-- A host or other-writer access to an address outside the 2^32 bytes of the buffer space (R34, log 16).
  SAFE: the run stops. -/
  | outsideBufferSpace (addr n : Nat)
  deriving DecidableEq, Repr

/-- The four causes of a rejection (R122). -/
inductive Reject where
  | illegalCmd
  | range
  | lenAlign
  | lenPair
  deriving DecidableEq, Repr

/-- STATUS by its fields (R17). Bits 31:8 are hardwired zero and have no storage; ERR holds no other code
than those of R122, `none` being code 0. `statusWord` gives the register's 32 bits. -/
structure Status where
  busy : Bool
  done : Bool
  ovf : Bool
  drop : Bool
  err : Option Reject
  deriving DecidableEq, Repr

/-- The host-visible registers with storage (R15). CMD stores nothing (R16). -/
structure Regs where
  status : Status
  src : Word
  len : Word
  sumIn : Word
  /-- RESULT[15:0]; bits 31:16 are hardwired zero (R21). -/
  result : Half
  sum : Word
  carry : Word
  deriving DecidableEq, Repr

/-- The engine-internal state `E` (R26). -/
structure Engine where
  /-- `E.op`, `none` being NONE. -/
  op : Option Instr
  src : Word
  len : Word
  sumIn : Word
  pos : Nat
  acc : Word
  v : Lanes32
  a : Lanes16
  b : Lanes16
  c : Lanes16
  t : Word
  ovf : Bool
  deriving DecidableEq, Repr

/-- One block instance: its registers and its engine (R33). -/
structure Block where
  regs : Regs
  eng : Engine
  deriving DecidableEq, Repr

/-- An instance and the base of its register window (R7, R33). -/
structure Slot where
  base : Nat
  blk : Block
  deriving DecidableEq, Repr

/-- Memory: the bytes that differ from what an unlisted address reads as, by rising address. -/
abbrev Memory := List Host.Cell

structure State where
  /-- The instance in focus: the one a command is presented to. -/
  blk : Block
  /-- The `CSUM_BASE` of the instance in focus (R7, log 4). -/
  base : Nat
  /-- The other instances of NUM_INSTANCES (R7, R33, log 6). -/
  others : List Slot
  /-- The buffer space (R34). -/
  mem : Memory
  /-- `Readable` (R7, R36, log 5). -/
  readable : List Region
  /-- Addresses whose reads have side effects or are not idempotent (R41, I6, log 8). -/
  volatileRegions : List Region
  /-- What the host has still to do (R59). Several host agents (R134) are one list, their operations in the
  order they interleave (log 26). -/
  program : List HostOp
  /-- What other agents have still to write (R5). -/
  writers : List MemWrite
  /-- MODEL'S OWN: whose turns come next (R140, log 3). -/
  sched : List Turn
  /-- MODEL'S OWN: the host's transactions so far, newest first (R61, log 17). -/
  trace : List Transaction
  /-- MODEL'S OWN: the counter free values are drawn with (I6, log 8). -/
  freeCount : Nat
  deriving DecidableEq, Repr

/-- STATUS after reset (R32). -/
def Status.reset : Status :=
  { busy := false, done := false, ovf := false, drop := false, err := none }

/-- The registers after reset (R32). -/
def Regs.reset : Regs :=
  { status := Status.reset, src := 0, len := 0, sumIn := 0, result := 0, sum := 0, carry := 0 }

/-- The engine after reset (R32). -/
def Engine.reset : Engine :=
  { op := none, src := 0, len := 0, sumIn := 0, pos := 0, acc := 0, v := Vector.replicate 8 0,
    a := Vector.replicate 16 0, b := Vector.replicate 16 0, c := Vector.replicate 16 0, t := 0,
    ovf := false }

/-- An instance after reset (R32, R137). -/
def Block.reset : Block := { regs := Regs.reset, eng := Engine.reset }

/-- The machine right after reset: one idle instance with every register and field of `E` as R32 says, no
host program, no other writer. The parameters R7 leaves open have the values of log 4, 5, 6 and 8; memory
lists nothing (log 7). -/
def State.reset : State :=
  { blk := Block.reset, base := 0, others := [], mem := [],
    readable := [{ base := 0, size := Config.addressSpace }], volatileRegions := [], program := [],
    writers := [], sched := [], trace := [], freeCount := 0 }

/-- The same state with another block in focus. -/
def State.withBlk (s : State) (b : Block) : State := { s with blk := b }

/-- The same state with other memory. -/
def State.withMem (s : State) (m : Memory) : State := { s with mem := m }

/-- The same state with another rest of the host's program. -/
def State.withProgram (s : State) (p : List HostOp) : State := { s with program := p }

/-- The same state with other writes still to come. -/
def State.withWriters (s : State) (ws : List MemWrite) : State := { s with writers := ws }

/-- The same state with another schedule. -/
def State.withSched (s : State) (ts : List Turn) : State := { s with sched := ts }

/-- A transaction has taken place (R61). -/
def State.note (s : State) (t : Transaction) : State := { s with trace := t :: s.trace }

/-- The free values drawn so far are used up. -/
def State.tick (s : State) : State := { s with freeCount := s.freeCount + 1 }

/-- The registers of the instance in focus. -/
abbrev State.regs (s : State) : Regs := s.blk.regs

/-- The engine of the instance in focus. -/
abbrev State.eng (s : State) : Engine := s.blk.eng

/-- The instance in focus runs a command: STATUS.BUSY = 1 (R17). -/
abbrev State.busy (s : State) : Bool := s.blk.regs.status.busy

end Sys2Proof.Machine
end

