-- ==== Sys2Proof/Machine/Flags.lean ====
section
/-! DEFINITION. Flags: the modular adders with their carry bit (R74), the carry test of narrow lanes
(R78), the STATUS word (R17) and its write-1-to-clear (R64), the error codes (R122). -/

namespace Sys2Proof.Machine

/-- `add_N(a, b)`: the sum modulo 2^N and the carry out of bit N-1 (R74). -/
def addN {n : Nat} (x y : BitVec n) : BitVec n × Bool :=
  (x + y, decide (2 ^ n ≤ x.toNat + y.toNat))

/-- `add_32` (R74). -/
def add32 (x y : Word) : Word × Bool := addN x y

/-- `add_16` (R74). -/
def add16 (x y : Half) : Half × Bool := addN x y

/-- The unsigned comparison of one lane: the addition that took `old` to `new` overflowed (R78). -/
def laneOverflowed (old new : Half) : Bool := decide (new.toNat < old.toNat)

/-- The comparison the document describes: flip the sign bit of both, then compare signed (R79). The block
uses `laneOverflowed`, which R79 says is the same. -/
def biasedGreater (p q : Half) : Bool :=
  decide ((q ^^^ 0x8000#16).toInt < (p ^^^ 0x8000#16).toInt)

/-- The code in ERR (R122). -/
def errCode : Option Reject → BitVec 4
  | none => 0
  | some .illegalCmd => 1
  | some .range => 2
  | some .lenAlign => 3
  | some .lenPair => 4

/-- STATUS as the host reads it: BUSY bit 0, DONE bit 1, OVF bit 2, DROP bit 3, ERR bits 7:4, the rest
zero (R17). -/
def statusWord (st : Status) : Word :=
  (0#24 ++ errCode st.err) ++ (BitVec.ofBool st.drop ++ BitVec.ofBool st.ovf
    ++ BitVec.ofBool st.done ++ BitVec.ofBool st.busy)

/-- `StatusW1C(v)`: a 1 in bit 1 clears DONE, a 1 in bit 3 clears DROP, nothing else changes (R64). -/
def statusW1C (v : Word) (st : Status) : Status :=
  { st with done := st.done && !v.getLsbD 1, drop := st.drop && !v.getLsbD 3 }

/-- STATUS after a rejection with cause `e` (R68). -/
def statusRejected (e : Reject) (st : Status) : Status :=
  { st with err := some e, done := true, ovf := false }

/-- STATUS after an acceptance (R69): DROP unchanged. -/
def statusAccepted (st : Status) : Status :=
  { st with busy := true, done := false, ovf := false, err := none }

/-- STATUS after a CMD write that was dropped (R66). -/
def statusDropped (st : Status) : Status := { st with drop := true }

/-- STATUS after a completion with OVF = `f` (R71): ERR and DROP unchanged. -/
def statusCompleted (f : Bool) (st : Status) : Status :=
  { st with ovf := f, busy := false, done := true }

end Sys2Proof.Machine
end

