-- ==== Sys2Proof/Machine/Ops.lean ====
section
/-! DEFINITION. The named operations over memory (R34, R46), over the instances (R33, R134), and over the
registers of the instance in focus: dropping, rejecting and accepting a command (R66, R68, R69).
REJECTION is the block's only exception entry (R121, R128): one shared operation, and there is no return
from it (R129). -/

namespace Sys2Proof.Machine

/-! ### Memory -/

/-- What an address that memory does not list reads as (log 7). -/
def Memory.unlisted : Byte := 0

/-- The byte at an address. -/
def Memory.read : Memory → Nat → Byte
  | [], _ => Memory.unlisted
  | (b, u) :: m, a => if b = a then u else Memory.read m a

/-- Writing one byte; the canonical form is kept. -/
def Memory.write : Memory → Nat → Byte → Memory
  | [], a, u => if u = Memory.unlisted then [] else [(a, u)]
  | (b, w) :: m, a, u =>
    if a < b then (if u = Memory.unlisted then (b, w) :: m else (a, u) :: (b, w) :: m)
    else if a = b then (if u = Memory.unlisted then m else (a, u) :: m)
    else (b, w) :: Memory.write m a u

/-- The canonical form: addresses strictly rising, no entry equal to what an unlisted address reads as, every
address inside the buffer space (R34). -/
def Memory.wf (m : Memory) : Bool :=
  decide (m.Pairwise fun x y => x.1 < y.1)
    && m.all fun c => c.2 != Memory.unlisted && decide (c.1 < Config.addressSpace)

/-- Byte `j` of an `n`-byte little-endian value (R10, R37). -/
def byteOf (v j : Nat) : Byte := BitVec.ofNat 8 (v / 256 ^ j)

/-- `MemWrite(addr, n, v)`, little-endian (R10). -/
def Memory.writeBytes (m : Memory) (addr : Nat) : Nat → Nat → Memory
  | 0, _ => m
  | n + 1, v => Memory.writeBytes (m.write addr (byteOf v 0)) (addr + 1) n (v / 256)

/-! ### The buffer space and the platform -/

/-- `[addr, addr + n)` lies inside the buffer space (R34). -/
def insideSpace (addr n : Nat) : Bool := decide (addr + n ≤ Config.addressSpace)

/-- `Readable(a)`; an address that does not exist is not readable (R7, R36, log 10). -/
def State.isReadable (s : State) (a : Nat) : Bool :=
  decide (a < Config.addressSpace) && regionsHold s.readable a

/-- Reads of the byte at `a` have side effects or are not idempotent (R41, I6). -/
def State.isVolatile (s : State) (a : Nat) : Bool := regionsHold s.volatileRegions a

/-- The byte a read at `a` returns: memory's, or a free value where reads have side effects (I6, log 8). -/
def State.byteAt (s : State) (a : Nat) : Byte :=
  if s.isVolatile a then Config.freeByte s.freeCount a else s.mem.read a

/-- `MemRead(addr, n)`: the little-endian value of `n` bytes (R10, R37). -/
def State.valueAt (s : State) (addr : Nat) : Nat → Nat
  | 0 => 0
  | n + 1 => (s.byteAt addr).toNat + 256 * State.valueAt s (addr + 1) n

/-- The block runs a command whose buffer holds the byte at `a` (R46, R142). -/
def Block.bufferHolds (b : Block) (a : Nat) : Bool :=
  b.regs.status.busy && decide (b.eng.src.toNat ≤ a) && decide (a < b.eng.src.toNat + b.eng.len.toNat)

/-- Some instance runs a command whose buffer holds the byte at `a` (R142). -/
def State.bufferHolds (s : State) (a : Nat) : Bool :=
  s.blk.bufferHolds a || s.others.any fun o => o.blk.bufferHolds a

/-- The first of the `n` addresses from `addr` with the property. -/
def firstAddr (p : Nat → Bool) (addr : Nat) : Nat → Option Nat
  | 0 => none
  | n + 1 => if p addr then some addr else firstAddr p (addr + 1) n

/-- A memory write by the host or another agent (R10, R46): outside the buffer space there is nothing to
write (log 16); inside the buffer of a running command it is the hazard of R142; otherwise the bytes are
written. -/
def memWrite (addr n v : Nat) (s : State) : Host.Outcome State Fault Refusal :=
  if insideSpace addr n then
    match firstAddr s.bufferHolds addr n with
    | some a => .fault (.bufferWrittenWhileBusy a)
    | none => .next (s.withMem (s.mem.writeBytes addr n v))
  else .refused (.outsideBufferSpace addr n)

/-! ### Instances -/

/-- Bring instance `k` into focus, exchanging it with the one in focus (R33). Focusing twice gives the
state back; an instance that does not exist leaves it. -/
def State.focus (s : State) : Nat → State
  | 0 => s
  | k + 1 =>
    match s.others[k]? with
    | some o => { s with blk := o.blk, base := o.base, others := s.others.set k ⟨s.base, s.blk⟩ }
    | none => s

/-- Instance `k` exists (R7: NUM_INSTANCES). -/
def State.hasInstance (s : State) (k : Nat) : Bool := decide (k ≤ s.others.length)

/-- The register window from `base` holds the bus address (R52). -/
def windowHolds (base addr : Nat) : Bool :=
  decide (base ≤ addr) && decide (addr < base + Config.windowBytes)

/-- The block defines an access of `width` bits at window offset `off` (R52, R65). -/
def accessDefined (width off : Nat) : Bool :=
  width == Config.accessBits && off % 4 == 0 && decide (off < Config.windowBytes)

/-- The instance whose window holds a bus address (R15, R52). -/
def State.instanceAt (s : State) (addr : Nat) : Option Nat :=
  if windowHolds s.base addr then some 0
  else (s.others.findIdx? fun o => windowHolds o.base addr).map (· + 1)

/-- The outcome seen with the focus moved. -/
def outcomeMap (f : State → State) : Host.Outcome State Fault Refusal → Host.Outcome State Fault Refusal
  | .next s => .next (f s)
  | .fault r => .fault r
  | .refused r => .refused r

/-- Do something on instance `k`, and put the focus back. Instances share no state (R33). -/
def onInstance (k : Nat) (f : State → Host.Outcome State Fault Refusal) (s : State) :
    Host.Outcome State Fault Refusal :=
  outcomeMap (fun t => t.focus k) (f (s.focus k))

/-- Reset of the instance in focus (R137): every register and every field of `E` as R32 says. Memory, the
platform and the other agents are not the block's. -/
def resetBlock (s : State) : State := s.withBlk Block.reset

/-! ### Registers of the instance in focus -/

/-- The same state with another STATUS. -/
def State.withStatus (s : State) (st : Status) : State :=
  s.withBlk { s.blk with regs := { s.blk.regs with status := st } }

/-- A CMD write while BUSY = 1: ignored, DROP set, nothing else (R66). -/
def dropCommand (s : State) : State := s.withStatus (statusDropped s.regs.status)

/-- Rejection (R68, R121, R128): ERR, DONE and OVF, nothing else. -/
def rejectCommand (e : Reject) (s : State) : State := s.withStatus (statusRejected e s.regs.status)

/-- The engine at acceptance: operands latched (R56), every accumulator zero (R69). -/
def latch (i : Instr) (r : Regs) : Engine :=
  { op := some i, src := r.src, len := if i = .fold then 0 else r.len, sumIn := r.sumIn, pos := 0,
    acc := 0, v := Vector.replicate 8 0, a := Vector.replicate 16 0, b := Vector.replicate 16 0,
    c := Vector.replicate 16 0, t := 0, ovf := false }

/-- Acceptance (R69). -/
def acceptCommand (i : Instr) (s : State) : State :=
  s.withBlk { regs := { s.regs with status := statusAccepted s.regs.status }, eng := latch i s.regs }

/-- Presenting a command whose checks gave `e` to the instance in focus: dropped while busy (R66), else
rejected (R68) or accepted (R69), in one step (R67). -/
def present (i : Instr) (e : Option Reject) (s : State) : Host.Outcome State Fault Refusal :=
  if s.busy then .next (dropCommand s)
  else
    match e with
    | some r => .next (rejectCommand r s)
    | none => .next (acceptCommand i s)

/-- Presenting a word that is no command (R55, R66, R67): dropped while busy, else ILLEGAL_CMD. -/
def presentIllegal (s : State) : Host.Outcome State Fault Refusal :=
  if s.busy then .next (dropCommand s) else .next (rejectCommand .illegalCmd s)

/-! ### The checks of R67, in the order of R123 -/

/-- RANGE: `src + len > 2^32`, unbounded (R43, R67). -/
def rangeCheck (src len : Word) : Option Reject :=
  if Config.addressSpace < src.toNat + len.toNat then some .range else none

/-- LEN_ALIGN: `len mod 32 ≠ 0` (R67). -/
def alignCheck (len : Word) : Option Reject :=
  if len.toNat % 32 ≠ 0 then some .lenAlign else none

/-- LEN_PAIR: an odd number of chunks (R67, R119). -/
def pairCheck (len : Word) : Option Reject :=
  if len.toNat / 32 % 2 ≠ 0 then some .lenPair else none

/-- `Validate(w, src, len)`, in the words of R67: `none` is OK. -/
def validate (w src len : Word) : Option Reject :=
  if w.extractLsb' 4 28 ≠ 0 ∨ ¬ (1 ≤ (w.extractLsb' 0 4).toNat ∧ (w.extractLsb' 0 4).toNat ≤ 5) then
    some .illegalCmd
  else if (w.extractLsb' 0 4).toNat = 5 then none
  else if 2 ^ 32 < src.toNat + len.toNat then some .range
  else if 2 ≤ (w.extractLsb' 0 4).toNat ∧ (w.extractLsb' 0 4).toNat ≤ 4 ∧ len.toNat % 32 ≠ 0 then
    some .lenAlign
  else if (w.extractLsb' 0 4).toNat = 4 ∧ len.toNat / 32 % 2 ≠ 0 then some .lenPair
  else none

/-! ### Completion -/

/-- What a family rule hands to completion: the pre-fold sum S, the carry total K and the final-stage loss
bit f (R71). -/
structure Final where
  sum : Word
  carry : Word
  loss : Bool
  deriving DecidableEq, Repr

/-- The buffer of the running command covers an address whose reads have side effects (I6). -/
def State.bufferVolatile (s : State) : Bool :=
  s.volatileRegions.any fun r => r.meets s.eng.src.toNat s.eng.len.toNat

end Sys2Proof.Machine
end

