-- ==== Sys2Proof/Machine/Fold.lean ====
section
/-! DEFINITION. The fold reducer (R93), its two-stage form (R94), and the command CSUM.FOLD (R97). -/

namespace Sys2Proof.Machine

/-- One fold step: the bits above position 15 added into the low 16 (R93). -/
def foldStep (s : Nat) : Nat := s % 2 ^ 16 + s / 2 ^ 16

/-- The loop of R93, at most `k` times round. -/
def foldLoop : Nat → Nat → Nat
  | 0, s => s
  | k + 1, s => if s < 2 ^ 16 then s else foldLoop k (foldStep s)

/-- `FoldS(n)`: where the loop stops, for any natural (R95). A step of the loop makes the value smaller, so
`n` rounds are enough. -/
def foldS (n : Nat) : Nat := foldLoop n n

/-- `Fold(x)` (R93): the loop ends within two rounds on 32 bits (R94), then the low 16 bits are
complemented. -/
def fold (x : Word) : Half := ~~~ (BitVec.ofNat 16 (foldLoop 2 x.toNat))

/-- The two-stage form hardware may use (R94). -/
def foldTwoStage (x : Word) : Half :=
  let s1 := (x.extractLsb' 0 16).toNat + (x.extractLsb' 16 16).toNat
  let s2 := s1 % 2 ^ 16 + s1 / 2 ^ 16 % 2
  ~~~ (BitVec.ofNat 16 s2)

/-- CSUM.FOLD presented (R97): its validation cannot fail, SRC and LEN are not checked. -/
def execFold (s : State) : Host.Outcome State Fault Refusal :=
  present .fold none s

/-- FOLD's completion values (R97). -/
def foldFinal (e : Engine) : Final := { sum := e.sumIn, carry := 0, loss := false }

end Sys2Proof.Machine
end

