-- ==== Sys2Proof/Machine/Lanes.lean ====
section
/-! DEFINITION. The lane primitives (R76 to R84). Each builds its result lane by lane from index 0, the
lowest-addressed lane (R11). -/

namespace Sys2Proof.Machine

/-- `VADD16`: lane-wise addition modulo 2^16, no carry from lane to lane (R76). -/
def vadd16 (x y : Lanes16) : Lanes16 := Vector.ofFn fun i => (add16 x[i] y[i]).1

/-- `VADD32`: lane-wise addition modulo 2^32, with the loss bit (R77). -/
def vadd32 (x y : Lanes32) : Lanes32 × Bool :=
  (Vector.ofFn fun i => (add32 x[i] y[i]).1, (List.finRange 8).any fun i => (add32 x[i] y[i]).2)

/-- `OVFV`: which lanes' additions overflowed (R78). -/
def ovfv (old new : Lanes16) : LaneBits := Vector.ofFn fun i => laneOverflowed old[i] new[i]

/-- `WIDEN_LO`: lanes 0 to 7, zero-extended (R80). -/
def widenLo (x : Lanes16) : Lanes32 := Vector.ofFn fun i => (x[i.val]).zeroExtend 32

/-- `WIDEN_HI`: lanes 8 to 15, zero-extended (R80). -/
def widenHi (x : Lanes16) : Lanes32 := Vector.ofFn fun i => (x[i.val + 8]).zeroExtend 32

/-- `MOVMASK`: bits 2i and 2i+1 of the mask are lane i's bit (R81). -/
def movmask (o : LaneBits) : Word := BitVec.ofFnLE fun j => o[j.val / 2]

/-- `popcount_64` (R82). -/
def popcount64 (m : BitVec 64) : Nat := ((List.range 64).map fun j => (m.getLsbD j).toNat).sum

/-- `HALF`: the count of lanes behind a count of mask bits (R83). -/
def half (p : Nat) : Nat := p / 2

/-- `CINC`: the carry lanes whose addition overflowed count up modulo 2^16; the loss bit says that one
wrapped to 0 (R84). -/
def cinc (cs : Lanes16) (o : LaneBits) : Lanes16 × Bool :=
  (Vector.ofFn fun i => if o[i] then cs[i] + 1 else cs[i],
   (List.finRange 16).any fun i => o[i] && (cs[i] + 1 == 0))

end Sys2Proof.Machine
end

