-- ==== Sys2Proof/Machine/Operands.lean ====
section
/-! DEFINITION. What a beat reads (R37, R38, R39, R41) and how it stores its result: engine reads of one
byte, one word and one chunk, all little-endian, none aligned (R40), each faulting on an unreadable byte
(R36). -/

namespace Sys2Proof.Machine

/-- The address of the next byte the engine reads: `E.src + E.pos` (R29, R45). -/
def State.readAddr (s : State) : Nat := s.eng.src.toNat + s.eng.pos

/-- The 16-bit word at an address: `byte(a) + 256 * byte(a+1)` (R37). -/
def State.halfAt (s : State) (a : Nat) : Half := s.byteAt (a + 1) ++ s.byteAt a

/-- The 16-lane load of the chunk at an address: lane j is chunk word j (R39). -/
def State.chunkAt (s : State) (a : Nat) : Lanes16 := Vector.ofFn fun j => s.halfAt (a + 2 * j.val)

/-- The first of `n` bytes from `addr` the engine cannot read (R36). Which of several a fault names is open,
since the order of reads within a beat is (R42, log 9). -/
def State.firstUnreadable (s : State) (addr n : Nat) : Option Nat :=
  firstAddr (fun a => !s.isReadable a) addr n

/-- A beat that reads `n` bytes at `E.src + E.pos` and then changes the engine: the fault of R36 on an
unreadable byte, else the new engine. A beat writes no register and no memory (R35, R72). -/
def readingBeat (n : Nat) (f : State → Engine) (s : State) : Host.Outcome State Fault Refusal :=
  match s.firstUnreadable s.readAddr n with
  | some a => .fault (.bufferNotReadable a)
  | none => .next (s.withBlk { s.blk with eng := f s }).tick

end Sys2Proof.Machine
end

