-- ==== Sys2Proof/Machine/Reduce.lean ====
section
/-! DEFINITION. The horizontal reduction tree (R98, R99). -/

namespace Sys2Proof.Machine

/-- The first stage of `HR8`: lanes 0 to 3 plus lanes 4 to 7 (R98). -/
def hr8Halves (v : Lanes32) : Vector (Word × Bool) 4 := Vector.ofFn fun i => add32 v[i.val] v[i.val + 4]

/-- The second stage of `HR8`: lanes 0, 1 plus lanes 2, 3 of the first stage (R98). -/
def hr8Quarters (h : Vector (Word × Bool) 4) : Vector (Word × Bool) 2 :=
  Vector.ofFn fun j => add32 (h[j.val]).1 (h[j.val + 2]).1

/-- `HR8(V)`: the sum modulo 2^32 and the loss bit, over three stages (R98). -/
def hr8 (v : Lanes32) : Word × Bool :=
  let h := hr8Halves v
  let q := hr8Quarters h
  let r := add32 (q[0]).1 (q[1]).1
  (r.1, ((List.finRange 4).any fun i => (h[i]).2) || ((List.finRange 2).any fun j => (q[j]).2) || r.2)

/-- `HR16(X)`: each half widened and reduced, the two sums added (R99). -/
def hr16 (x : Lanes16) : Word × Bool :=
  let rl := hr8 (widenLo x)
  let rh := hr8 (widenHi x)
  let r := add32 rl.1 rh.1
  (r.1, rl.2 || rh.2 || r.2)

end Sys2Proof.Machine
end

