-- ==== Sys2Proof/Machine/Narrow.lean ====
section
/-! DEFINITION. CSUM.NARROW, the narrow-lane accumulator with per-lane carry counters (R108 to R110). -/

namespace Sys2Proof.Machine

/-- CSUM.NARROW presented (R108): RANGE, then LEN_ALIGN (R123). -/
def execNarrow (s : State) : Host.Outcome State Fault Refusal :=
  present .narrow ((rangeCheck s.regs.src s.regs.len).or (alignCheck s.regs.len)) s

/-- A chunk added with wraparound, the overflowed lanes counted (R109). -/
def narrowAdd (l : Lanes16) (e : Engine) : Engine :=
  let a := vadd16 e.a l
  let r := cinc e.c (ovfv e.a a)
  { e with a := a, c := r.1, ovf := e.ovf || r.2, pos := e.pos + Config.chunkBytes }

/-- NARROW's beat (R109). -/
def narrowBeat (s : State) : Host.Outcome State Fault Refusal :=
  readingBeat Config.chunkBytes (fun s => narrowAdd (s.chunkAt s.readAddr) s.eng) s

/-- NARROW's completion values (R110): both accumulators reduced after widening, each carry with weight 1. -/
def narrowFinal (e : Engine) : Final :=
  let ra := hr16 e.a
  let rc := hr16 e.c
  let r := add32 ra.1 rc.1
  { sum := r.1, carry := rc.1, loss := ra.2 || rc.2 || r.2 }

end Sys2Proof.Machine
end

