-- ==== Sys2Proof/Machine/Popcnt.lean ====
section
/-! DEFINITION. CSUM.POPCNT, the narrow-lane accumulator with population-count carry accounting (R115 to
R117). -/

namespace Sys2Proof.Machine

/-- CSUM.POPCNT presented (R115): RANGE, LEN_ALIGN, LEN_PAIR in this order (R123). -/
def execPopcnt (s : State) : Host.Outcome State Fault Refusal :=
  present .popcnt
    (((rangeCheck s.regs.src s.regs.len).or (alignCheck s.regs.len)).or (pairCheck s.regs.len)) s

/-- A pair of chunks added, the overflow events of both counted by mask and population count: `m1 ++ m0`,
with the mask of accumulator A in bits 31:0 (R116). -/
def popcntAdd (l0 l1 : Lanes16) (e : Engine) : Engine :=
  let a := vadd16 e.a l0
  let b := vadd16 e.b l1
  let m0 := movmask (ovfv e.a a)
  let m1 := movmask (ovfv e.b b)
  let r := add32 e.t (BitVec.ofNat 32 (half (popcount64 (m1 ++ m0))))
  { e with a := a, b := b, t := r.1, ovf := e.ovf || r.2, pos := e.pos + Config.pairBytes }

/-- POPCNT's beat: the lower chunk to accumulator A, the higher to B (R116). -/
def popcntBeat (s : State) : Host.Outcome State Fault Refusal :=
  readingBeat Config.pairBytes
    (fun s => popcntAdd (s.chunkAt s.readAddr) (s.chunkAt (s.readAddr + Config.chunkBytes)) s.eng) s

/-- POPCNT's completion values (R117). -/
def popcntFinal (e : Engine) : Final :=
  let ra := hr16 e.a
  let rb := hr16 e.b
  let s1 := add32 ra.1 rb.1
  let r := add32 s1.1 e.t
  { sum := r.1, carry := e.t, loss := ra.2 || rb.2 || s1.2 || r.2 }

end Sys2Proof.Machine
end

