-- ==== Sys2Proof/Machine/Scalar.lean ====
section
/-! DEFINITION. CSUM.SCALAR, the scalar checksum accumulator (R87 to R90). -/

namespace Sys2Proof.Machine

/-- CSUM.SCALAR presented (R87): every length is legal, a wrapping buffer is rejected. -/
def execScalar (s : State) : Host.Outcome State Fault Refusal :=
  present .scalar (rangeCheck s.regs.src s.regs.len) s

/-- `n` bytes with value `w` added into the scalar accumulator (R88, R89). -/
def scalarAdd (n : Nat) (w : Word) (e : Engine) : Engine :=
  let r := add32 e.acc w
  { e with acc := r.1, ovf := e.ovf || r.2, pos := e.pos + n }

/-- The word beat (R88). -/
def scalarWordBeat (s : State) : Host.Outcome State Fault Refusal :=
  readingBeat 2 (fun s => scalarAdd 2 ((s.halfAt s.readAddr).zeroExtend 32) s.eng) s

/-- The trailing-byte beat: the byte's value, not shifted (R89). -/
def scalarByteBeat (s : State) : Host.Outcome State Fault Refusal :=
  readingBeat 1 (fun s => scalarAdd 1 ((s.byteAt s.readAddr).zeroExtend 32) s.eng) s

/-- SCALAR's beat: a word while two bytes are left, else the trailing byte (R88, R89). -/
def scalarBeat (s : State) : Host.Outcome State Fault Refusal :=
  if s.eng.pos + 2 ≤ s.eng.len.toNat then scalarWordBeat s else scalarByteBeat s

/-- SCALAR's completion values (R90). -/
def scalarFinal (e : Engine) : Final := { sum := e.acc, carry := 0, loss := false }

end Sys2Proof.Machine
end

