-- ==== Sys2Proof/Machine/Wide.lean ====
section
/-! DEFINITION. CSUM.WIDE, the wide-lane vector accumulator (R103 to R105). -/

namespace Sys2Proof.Machine

/-- CSUM.WIDE presented (R103): RANGE, then LEN_ALIGN (R123). -/
def execWide (s : State) : Host.Outcome State Fault Refusal :=
  present .wide ((rangeCheck s.regs.src s.regs.len).or (alignCheck s.regs.len)) s

/-- A chunk added: words 0 to 7 and then words 8 to 15 into lanes 0 to 7 (R104). -/
def wideAdd (l : Lanes16) (e : Engine) : Engine :=
  let r1 := vadd32 e.v (widenLo l)
  let r2 := vadd32 r1.1 (widenHi l)
  { e with v := r2.1, ovf := e.ovf || r1.2 || r2.2, pos := e.pos + Config.chunkBytes }

/-- WIDE's beat (R104). -/
def wideBeat (s : State) : Host.Outcome State Fault Refusal :=
  readingBeat Config.chunkBytes (fun s => wideAdd (s.chunkAt s.readAddr) s.eng) s

/-- WIDE's completion values (R105). -/
def wideFinal (e : Engine) : Final :=
  let r := hr8 e.v
  { sum := r.1, carry := 0, loss := r.2 }

end Sys2Proof.Machine
end

