-- ==== Sys2Proof/Machine/Dispatch.lean ====
section
/-! DEFINITION. exec: the command presented to the instance in focus (R66 to R69). One arm per command. -/

namespace Sys2Proof.Machine

def exec (i : Instr) (s : State) : Host.Outcome State Fault Refusal :=
  match i with
  | .scalar => Sys2Proof.Machine.execScalar s
  | .wide => Sys2Proof.Machine.execWide s
  | .narrow => Sys2Proof.Machine.execNarrow s
  | .popcnt => Sys2Proof.Machine.execPopcnt s
  | .fold => Sys2Proof.Machine.execFold s

end Sys2Proof.Machine
end

