-- ==== Sys2Proof/Machine/EngineStep.lean ====
section
/-! DEFINITION. The engine's steps on the instance in focus: one beat of the accepted command, or its
completion (R70, R71). -/

namespace Sys2Proof.Machine

/-- `Beat(E.op)` (R70). FOLD has no beat: its length is 0 (R69), so a beat of FOLD has no rule (log 13). -/
def beat : Instr → State → Host.Outcome State Fault Refusal
  | .scalar, s => scalarBeat s
  | .wide, s => wideBeat s
  | .narrow, s => narrowBeat s
  | .popcnt, s => popcntBeat s
  | .fold, _ => .fault .noEngineRule

/-- The bytes the next beat reads, with `len` the command's length and `pos` the bytes consumed (R29, R70). -/
def beatSize (i : Instr) (len pos : Nat) : Nat :=
  match i with
  | .scalar => if pos + 2 ≤ len then 2 else 1
  | .wide => 32
  | .narrow => 32
  | .popcnt => 64
  | .fold => 0

/-- The completion values of each command (R71). -/
def finalOf : Instr → Engine → Final
  | .scalar, e => scalarFinal e
  | .wide, e => wideFinal e
  | .narrow, e => narrowFinal e
  | .popcnt, e => popcntFinal e
  | .fold, e => foldFinal e

/-- The registers after a completion with these values (R71): SUM, CARRY, RESULT, OVF, BUSY and DONE in one
step; the host's registers and DROP unchanged. -/
def completedRegs (sum carry : Word) (result : Half) (ovf : Bool) (r : Regs) : Regs :=
  { r with sum := sum, carry := carry, result := result, status := statusCompleted ovf r.status }

/-- `Complete(op)` (R71). Where the buffer covers addresses whose reads have side effects the four results
are free values (I6, log 8). -/
def complete (i : Instr) (s : State) : State :=
  let f := finalOf i s.eng
  let regs :=
    if s.bufferVolatile then
      completedRegs (Config.freeSum s.freeCount) (Config.freeCarry s.freeCount)
        (Config.freeResult s.freeCount) (Config.freeOvf s.freeCount) s.regs
    else completedRegs f.sum f.carry (fold f.sum) (s.eng.ovf || f.loss) s.regs
  (s.withBlk { regs := regs, eng := { s.eng with op := none } }).tick

/-- `EngineStep()` (R70): the engine has a step exactly when BUSY = 1; an idle engine's turn passes
(log 25). -/
def engineStep (s : State) : Host.Outcome State Fault Refusal :=
  if s.busy then
    match s.eng.op with
    | none => .fault .noEngineRule
    | some i => if s.eng.pos < s.eng.len.toNat then beat i s else .next (complete i s)
  else .next s

/-- The number of beats of a command with `len` bytes (R70). -/
def beats : Instr → Nat → Nat
  | .scalar, len => (len + 1) / 2
  | .wide, len => len / 32
  | .narrow, len => len / 32
  | .popcnt, len => len / 64
  | .fold, _ => 0

end Sys2Proof.Machine
end

