-- ==== Sys2Proof/Machine/HostStep.lean ====
section
/-! DEFINITION. The host's steps (R62 to R69): register reads and writes, presenting a command word, POLL,
memory accesses; the steps of other memory writers; and the host programs' pseudo-instructions (R60). -/

namespace Sys2Proof.Machine

/-- `RD`: the value of the register at window offset `off` of the instance in focus (R62). -/
def regRead (off : Nat) (s : State) : Word :=
  if off = 0x04 then statusWord s.regs.status
  else if off = 0x08 then s.regs.src
  else if off = 0x0C then s.regs.len
  else if off = 0x10 then s.regs.sumIn
  else if off = 0x14 then s.regs.result.zeroExtend 32
  else if off = 0x18 then s.regs.sum
  else if off = 0x1C then s.regs.carry
  else 0

/-- A CMD write of the word `w` (R66, R67): a defined word is that command presented, any other is
rejected. -/
def presentCommand (w : Word) (s : State) : Host.Outcome State Fault Refusal :=
  match decodeWord w with
  | .instr i => exec i s
  | .rejected _ => presentIllegal s

/-- `WR`: a write to the register at window offset `off` of the instance in focus (R63). -/
def regWrite (off : Nat) (v : Word) (s : State) : Host.Outcome State Fault Refusal :=
  if off = 0x00 then presentCommand v s
  else if off = 0x04 then .next (s.withStatus (statusW1C v s.regs.status))
  else if off = 0x08 then .next (s.withBlk { s.blk with regs := { s.regs with src := v } })
  else if off = 0x0C then .next (s.withBlk { s.blk with regs := { s.regs with len := v } })
  else if off = 0x10 then .next (s.withBlk { s.blk with regs := { s.regs with sumIn := v } })
  else .next s

/-- A register access of `width` bits at a bus address, done on the instance whose window holds the address,
at its offset from that window's base. The block defines only 32-bit accesses at 4-byte aligned offsets
(R65); outside every window there is no register (log 14). -/
def registerAccess (width addr : Nat) (f : Nat → Nat → Host.Outcome State Fault Refusal) (s : State) :
    Host.Outcome State Fault Refusal :=
  match s.instanceAt addr with
  | none => .refused (.outsideWindows addr)
  | some k =>
    if accessDefined width (addr - (s.focus k).base) then f k (addr - (s.focus k).base)
    else .refused (.undefinedAccess width addr)

/-- The value a 32-bit read of instance `k` at offset `off` returns (R62). -/
def readOf (s : State) (k off : Nat) : Word := regRead off (s.focus k)

/-- One host operation; `s` is the state with the rest of the program already in place. -/
def hostOp (op : HostOp) (s : State) : Host.Outcome State Fault Refusal :=
  match op with
  | .rd width addr =>
    registerAccess width addr (fun k off => .next (s.note (.regRead addr (readOf s k off)))) s
  | .wr width addr v =>
    registerAccess width addr (fun k off => onInstance k (regWrite off v) (s.note (.regWrite addr v))) s
  | .poll addr mask val =>
    registerAccess 32 addr (fun k off =>
      let t := s.note (.regRead addr (readOf s k off))
      if readOf s k off &&& mask = val then .next t
      else .next (t.withProgram (.poll addr mask val :: s.program))) s
  | .load addr n =>
    if insideSpace addr n then .next (s.note (.memRead addr n (s.valueAt addr n))).tick
    else .refused (.outsideBufferSpace addr n)
  | .store addr n v => memWrite addr n v (s.note (.memWrite addr n v))

/-- The host's turn: its next operation, if it has one (R140, log 25). Where several host agents share the
machine (R134) the next operation is whichever agent's stands first in their merged list (log 26). -/
def hostStep (s : State) : Host.Outcome State Fault Refusal :=
  match s.program with
  | [] => .next s
  | op :: rest => hostOp op (s.withProgram rest)

/-- Another memory writer's turn (R5, R140). -/
def writerStep (s : State) : Host.Outcome State Fault Refusal :=
  match s.writers with
  | [] => .next s
  | w :: rest => memWrite w.addr w.n w.v (s.withWriters rest)

/-! ### The pseudo-instructions of R60, for the window at `base` -/

/-- `WAIT`: poll until BUSY = 0 and DONE = 1. -/
def hostWait (base : Nat) : List HostOp := [.poll (base + 0x04) 0x00000003#32 0x00000002#32]

/-- `CHECKSUM <mn>, <src>, <len>`. -/
def hostChecksum (base : Nat) (i : Instr) (src len : Word) : List HostOp :=
  [.wr 32 (base + 0x08) src, .wr 32 (base + 0x0C) len, .wr 32 base (encode i)] ++ hostWait base

/-- `FOLDV <v>`. -/
def hostFoldv (base : Nat) (v : Word) : List HostOp :=
  [.wr 32 (base + 0x10) v, .wr 32 base (encode .fold)] ++ hostWait base

/-- `ACK`: clear DONE and DROP. -/
def hostAck (base : Nat) : List HostOp := [.wr 32 (base + 0x04) 0x0000000A#32]

end Sys2Proof.Machine
end

