-- ==== Sys2Proof/Machine/Turns.lean ====
section
/-! DEFINITION. Whose step it is (R5, R140): the schedule in State, and the fair order when it has run out
(R141, log 3). -/

namespace Sys2Proof.Machine

/-- Whose turn it is when the schedule has run out: a busy engine first, so that every accepted command
completes (R141), then the host, then the other writers. -/
def defaultTurn (s : State) : Turn :=
  if s.busy then .engine 0
  else
    match s.others.findIdx? fun o => o.blk.regs.status.busy with
    | some k => .engine (k + 1)
    | none => if s.program = [] ∧ s.writers ≠ [] then .writer else .host

/-- Whose turn it is. -/
def nextTurn (s : State) : Turn := s.sched.headD (defaultTurn s)

/-- That agent's step. A turn of an instance that does not exist passes (log 25). -/
def takeTurn (t : Turn) (s : State) : Host.Outcome State Fault Refusal :=
  match t with
  | .host => hostStep s
  | .engine k => if s.hasInstance k then onInstance k engineStep s else .next s
  | .writer => writerStep s
  | .reset k =>
    if s.hasInstance k then onInstance k (fun t => .next (resetBlock t)) s else .next s

end Sys2Proof.Machine
end

