-- ==== Sys2Proof/Machine/Step.lean ====
section
/-! DEFINITION. One step of the machine: one agent's step (R140). -/

namespace Sys2Proof.Machine

/-- One step: whose turn it is, and that agent's step. -/
def step (s : State) : Host.Outcome State Fault Refusal :=
  takeTurn (nextTurn s) (s.withSched s.sched.tail)

/-- The state in which the very next step is the host's CMD write of this word to the instance in focus: the
block fetches nothing, its instruction is the word of a CMD write (R50, R67; log 2). -/
def State.withFetchWord (s : State) (nbits w : Nat) : State :=
  (s.withProgram (.wr 32 s.base (BitVec.ofNat 32 (w % 2 ^ nbits)) :: s.program)).withSched
    (.host :: s.sched)

end Sys2Proof.Machine
end

