-- ==== Sys2Proof/Machine/Reference.lean ====
section
/-! DEFINITION. What the checksums are about (R14, R38, R39, R86): the words of a buffer, their exact sum, the
exact sum a lane receives, and the reference checksum RFC. Unbounded naturals; no machine state. -/

namespace Sys2Proof.Machine

/-- The value of the byte at an address. -/
def bufByte (m : Memory) (a : Nat) : Nat := (m.read a).toNat

/-- The little-endian 16-bit word at an address (R37, R38). -/
def bufWord (m : Memory) (a : Nat) : Nat := bufByte m a + 256 * bufByte m (a + 1)

/-- The exact sum of a buffer: every word k, and the trailing byte of an odd length, unshifted (R14, R38). -/
def exactSum (m : Memory) (src len : Nat) : Nat :=
  (∑ k ∈ Finset.range (len / 2), bufWord m (src + 2 * k))
    + if len % 2 = 1 then bufByte m (src + len - 1) else 0

/-- The exact sum of word `i` over `n` blocks of `stride` bytes from `src`: what a lane has received
(R39, R111). -/
def laneSum (m : Memory) (src stride n i : Nat) : Nat :=
  ∑ c ∈ Finset.range n, bufWord m (src + stride * c + 2 * i)

/-- What a command of each kind leaves, as a function of the buffer's bytes, or of SUM_IN for FOLD, and of
nothing else (R73): SUM, CARRY and, as `loss`, STATUS.OVF (R91, R97, R106, R111, R113, R118). -/
def commandResult (i : Instr) (m : Memory) (src len : Nat) (sumIn : Word) : Final :=
  match i with
  | .scalar =>
    { sum := BitVec.ofNat 32 (exactSum m src len), carry := 0, loss := decide (2 ^ 32 ≤ exactSum m src len) }
  | .wide =>
    { sum := BitVec.ofNat 32 (exactSum m src len), carry := 0, loss := decide (2 ^ 32 ≤ exactSum m src len) }
  | .narrow =>
    let e := fun i => laneSum m src 32 (len / 32) i
    let carries := ∑ i : Fin 16, e i / 2 ^ 16 % 2 ^ 16
    { sum := BitVec.ofNat 32 ((∑ i : Fin 16, e i % 2 ^ 16) + carries), carry := BitVec.ofNat 32 carries,
      loss := decide (∃ i : Fin 16, 2 ^ 32 ≤ e i) }
  | .popcnt =>
    let ea := fun i => laneSum m src 64 (len / 64) i
    let eb := fun i => laneSum m (src + 32) 64 (len / 64) i
    let carries := ∑ i : Fin 16, (ea i / 2 ^ 16 + eb i / 2 ^ 16)
    { sum := BitVec.ofNat 32 ((∑ i : Fin 16, (ea i % 2 ^ 16 + eb i % 2 ^ 16)) + carries),
      carry := BitVec.ofNat 32 carries, loss := false }
  | .fold => { sum := sumIn, carry := 0, loss := false }

/-- `RFC(buf)`: the complement of the fold of the exact sum (R86). -/
def rfc (m : Memory) (src len : Nat) : Half := ~~~ (BitVec.ofNat 16 (foldS (exactSum m src len)))

end Sys2Proof.Machine
end

