-- ==== Sys2Proof/Safety.lean ====
section
/-! DEFINITION. What the statements are about: the invariants of the machine (R17, R29, R30, R46), buffers
the engine can read without a fault or a free value (R36, R41), and frames. -/

namespace Sys2Proof.Machine

/-! ### The control invariant -/

/-- How far a command has come: a multiple of what its beats consume, within a length its acceptance
allowed (R29, R67, R69). -/
def progressOk (i : Instr) (len pos : Nat) : Prop :=
  match i with
  | .scalar => pos % 2 = 0 ∨ pos = len
  | .wide => len % 32 = 0 ∧ pos % 32 = 0
  | .narrow => len % 32 = 0 ∧ pos % 32 = 0
  | .popcnt => len % 64 = 0 ∧ pos % 64 = 0
  | .fold => len = 0

/-- The invariant of one instance: BUSY = 1 exactly while the engine holds a command; then DONE, OVF and ERR
are 0 (R17, R69); an error code never stands beside OVF (R68, R71); the buffer does not wrap and the engine
is inside it (R29, R43). -/
structure Block.Inv (b : Block) : Prop where
  busy_iff : b.regs.status.busy = true ↔ b.eng.op.isSome = true
  busy_clear : b.regs.status.busy = true →
    b.regs.status.done = false ∧ b.regs.status.ovf = false ∧ b.regs.status.err = none
  err_no_ovf : b.regs.status.err.isSome = true → b.regs.status.ovf = false
  running : ∀ i, b.eng.op = some i →
    b.eng.src.toNat + b.eng.len.toNat ≤ 2 ^ 32 ∧ b.eng.pos ≤ b.eng.len.toNat
      ∧ progressOk i b.eng.len.toNat b.eng.pos

/-- The bases of all register windows, the instance in focus first. -/
def State.bases (s : State) : List Nat := s.base :: s.others.map (·.base)

/-- The invariant of the machine: memory in canonical form (log 7), legal and distinct windows (R7), and
every instance's own invariant. -/
structure State.Inv (s : State) : Prop where
  mem_wf : s.mem.wf = true
  windows : windowsWf s.bases = true
  focus_inv : s.blk.Inv
  others_inv : ∀ o ∈ s.others, o.blk.Inv

/-! ### The data invariant -/

/-- The sum the first `n` chunks have added to wide lane `i`: words i and i+8 (R104). -/
def wideLane (m : Memory) (src n i : Nat) : Nat := laneSum m src 32 n i + laneSum m src 32 n (i + 8)

/-- The accumulators hold exactly what the bytes read so far give (R91, R106, R111, R118), over the memory as
it is now, which within the buffer is memory as it was at acceptance (R46). -/
def Engine.partialSums (m : Memory) (e : Engine) : Prop :=
  let src := e.src.toNat
  match e.op with
  | none => True
  | some .scalar =>
    e.acc.toNat = exactSum m src e.pos % 2 ^ 32 ∧ (e.ovf = true ↔ 2 ^ 32 ≤ exactSum m src e.pos)
  | some .wide =>
    (∀ i : Fin 8, (e.v[i]).toNat = wideLane m src (e.pos / 32) i % 2 ^ 32)
      ∧ (e.ovf = true ↔ ∃ i : Fin 8, 2 ^ 32 ≤ wideLane m src (e.pos / 32) i)
  | some .narrow =>
    (∀ i : Fin 16, (e.a[i]).toNat = laneSum m src 32 (e.pos / 32) i % 2 ^ 16
      ∧ (e.c[i]).toNat = laneSum m src 32 (e.pos / 32) i / 2 ^ 16 % 2 ^ 16)
      ∧ (e.ovf = true ↔ ∃ i : Fin 16, 2 ^ 32 ≤ laneSum m src 32 (e.pos / 32) i)
  | some .popcnt =>
    (∀ i : Fin 16, (e.a[i]).toNat = laneSum m src 64 (e.pos / 64) i % 2 ^ 16
      ∧ (e.b[i]).toNat = laneSum m (src + 32) 64 (e.pos / 64) i % 2 ^ 16)
      ∧ e.t.toNat = ∑ i : Fin 16, (laneSum m src 64 (e.pos / 64) i / 2 ^ 16
          + laneSum m (src + 32) 64 (e.pos / 64) i / 2 ^ 16)
      ∧ e.ovf = false
  | some .fold => e.ovf = false

/-- No address of `[src, src + len)` has reads with side effects (R41). -/
def State.quiet (s : State) (src len : Nat) : Prop :=
  ∀ a, src ≤ a → a < src + len → s.isVolatile a = false

/-- The engine can read all of `[src, src + len)` (R36). -/
def State.canRead (s : State) (src len : Nat) : Prop :=
  ∀ a, src ≤ a → a < src + len → s.isReadable a = true

/-- The engine can read all of `[src, src + len)` (R36), and what it reads is memory (R41). -/
def State.readableBuffer (s : State) (src len : Nat) : Prop :=
  ∀ a, src ≤ a → a < src + len → s.isReadable a = true ∧ s.isVolatile a = false

/-- The data invariant: every instance whose buffer is memory has exact partial sums. -/
structure State.DataInv (s : State) : Prop where
  focus_data : s.quiet s.eng.src.toNat s.eng.len.toNat → s.eng.partialSums s.mem
  others_data : ∀ o ∈ s.others, s.quiet o.blk.eng.src.toNat o.blk.eng.len.toNat →
    o.blk.eng.partialSums s.mem

/-! ### Frames -/

/-- Nothing but the instance in focus may differ: memory, the other instances, the platform, the agents' own
data and the free values' counter are as before. -/
def SameOutsideBlock (s t : State) : Prop := t = s.withBlk t.blk

/-- Nothing but the engine of the instance in focus and the free values' counter may differ. -/
def SameOutsideEngine (s t : State) : Prop :=
  t = (s.withBlk { regs := s.regs, eng := t.eng }).tick

/-- Nothing but the block in focus, the free values' counter and the `n` turns taken off the schedule may
differ: what a run of `n` engine steps leaves alone. -/
def SameOutsideRun (n : Nat) (s u : State) : Prop :=
  u = { s.withBlk u.blk with freeCount := u.freeCount, sched := s.sched.drop n }

/-- The host-written registers and the results keep their values; only STATUS and the engine may differ. -/
def SameRegisters (r u : Regs) : Prop := u = { r with status := u.status }

/-! ### Turns -/

/-- The next `n` turns of a busy block are its engine's: the schedule names no other agent in them, and where it
has run out the default order moves a busy engine first (log 3). -/
def State.engineTurnsNext (s : State) (n : Nat) : Prop := ∀ t ∈ s.sched.take n, t = .engine 0

/-- The coming step is the host's write of `v` to the register at offset `off` of the instance in focus (R63). -/
def State.hostWrites (s : State) (off : Nat) (v : Word) : Prop :=
  nextTurn s = .host ∧ ∃ p, s.program = .wr 32 (s.base + off) v :: p

/-- The coming step is the completion of the command the instance in focus runs (R70, R71). -/
def State.completesNext (s : State) : Prop :=
  nextTurn s = .engine 0 ∧ s.busy = true ∧ s.eng.len.toNat ≤ s.eng.pos

end Sys2Proof.Machine
end

