-- ==== Sys2Proof/Certificates/Slice0/Obligations.lean ====
section
/-! DEFINITION. The statements about the model, each citing the rules of spec/ it formalises. A statement is
about every state: every platform (CSUM_BASE, Readable, NUM_INSTANCES are data in State), every memory, every
schedule. -/

open Sys2Proof Sys2Proof.Machine

/-! ## Encoding -/

/-- The words of the opcode map, and reserved words around them, decode as R54 and R55 say. -/
def Obligations.DecodeOfSpecWords : Prop :=
  decodeWord 0x00000001#32 = .instr .scalar ∧ decodeWord 0x00000002#32 = .instr .wide
    ∧ decodeWord 0x00000003#32 = .instr .narrow ∧ decodeWord 0x00000004#32 = .instr .popcnt
    ∧ decodeWord 0x00000005#32 = .instr .fold
    ∧ decodeWord 0x00000000#32 = .rejected (.reservedOpcode 0x0#4)
    ∧ decodeWord 0x00000006#32 = .rejected (.reservedOpcode 0x6#4)
    ∧ decodeWord 0x0000000F#32 = .rejected (.reservedOpcode 0xF#4)
    ∧ decodeWord 0x00000011#32 = .rejected (.reservedBits 0x0000001#28)
    ∧ decodeWord 0x80000001#32 = .rejected (.reservedBits 0x8000000#28)

/-- Decoding undoes encoding, for the decoder and for the opcode table's numbering (R53, R54). -/
def Obligations.EncodeDecodeRoundTrip : Prop :=
  ∀ i : Instr, decodeWord (encode i) = .instr i ∧ decodeTableWord 32 (encode i).toNat = some i

/-- A word decodes as a command exactly when `w & mask = match` for the command's row, so a defined command
is exactly one word (R54). -/
def Obligations.DecodeMatchesOpcodeMap : Prop :=
  ∀ w : Word,
    (decodeWord w = .instr .scalar ↔ w &&& 0xFFFFFFFF#32 = 0x00000001#32)
    ∧ (decodeWord w = .instr .wide ↔ w &&& 0xFFFFFFFF#32 = 0x00000002#32)
    ∧ (decodeWord w = .instr .narrow ↔ w &&& 0xFFFFFFFF#32 = 0x00000003#32)
    ∧ (decodeWord w = .instr .popcnt ↔ w &&& 0xFFFFFFFF#32 = 0x00000004#32)
    ∧ (decodeWord w = .instr .fold ↔ w &&& 0xFFFFFFFF#32 = 0x00000005#32)
    ∧ (∀ i, decodeWord w = .instr i ↔ ∃ r ∈ opcodeMap, r.instr = i ∧ r.selects w = true)

/-- Every word but the five defined ones is rejected with ILLEGAL_CMD, and does nothing else (R55). -/
def Obligations.IllegalWordRejected : Prop :=
  ∀ (w : Word) (s : State), s.busy = false →
    w ≠ 0x00000001#32 → w ≠ 0x00000002#32 → w ≠ 0x00000003#32 → w ≠ 0x00000004#32 → w ≠ 0x00000005#32 →
    presentCommand w s
      = .next (s.withStatus { s.regs.status with err := some .illegalCmd, done := true, ovf := false })

/-! ## A step runs the decoded instruction -/

/-- When it is the host's turn, by the schedule or because it has run out and no engine is busy (the default
order, log 3), and the host writes a command word to CMD of the instance in focus, the step is exec of the
decoded command, with the operation off the program and its transaction on the trace (R63, R67). -/
def Obligations.StepRunsDecodedInstruction : Prop :=
  ∀ (s : State) (w : Word) (i : Instr) (p : List HostOp),
    s.program = .wr 32 s.base w :: p → decodeWord w = .instr i →
    (∀ rest, s.sched = .host :: rest →
      step s = exec i (((s.withSched rest).withProgram p).note (.regWrite s.base w)))
    ∧ (s.sched = [] → s.busy = false → (∀ o ∈ s.others, o.blk.regs.status.busy = false) →
      step s = exec i ((s.withProgram p).note (.regWrite s.base w)))

/-- The same for a command written to another instance's window: exec of it on that instance, the focus put
back (R33, R134). -/
def Obligations.StepRunsCommandOnAddressedInstance : Prop :=
  ∀ (s : State) (w : Word) (i : Instr) (p : List HostOp) (rest : List Turn) (k : Nat) (o : Slot),
    s.sched = .host :: rest → s.others[k]? = some o → s.instanceAt o.base = some (k + 1) →
    s.program = .wr 32 o.base w :: p → decodeWord w = .instr i →
    ∃ t, exec i ((((s.withSched rest).withProgram p).note (.regWrite o.base w)).focus (k + 1)) = .next t
      ∧ step s = .next (t.focus (k + 1))

/-- The word the host places with `withFetchWord` is what the very next step runs. -/
def Obligations.PlacedWordRunsNext : Prop :=
  ∀ (s : State) (i : Instr),
    step (s.withFetchWord 32 (encode i).toNat) = exec i (s.note (.regWrite s.base (encode i)))

/-! ## Presenting a command -/

/-- A CMD write to an idle block is validated in the same step: rejected with the code of `Validate`, or
accepted (R67; `validate` is that rule's text). -/
def Obligations.PresentationFollowsValidate : Prop :=
  ∀ (w : Word) (s : State), s.busy = false →
    (∀ e, validate w s.regs.src s.regs.len = some e → presentCommand w s = .next (rejectCommand e s))
    ∧ (validate w s.regs.src s.regs.len = none →
      ∃ i, decodeWord w = .instr i ∧ presentCommand w s = .next (acceptCommand i s))

/-- Rejection: ERR, DONE and OVF written, BUSY stays 0, everything else as it was (R68). -/
def Obligations.RejectionChangesStatusOnly : Prop :=
  ∀ (w : Word) (s : State) (e : Reject), s.busy = false → validate w s.regs.src s.regs.len = some e →
    ∃ t, presentCommand w s = .next t
      ∧ t.regs.status
          = { busy := false, done := true, ovf := false, drop := s.regs.status.drop, err := some e }
      ∧ SameRegisters s.regs t.regs ∧ t.eng = s.eng ∧ SameOutsideBlock s t
      ∧ ∀ a, t.mem.read a = s.mem.read a

/-- A CMD write while BUSY = 1 sets DROP and changes nothing else, whatever the word (R66). -/
def Obligations.BusyCommandDropped : Prop :=
  ∀ (w : Word) (s : State), s.busy = true →
    ∃ t, presentCommand w s = .next t ∧ t.regs.status = { s.regs.status with drop := true }
      ∧ SameRegisters s.regs t.regs ∧ t.eng = s.eng ∧ SameOutsideBlock s t

/-- Acceptance, for each of the five commands: exec answers a next state with BUSY set, DONE, OVF and ERR
cleared, the operands latched and every accumulator zero (R69). -/
def Obligations.AcceptanceLatchesOperands : Prop :=
  ∀ (i : Instr) (s : State), s.busy = false → validate (encode i) s.regs.src s.regs.len = none →
    ∃ t, exec i s = .next t
      ∧ t.regs.status
          = { busy := true, done := false, ovf := false, drop := s.regs.status.drop, err := none }
      ∧ SameRegisters s.regs t.regs ∧ SameOutsideBlock s t
      ∧ t.eng.op = some i ∧ t.eng.src = s.regs.src
      ∧ t.eng.len = (if i = .fold then 0 else s.regs.len) ∧ t.eng.sumIn = s.regs.sumIn
      ∧ t.eng.pos = 0 ∧ t.eng.acc = 0 ∧ t.eng.t = 0 ∧ t.eng.ovf = false
      ∧ (∀ j : Fin 8, t.eng.v[j] = 0)
      ∧ ∀ j : Fin 16, t.eng.a[j] = 0 ∧ t.eng.b[j] = 0 ∧ t.eng.c[j] = 0

/-- Exactly one code is reported, the first that applies in the order ILLEGAL_CMD, RANGE, LEN_ALIGN, LEN_PAIR;
a word dropped while busy reports nothing but DROP (R123). -/
def Obligations.ErrorCodesByPriority : Prop :=
  ∀ (w : Word) (s : State),
    let strategy := w = 0x1#32 ∨ w = 0x2#32 ∨ w = 0x3#32 ∨ w = 0x4#32
    let vector := w = 0x2#32 ∨ w = 0x3#32 ∨ w = 0x4#32
    let rangeErr := 2 ^ 32 < s.regs.src.toNat + s.regs.len.toNat
    let answers := fun (c : BitVec 4) (d : Bool) =>
      ∃ t, presentCommand w s = .next t ∧ errCode t.regs.status.err = c ∧ t.regs.status.done = d
        ∧ t.regs.status.drop = (s.regs.status.drop || s.busy)
    (s.busy = true → answers (errCode s.regs.status.err) s.regs.status.done)
    ∧ (s.busy = false →
      (¬ strategy ∧ w ≠ 0x5#32 → answers 1 true)
      ∧ (strategy ∧ rangeErr → answers 2 true)
      ∧ (vector ∧ ¬ rangeErr ∧ s.regs.len.toNat % 32 ≠ 0 → answers 3 true)
      ∧ (w = 0x4#32 ∧ ¬ rangeErr ∧ s.regs.len.toNat % 32 = 0 ∧ s.regs.len.toNat / 32 % 2 = 1 →
          answers 4 true)
      ∧ (w = 0x1#32 ∧ ¬ rangeErr → answers 0 false)
      ∧ (vector ∧ w ≠ 0x4#32 ∧ ¬ rangeErr ∧ s.regs.len.toNat % 32 = 0 → answers 0 false)
      ∧ (w = 0x4#32 ∧ ¬ rangeErr ∧ s.regs.len.toNat % 64 = 0 → answers 0 false)
      ∧ (w = 0x5#32 → answers 0 false))

/-- The frame of every command's presentation: only STATUS and the engine of the instance in focus change;
memory, the host's registers, the results, the other instances and the agents' data do not. While busy the
engine does not change either, and of STATUS only DROP (R66, R68, R69, R121). -/
def Obligations.CommandFrame : Prop :=
  ∀ (i : Instr) (s t : State), exec i s = .next t →
    SameOutsideBlock s t ∧ SameRegisters s.regs t.regs
    ∧ (∀ a, t.mem.read a = s.mem.read a)
    ∧ t.regs.status.drop = (s.regs.status.drop || s.busy)
    ∧ (s.busy = true → t.eng = s.eng ∧ t.regs.status = { s.regs.status with drop := true })
    ∧ (s.busy = false → t.regs.status.busy = false → t.eng = s.eng)

/-! ## Registers -/

/-- The layout of STATUS: BUSY 0, DONE 1, OVF 2, DROP 3, ERR 7:4, bits 31:8 zero, and ERR's codes
(R17, R122). -/
def Obligations.StatusLayout : Prop :=
  (∀ st : Status,
    (statusWord st).getLsbD 0 = st.busy ∧ (statusWord st).getLsbD 1 = st.done
    ∧ (statusWord st).getLsbD 2 = st.ovf ∧ (statusWord st).getLsbD 3 = st.drop
    ∧ (statusWord st).extractLsb' 4 4 = errCode st.err ∧ (statusWord st).extractLsb' 8 24 = 0)
  ∧ errCode none = 0 ∧ errCode (some .illegalCmd) = 1 ∧ errCode (some .range) = 2
  ∧ errCode (some .lenAlign) = 3 ∧ errCode (some .lenPair) = 4

/-- A write to STATUS clears DONE where bit 1 is 1 and DROP where bit 3 is 1, and changes no other bit
(R64). -/
def Obligations.StatusWriteOneToClear : Prop :=
  ∀ (v : Word) (s : State), ∃ t, regWrite 0x04 v s = .next t
    ∧ (∀ j, (statusWord t.regs.status).getLsbD j
        = ((statusWord s.regs.status).getLsbD j && !((j == 1 || j == 3) && v.getLsbD j)))
    ∧ SameRegisters s.regs t.regs ∧ t.eng = s.eng ∧ SameOutsideBlock s t

/-- A register read returns the register at its offset, 0 for CMD and for reserved offsets, of the instance
whose window the address names, and changes nothing but the host's own program and trace (R62). Where windows
are legal and distinct, every address of an instance's window names that instance (R15, R52). -/
def Obligations.RegisterReads : Prop :=
  (∀ s : State,
    regRead 0x00 s = 0 ∧ regRead 0x04 s = statusWord s.regs.status ∧ regRead 0x08 s = s.regs.src
    ∧ regRead 0x0C s = s.regs.len ∧ regRead 0x10 s = s.regs.sumIn
    ∧ regRead 0x14 s = s.regs.result.zeroExtend 32 ∧ regRead 0x18 s = s.regs.sum
    ∧ regRead 0x1C s = s.regs.carry ∧ ∀ off, 0x20 ≤ off → regRead off s = 0)
  ∧ (∀ (s : State) (k off : Nat), windowsWf s.bases = true → s.hasInstance k = true → off < 0x100 →
    s.instanceAt ((s.focus k).base + off) = some k)
  ∧ ∀ (s : State) (rest : List Turn) (p : List HostOp) (addr k : Nat), s.instanceAt addr = some k →
    (addr - (s.focus k).base) % 4 = 0 → s.sched = .host :: rest → s.program = .rd 32 addr :: p →
    step s = .next (((s.withSched rest).withProgram p).note
      (.regRead addr (regRead (addr - (s.focus k).base) (s.focus k))))

/-- A register write changes SRC, LEN or SUM_IN alone, presents a command, writes STATUS, or has no effect;
it changes no latched operand, also while BUSY = 1 (R63). A host's write is that write on the instance whose
window the address names, with the focus put back. -/
def Obligations.RegisterWrites : Prop :=
  (∀ (v : Word) (s : State),
    (∃ t, regWrite 0x08 v s = .next t ∧ t.regs = { s.regs with src := v } ∧ t.eng = s.eng
      ∧ SameOutsideBlock s t)
    ∧ (∃ t, regWrite 0x0C v s = .next t ∧ t.regs = { s.regs with len := v } ∧ t.eng = s.eng
      ∧ SameOutsideBlock s t)
    ∧ (∃ t, regWrite 0x10 v s = .next t ∧ t.regs = { s.regs with sumIn := v } ∧ t.eng = s.eng
      ∧ SameOutsideBlock s t)
    ∧ regWrite 0x00 v s = presentCommand v s
    ∧ regWrite 0x04 v s = .next (s.withStatus (statusW1C v s.regs.status))
    ∧ ∀ off, 0x14 ≤ off → regWrite off v s = .next s)
  ∧ ∀ (s : State) (rest : List Turn) (p : List HostOp) (addr k : Nat) (v : Word),
    s.instanceAt addr = some k → (addr - (s.focus k).base) % 4 = 0 → s.sched = .host :: rest →
    s.program = .wr 32 addr v :: p →
    ∃ t, regWrite (addr - (s.focus k).base) v
        ((((s.withSched rest).withProgram p).note (.regWrite addr v)).focus k) = .next t
      ∧ step s = .next (t.focus k)

/-- An access to any instance's window that is not 32 bits wide, or not at a 4-byte aligned offset, is refused
(R65). -/
def Obligations.UndefinedAccessRefused : Prop :=
  ∀ (s : State) (rest : List Turn) (p : List HostOp) (width addr k : Nat),
    s.sched = .host :: rest → s.instanceAt addr = some k →
    (width ≠ 32 ∨ (addr - (s.focus k).base) % 4 ≠ 0) →
    (s.program = .rd width addr :: p ∨ (∃ v, s.program = .wr width addr v :: p)
      ∨ width = 32 ∧ ∃ mask val, s.program = .poll addr mask val :: p) →
    step s = .refused (.undefinedAccess width addr)

/-- POLL repeats its read until the masked value matches (R59). One read per host turn, with POLL kept at the
head of the program until the match, is the model's reading of R59 and R140 (log 24). -/
def Obligations.PollRepeatsUntilMatch : Prop :=
  ∀ (s : State) (rest : List Turn) (p : List HostOp) (addr k : Nat) (mask val : Word),
    s.instanceAt addr = some k → (addr - (s.focus k).base) % 4 = 0 → s.sched = .host :: rest →
    s.program = .poll addr mask val :: p →
    let v := regRead (addr - (s.focus k).base) (s.focus k)
    let t := (s.withSched rest).note (.regRead addr v)
    (v &&& mask = val → step s = .next (t.withProgram p))
    ∧ (v &&& mask ≠ val → step s = .next t)

/-! ## The datapath -/

/-- `add_N` for 16 and 32 bits: the sum modulo 2^N, and the carry is 1 exactly when the exact sum reaches 2^N
(R74). -/
def Obligations.ModularAddition : Prop :=
  (∀ x y : Word, (add32 x y).1.toNat = (x.toNat + y.toNat) % 2 ^ 32
    ∧ ((add32 x y).2 = true ↔ 2 ^ 32 ≤ x.toNat + y.toNat))
  ∧ ∀ x y : Half, (add16 x y).1.toNat = (x.toNat + y.toNat) % 2 ^ 16
    ∧ ((add16 x y).2 = true ↔ 2 ^ 16 ≤ x.toNat + y.toNat)

/-- A narrow lane's overflow bit is 1 exactly when the new value is below the old, which is exactly when the
exact sum reaches 2^16; the comparison with the added operand says the same (R78). -/
def Obligations.LaneOverflowDetection : Prop :=
  ∀ x y : Lanes16, ∀ i : Fin 16,
    ((ovfv x (vadd16 x y))[i] = true ↔ ((vadd16 x y)[i]).toNat < (x[i]).toNat)
    ∧ ((ovfv x (vadd16 x y))[i] = true ↔ 2 ^ 16 ≤ (x[i]).toNat + (y[i]).toNat)
    ∧ ((ovfv x (vadd16 x y))[i] = true ↔ ((vadd16 x y)[i]).toNat < (y[i]).toNat)

/-- The biased signed comparison is the unsigned one (R79). -/
def Obligations.BiasedComparisonIsUnsigned : Prop :=
  ∀ p q : Half, biasedGreater p q = laneOverflowed p q

/-- Bits 2i and 2i+1 of the mask are lane i's bit (R81). -/
def Obligations.MaskReplicatesLaneBits : Prop :=
  ∀ (o : LaneBits) (i : Fin 16),
    (movmask o).getLsbD (2 * i) = o[i] ∧ (movmask o).getLsbD (2 * i + 1) = o[i]

/-- Half the population count of two masks is the number of overflowed lanes, exactly, and at most 32
(R82, R83). -/
def Obligations.HalvedCountIsExact : Prop :=
  ∀ o0 o1 : LaneBits,
    2 * half (popcount64 (movmask o1 ++ movmask o0)) = popcount64 (movmask o1 ++ movmask o0)
    ∧ half (popcount64 (movmask o1 ++ movmask o0))
        = (∑ i : Fin 16, (o0[i]).toNat) + ∑ i : Fin 16, (o1[i]).toNat
    ∧ half (popcount64 (movmask o1 ++ movmask o0)) ≤ 32

/-- The carry lanes count the overflowed lanes modulo 2^16, and the loss bit says that one wrapped (R84). -/
def Obligations.CarryLanesCount : Prop :=
  ∀ (cs : Lanes16) (o : LaneBits),
    (∀ i : Fin 16, ((cinc cs o).1[i]).toNat = ((cs[i]).toNat + (o[i]).toNat) % 2 ^ 16)
    ∧ ((cinc cs o).2 = true ↔ ∃ i : Fin 16, o[i] = true ∧ (cs[i]).toNat = 0xFFFF)

/-- The reduction law: the sum of the lanes modulo 2^32, and the loss bit is 1 exactly when the exact total
reaches 2^32 (R100). -/
def Obligations.ReductionLaw : Prop :=
  (∀ v : Lanes32, (hr8 v).1.toNat = (∑ i : Fin 8, (v[i]).toNat) % 2 ^ 32
    ∧ ((hr8 v).2 = true ↔ 2 ^ 32 ≤ ∑ i : Fin 8, (v[i]).toNat))
  ∧ ∀ x : Lanes16, (hr16 x).1.toNat = (∑ i : Fin 16, (x[i]).toNat) % 2 ^ 32
    ∧ ((hr16 x).2 = true ↔ 2 ^ 32 ≤ ∑ i : Fin 16, (x[i]).toNat)

/-- The 16-lane reduction loses nothing (R101). -/
def Obligations.NarrowReductionIsExact : Prop :=
  ∀ x : Lanes16, (hr16 x).1.toNat = ∑ i : Fin 16, (x[i]).toNat
    ∧ (hr16 x).1.toNat ≤ 0x000FFFF0 ∧ (hr16 x).2 = false

/-- The fold ends within two rounds on 32 bits, and the two-stage form gives the same value (R93, R94). -/
def Obligations.FoldTwoRounds : Prop :=
  ∀ x : Word, foldLoop 2 x.toNat < 2 ^ 16 ∧ foldLoop 2 x.toNat = foldS x.toNat ∧ foldTwoStage x = fold x
    ∧ fold x = ~~~ (BitVec.ofNat 16 (foldS x.toNat))

/-- The fold's arithmetic law and its consequences (R95). -/
def Obligations.FoldLaw : Prop :=
  foldS 0 = 0 ∧ (∀ n, 1 ≤ n → foldS n = 1 + (n - 1) % 0xFFFF)
  ∧ (∀ x y : Word, fold x = fold y ↔
      (x = 0 ∧ y = 0) ∨ (x ≠ 0 ∧ y ≠ 0 ∧ x.toNat % 0xFFFF = y.toNat % 0xFFFF))
  ∧ (∀ x : Word, fold x = 0xFFFF ↔ x = 0)
  ∧ ∀ x : Word, fold x = 0x0000 ↔ x ≠ 0 ∧ x.toNat % 0xFFFF = 0

/-- The table of fold corner cases (R96). -/
def Obligations.FoldCornerCases : Prop :=
  fold 0x00000000 = 0xFFFF ∧ fold 0x00000001 = 0xFFFE ∧ fold 0x0000FFFF = 0x0000
  ∧ fold 0x00010000 = 0xFFFE ∧ fold 0x0001FFFE = 0x0000 ∧ fold 0x0001FFFF = 0xFFFE
  ∧ fold 0x12345678 = 0x9753 ∧ fold 0x00FF00FF = 0xFE01 ∧ fold 0x80008000 = 0xFFFE
  ∧ fold 0xFFFF0000 = 0x0000 ∧ fold 0xFFFEFFFF = 0x0001 ∧ fold 0xFFFFFFFF = 0x0000

/-! ## Beats and completion -/

/-- SCALAR's word beat: the little-endian word at `E.src + E.pos` added into E.acc, the carry kept in E.ovf,
two bytes consumed; nothing else changes (R88). Where reads have side effects the word is free (I6, log 8) and
the rest is as said. -/
def Obligations.ScalarWordBeat : Prop :=
  ∀ s : State, s.busy = true → s.eng.op = some .scalar → s.eng.pos + 2 ≤ s.eng.len.toNat →
    s.canRead (s.eng.src.toNat + s.eng.pos) 2 →
    let w := bufWord s.mem (s.eng.src.toNat + s.eng.pos)
    ∃ t, engineStep s = .next t ∧ SameOutsideEngine s t
      ∧ t.eng = { s.eng with acc := t.eng.acc, pos := s.eng.pos + 2, ovf := t.eng.ovf }
      ∧ (s.eng.ovf = true → t.eng.ovf = true)
      ∧ (s.quiet (s.eng.src.toNat + s.eng.pos) 2 →
          t.eng.acc = s.eng.acc + BitVec.ofNat 32 w
          ∧ t.eng.ovf = (s.eng.ovf || decide (2 ^ 32 ≤ s.eng.acc.toNat + w)))

/-- SCALAR's trailing-byte beat: the last byte's value, not shifted (R89); free where reads have side effects
(I6, log 8). -/
def Obligations.ScalarTrailingByteBeat : Prop :=
  ∀ s : State, s.busy = true → s.eng.op = some .scalar → s.eng.pos + 1 = s.eng.len.toNat →
    s.canRead (s.eng.src.toNat + s.eng.pos) 1 →
    let b := bufByte s.mem (s.eng.src.toNat + s.eng.pos)
    ∃ t, engineStep s = .next t ∧ SameOutsideEngine s t
      ∧ t.eng = { s.eng with acc := t.eng.acc, pos := s.eng.pos + 1, ovf := t.eng.ovf }
      ∧ (s.eng.ovf = true → t.eng.ovf = true)
      ∧ (s.quiet (s.eng.src.toNat + s.eng.pos) 1 →
          t.eng.acc = s.eng.acc + BitVec.ofNat 32 b
          ∧ t.eng.ovf = (s.eng.ovf || decide (2 ^ 32 ≤ s.eng.acc.toNat + b)))

/-- WIDE's beat: chunk words i and i+8 added into lane i, the loss kept in E.ovf, 32 bytes consumed (R104).
Where reads have side effects the words are free (I6, log 8) and the rest is as said. -/
def Obligations.WideBeat : Prop :=
  ∀ s : State, s.busy = true → s.eng.op = some .wide → s.eng.pos < s.eng.len.toNat →
    s.canRead (s.eng.src.toNat + s.eng.pos) 32 →
    let l := fun j => bufWord s.mem (s.eng.src.toNat + s.eng.pos + 2 * j)
    ∃ t, engineStep s = .next t ∧ SameOutsideEngine s t
      ∧ t.eng = { s.eng with v := t.eng.v, ovf := t.eng.ovf, pos := s.eng.pos + 32 }
      ∧ (s.eng.ovf = true → t.eng.ovf = true)
      ∧ (s.quiet (s.eng.src.toNat + s.eng.pos) 32 →
          (∀ i : Fin 8, (t.eng.v[i]).toNat = ((s.eng.v[i]).toNat + l i + l (i + 8)) % 2 ^ 32)
          ∧ (t.eng.ovf = true ↔
              s.eng.ovf = true ∨ ∃ i : Fin 8, 2 ^ 32 ≤ (s.eng.v[i]).toNat + l i + l (i + 8)))

/-- NARROW's beat: chunk word j added into lane j modulo 2^16, an overflowed lane's counter up by one modulo
2^16, a wrapped counter kept in E.ovf, 32 bytes consumed (R109). Where reads have side effects the words are
free (I6, log 8) and the rest is as said. -/
def Obligations.NarrowBeat : Prop :=
  ∀ s : State, s.busy = true → s.eng.op = some .narrow → s.eng.pos < s.eng.len.toNat →
    s.canRead (s.eng.src.toNat + s.eng.pos) 32 →
    let l := fun j => bufWord s.mem (s.eng.src.toNat + s.eng.pos + 2 * j)
    ∃ t, engineStep s = .next t ∧ SameOutsideEngine s t
      ∧ t.eng = { s.eng with a := t.eng.a, c := t.eng.c, ovf := t.eng.ovf, pos := s.eng.pos + 32 }
      ∧ (s.eng.ovf = true → t.eng.ovf = true)
      ∧ (s.quiet (s.eng.src.toNat + s.eng.pos) 32 →
          (∀ i : Fin 16, (t.eng.a[i]).toNat = ((s.eng.a[i]).toNat + l i) % 2 ^ 16
            ∧ (t.eng.c[i]).toNat
                = (if 2 ^ 16 ≤ (s.eng.a[i]).toNat + l i then ((s.eng.c[i]).toNat + 1) % 2 ^ 16
                   else (s.eng.c[i]).toNat))
          ∧ (t.eng.ovf = true ↔ s.eng.ovf = true ∨
              ∃ i : Fin 16, 2 ^ 16 ≤ (s.eng.a[i]).toNat + l i ∧ (s.eng.c[i]).toNat = 0xFFFF))

/-- POPCNT's beat: the lower chunk into A, the higher into B, both modulo 2^16; T up by half the population
count of the mask word, A's mask in bits 31:0, which is the number of overflowed lanes of both; 64 bytes consumed
(R116). Where reads have side effects the words are free (I6, log 8) and the rest is as said. -/
def Obligations.PopcntBeat : Prop :=
  ∀ s : State, s.busy = true → s.eng.op = some .popcnt → s.eng.pos < s.eng.len.toNat →
    s.canRead (s.eng.src.toNat + s.eng.pos) 64 →
    let l := fun j => bufWord s.mem (s.eng.src.toNat + s.eng.pos + 2 * j)
    let h := fun j => bufWord s.mem (s.eng.src.toNat + s.eng.pos + 32 + 2 * j)
    let n := ∑ i : Fin 16, (((s.eng.a[i]).toNat + l i) / 2 ^ 16 + ((s.eng.b[i]).toNat + h i) / 2 ^ 16)
    ∃ t, engineStep s = .next t ∧ SameOutsideEngine s t
      ∧ t.eng = { s.eng with a := t.eng.a, b := t.eng.b, t := t.eng.t, ovf := t.eng.ovf,
                             pos := s.eng.pos + 64 }
      ∧ (let m0 := movmask (ovfv s.eng.a t.eng.a)
         let m1 := movmask (ovfv s.eng.b t.eng.b)
         let k := half (popcount64 (m1 ++ m0))
         t.eng.t = s.eng.t + BitVec.ofNat 32 k
         ∧ t.eng.ovf = (s.eng.ovf || decide (2 ^ 32 ≤ s.eng.t.toNat + k))
         ∧ (s.quiet (s.eng.src.toNat + s.eng.pos) 64 → k = n))
      ∧ (s.quiet (s.eng.src.toNat + s.eng.pos) 64 →
          ∀ i : Fin 16, (t.eng.a[i]).toNat = ((s.eng.a[i]).toNat + l i) % 2 ^ 16
            ∧ (t.eng.b[i]).toNat = ((s.eng.b[i]).toNat + h i) % 2 ^ 16)

/-- A beat that would read an unreadable byte is the fault BufferNotReadable, for such a byte (R36). -/
def Obligations.UnreadableByteFaults : Prop :=
  ∀ (s : State) (i : Instr), s.busy = true → s.eng.op = some i → i ≠ .fold →
    s.eng.pos < s.eng.len.toNat →
    (∃ a, s.eng.src.toNat + s.eng.pos ≤ a
      ∧ a < s.eng.src.toNat + s.eng.pos + beatSize i s.eng.len.toNat s.eng.pos ∧ s.isReadable a = false) →
    ∃ a, s.eng.src.toNat + s.eng.pos ≤ a
      ∧ a < s.eng.src.toNat + s.eng.pos + beatSize i s.eng.len.toNat s.eng.pos ∧ s.isReadable a = false
      ∧ engineStep s = .fault (.bufferNotReadable a)

/-- Completion: SUM, CARRY, RESULT and OVF from the family's values S, K and f, BUSY to 0, DONE to 1, in one
step; ERR, DROP and the host's registers unchanged, the engine idle (R71, with R90, R97, R105, R110,
R117). Where the buffer's reads have side effects those four values are free (I6, log 8) and the rest is as
said. -/
def Obligations.CompletionWritesResults : Prop :=
  ∀ (s : State) (i : Instr), s.busy = true → s.eng.op = some i → s.eng.len.toNat ≤ s.eng.pos →
    let ra := hr16 s.eng.a
    let rb := hr16 s.eng.b
    let rc := hr16 s.eng.c
    let f := match i with
      | .scalar => (s.eng.acc, (0 : Word), false)
      | .wide => ((hr8 s.eng.v).1, (0 : Word), (hr8 s.eng.v).2)
      | .narrow => ((add32 ra.1 rc.1).1, rc.1, ra.2 || rc.2 || (add32 ra.1 rc.1).2)
      | .popcnt => ((add32 (add32 ra.1 rb.1).1 s.eng.t).1, s.eng.t,
          ra.2 || rb.2 || (add32 ra.1 rb.1).2 || (add32 (add32 ra.1 rb.1).1 s.eng.t).2)
      | .fold => (s.eng.sumIn, (0 : Word), false)
    ∃ t, engineStep s = .next t
      ∧ t.regs = { s.regs with
          sum := t.regs.sum, carry := t.regs.carry, result := t.regs.result,
          status := { busy := false, done := true, ovf := t.regs.status.ovf,
                      drop := s.regs.status.drop, err := s.regs.status.err } }
      ∧ (s.quiet s.eng.src.toNat s.eng.len.toNat →
          t.regs.sum = f.1 ∧ t.regs.carry = f.2.1 ∧ t.regs.result = fold f.1
          ∧ t.regs.status.ovf = (s.eng.ovf || f.2.2))
      ∧ t.eng.op = none ∧ t = (s.withBlk t.blk).tick ∧ ∀ a, t.mem.read a = s.mem.read a

/-! ## Whole commands, from presentation to completion

`engineTurnsNext n` says that the next n turns are the engine's, by the schedule or, where it has run out, by the
default order the model chose (log 3). `ResultIndependentOfInterleaving` is about every other order. -/

/-- CSUM.FOLD, presented to an idle block, is accepted whatever SRC and LEN hold, and its first engine step
completes it: SUM is SUM_IN, CARRY 0, RESULT its fold, OVF 0 (R97). -/
def Obligations.FoldCommandResult : Prop :=
  ∀ s : State, s.busy = false →
    ∃ t u, exec .fold s = .next t ∧ engineStep t = .next u
      ∧ u.regs = { s.regs with
          sum := s.regs.sumIn, carry := 0, result := fold s.regs.sumIn,
          status := { busy := false, done := true, ovf := false, drop := s.regs.status.drop, err := none } }
      ∧ u.eng.op = none ∧ SameOutsideRun 0 s u ∧ ∀ a, u.mem.read a = s.mem.read a

/-- CSUM.SCALAR on a readable buffer: after its beats and the completion SUM is the exact sum modulo 2^32,
OVF says that the exact sum reached 2^32, and without that RESULT is the reference checksum
(R87, R91). The engine takes the turns in between, by the schedule or by the default order (log 3). -/
def Obligations.ScalarCommandResult : Prop :=
  ∀ s : State, s.busy = false → s.engineTurnsNext (beats .scalar s.regs.len.toNat + 1) →
    s.regs.src.toNat + s.regs.len.toNat ≤ 2 ^ 32 →
    s.readableBuffer s.regs.src.toNat s.regs.len.toNat →
    let x := exactSum s.mem s.regs.src.toNat s.regs.len.toNat
    ∃ t u, exec .scalar s = .next t
      ∧ Host.Core.run Sys2Proof.core (beats .scalar s.regs.len.toNat + 1) t = .next u
      ∧ u.regs = { s.regs with
          sum := BitVec.ofNat 32 x, carry := 0, result := fold (BitVec.ofNat 32 x),
          status := { busy := false, done := true, ovf := decide (2 ^ 32 ≤ x),
                      drop := s.regs.status.drop, err := none } }
      ∧ (x < 2 ^ 32 → u.regs.result = rfc s.mem s.regs.src.toNat s.regs.len.toNat)
      ∧ u.eng.op = none ∧ SameOutsideRun (beats .scalar s.regs.len.toNat + 1) s u ∧ ∀ a, u.mem.read a = s.mem.read a

/-- CSUM.WIDE on a readable buffer of a multiple of 32 bytes: the same SUM, CARRY, RESULT and OVF as the exact
sum gives SCALAR (R103, R106). The engine takes the turns in between, by the schedule or by the default order
(log 3). -/
def Obligations.WideCommandResult : Prop :=
  ∀ s : State, s.busy = false → s.engineTurnsNext (beats .wide s.regs.len.toNat + 1) →
    s.regs.src.toNat + s.regs.len.toNat ≤ 2 ^ 32 → s.regs.len.toNat % 32 = 0 →
    s.readableBuffer s.regs.src.toNat s.regs.len.toNat →
    let x := exactSum s.mem s.regs.src.toNat s.regs.len.toNat
    ∃ t u, exec .wide s = .next t
      ∧ Host.Core.run Sys2Proof.core (beats .wide s.regs.len.toNat + 1) t = .next u
      ∧ u.regs = { s.regs with
          sum := BitVec.ofNat 32 x, carry := 0, result := fold (BitVec.ofNat 32 x),
          status := { busy := false, done := true, ovf := decide (2 ^ 32 ≤ x),
                      drop := s.regs.status.drop, err := none } }
      ∧ (x < 2 ^ 32 → u.regs.result = rfc s.mem s.regs.src.toNat s.regs.len.toNat)
      ∧ u.eng.op = none ∧ SameOutsideRun (beats .wide s.regs.len.toNat + 1) s u ∧ ∀ a, u.mem.read a = s.mem.read a

/-- CSUM.NARROW on a readable buffer of a multiple of 32 bytes. With E_i the exact sum of lane i: CARRY is the
sum of the carry counters `E_i / 2^16 mod 2^16`, SUM that plus the sum of the lanes `E_i mod 2^16`, OVF says
that some E_i reached 2^32, and without that SUM and CARRY account for the exact sum and RESULT is the
reference checksum (R108, R111, R113). The engine takes the turns in between, by the schedule or by the default
order (log 3). -/
def Obligations.NarrowCommandResult : Prop :=
  ∀ s : State, s.busy = false → s.engineTurnsNext (beats .narrow s.regs.len.toNat + 1) →
    s.regs.src.toNat + s.regs.len.toNat ≤ 2 ^ 32 → s.regs.len.toNat % 32 = 0 →
    s.readableBuffer s.regs.src.toNat s.regs.len.toNat →
    let e := fun i => laneSum s.mem s.regs.src.toNat 32 (s.regs.len.toNat / 32) i
    let lanes := ∑ i : Fin 16, e i % 2 ^ 16
    let carries := ∑ i : Fin 16, e i / 2 ^ 16 % 2 ^ 16
    ∃ t u, exec .narrow s = .next t
      ∧ Host.Core.run Sys2Proof.core (beats .narrow s.regs.len.toNat + 1) t = .next u
      ∧ u.regs = { s.regs with
          sum := BitVec.ofNat 32 (lanes + carries), carry := BitVec.ofNat 32 carries,
          result := fold (BitVec.ofNat 32 (lanes + carries)),
          status := { busy := false, done := true, ovf := decide (∃ i : Fin 16, 2 ^ 32 ≤ e i),
                      drop := s.regs.status.drop, err := none } }
      ∧ (u.regs.status.ovf = false →
          u.regs.sum.toNat + 0xFFFF * u.regs.carry.toNat
              = exactSum s.mem s.regs.src.toNat s.regs.len.toNat
          ∧ u.regs.result = rfc s.mem s.regs.src.toNat s.regs.len.toNat)
      ∧ u.eng.op = none ∧ SameOutsideRun (beats .narrow s.regs.len.toNat + 1) s u ∧ ∀ a, u.mem.read a = s.mem.read a

/-- CSUM.POPCNT on a readable buffer of a multiple of 64 bytes: OVF is 0, SUM and CARRY account for the exact
sum, and RESULT is the reference checksum, for every accepted buffer (R115, R118). The engine takes the turns in
between, by the schedule or by the default order (log 3). -/
def Obligations.PopcntCommandResult : Prop :=
  ∀ s : State, s.busy = false → s.engineTurnsNext (beats .popcnt s.regs.len.toNat + 1) →
    s.regs.src.toNat + s.regs.len.toNat ≤ 2 ^ 32 → s.regs.len.toNat % 64 = 0 →
    s.readableBuffer s.regs.src.toNat s.regs.len.toNat →
    let ea := fun i => laneSum s.mem s.regs.src.toNat 64 (s.regs.len.toNat / 64) i
    let eb := fun i => laneSum s.mem (s.regs.src.toNat + 32) 64 (s.regs.len.toNat / 64) i
    let lanes := ∑ i : Fin 16, (ea i % 2 ^ 16 + eb i % 2 ^ 16)
    let carries := ∑ i : Fin 16, (ea i / 2 ^ 16 + eb i / 2 ^ 16)
    ∃ t u, exec .popcnt s = .next t
      ∧ Host.Core.run Sys2Proof.core (beats .popcnt s.regs.len.toNat + 1) t = .next u
      ∧ u.regs = { s.regs with
          sum := BitVec.ofNat 32 (lanes + carries), carry := BitVec.ofNat 32 carries,
          result := fold (BitVec.ofNat 32 (lanes + carries)),
          status := { busy := false, done := true, ovf := false,
                      drop := s.regs.status.drop, err := none } }
      ∧ u.regs.sum.toNat + 0xFFFF * u.regs.carry.toNat
          = exactSum s.mem s.regs.src.toNat s.regs.len.toNat
      ∧ u.regs.result = rfc s.mem s.regs.src.toNat s.regs.len.toNat
      ∧ u.eng.op = none ∧ SameOutsideRun (beats .popcnt s.regs.len.toNat + 1) s u ∧ ∀ a, u.mem.read a = s.mem.read a

/-- An accepted command takes exactly its beats and one completion step of the engine: busy up to there, done
after it and never earlier (R70, R140), when the engine takes the turns in between, by the schedule or by the
default order (log 3). -/
def Obligations.CommandTakesItsBeats : Prop :=
  ∀ (i : Instr) (s : State), s.busy = false → s.engineTurnsNext (beats i s.regs.len.toNat + 1) →
    validate (encode i) s.regs.src s.regs.len = none →
    (i ≠ .fold → s.readableBuffer s.regs.src.toNat s.regs.len.toNat) →
    ∃ t u, exec i s = .next t
      ∧ (∀ k, k ≤ beats i s.regs.len.toNat →
          ∃ v, Host.Core.run Sys2Proof.core k t = .next v ∧ State.busy v = true)
      ∧ Host.Core.run Sys2Proof.core (beats i s.regs.len.toNat + 1) t = .next u
      ∧ State.busy u = false ∧ (State.regs u).status.done = true

/-- What OVF = 0 guarantees: each of the four strategies then leaves the reference checksum in RESULT
(R86), when the engine takes the turns in between, by the schedule or by the default order (log 3). -/
def Obligations.NoLossGivesReferenceChecksum : Prop :=
  ∀ (i : Instr) (s : State), i ≠ .fold → s.busy = false →
    s.engineTurnsNext (beats i s.regs.len.toNat + 1) →
    validate (encode i) s.regs.src s.regs.len = none →
    s.readableBuffer s.regs.src.toNat s.regs.len.toNat →
    ∃ t u, exec i s = .next t
      ∧ Host.Core.run Sys2Proof.core (beats i s.regs.len.toNat + 1) t = .next u
      ∧ ((State.regs u).status.ovf = false →
          (State.regs u).result = rfc s.mem s.regs.src.toNat s.regs.len.toNat)

/-- WIDE and SCALAR agree on SUM, CARRY, RESULT and OVF for every buffer WIDE accepts, also with OVF = 1
(R106), when the engine takes the turns in between, by the schedule or by the default order (log 3). -/
def Obligations.WideAgreesWithScalar : Prop :=
  ∀ s : State, s.busy = false → s.engineTurnsNext (beats .scalar s.regs.len.toNat + 1) →
    s.regs.src.toNat + s.regs.len.toNat ≤ 2 ^ 32 → s.regs.len.toNat % 32 = 0 →
    s.readableBuffer s.regs.src.toNat s.regs.len.toNat →
    ∃ t u t' u', exec .wide s = .next t ∧ exec .scalar s = .next t'
      ∧ Host.Core.run Sys2Proof.core (beats .wide s.regs.len.toNat + 1) t = .next u
      ∧ Host.Core.run Sys2Proof.core (beats .scalar s.regs.len.toNat + 1) t' = .next u'
      ∧ State.regs u = State.regs u'

/-- The result of a command depends on the bytes of its buffer as they were at acceptance, or on SUM_IN for
FOLD, and on nothing else (R73): `ts` is any order of turns of the host, the engines, other writers and resets of
other instances. Up to its beats the command is running and RESULT, SUM and CARRY keep their values; with the
engine turn after them it is complete, never earlier (R140). A run that faults has no outcome (R125); the buffer
is memory (I6, log 8). -/
def Obligations.ResultIndependentOfInterleaving : Prop :=
  ∀ (i : Instr) (s t u : State) (ts rest : List Turn), s.Inv → s.busy = false →
    validate (encode i) s.regs.src s.regs.len = none →
    (i ≠ .fold → s.quiet s.regs.src.toNat s.regs.len.toNat) →
    exec i s = .next t → s.sched = ts ++ rest → Turn.reset 0 ∉ ts →
    Host.Core.run Sys2Proof.core ts.length t = .next u →
    let n := ts.count (.engine 0)
    let r := commandResult i s.mem s.regs.src.toNat s.regs.len.toNat s.regs.sumIn
    (n ≤ beats i s.regs.len.toNat →
      State.busy u = true ∧ (State.regs u).status.done = false ∧ (State.regs u).result = s.regs.result
      ∧ (State.regs u).sum = s.regs.sum ∧ (State.regs u).carry = s.regs.carry)
    ∧ (n = beats i s.regs.len.toNat + 1 → ts.getLast? = some (.engine 0) →
      State.busy u = false ∧ (State.regs u).status.done = true ∧ (State.regs u).status.err = none
      ∧ (State.regs u).sum = r.sum ∧ (State.regs u).carry = r.carry ∧ (State.regs u).result = fold r.sum
      ∧ (State.regs u).status.ovf = r.loss)

/-! ## Invariants -/

/-- Every register and every field of E after reset (R32). The parameters of R7, memory's contents and the
agents' data at reset are the model's choices (log 2 to 8) and are not stated. -/
def Obligations.ResetValues : Prop :=
  let s := State.reset
  statusWord s.regs.status = 0x00000000#32 ∧ s.regs.src = 0 ∧ s.regs.len = 0 ∧ s.regs.sumIn = 0
  ∧ s.regs.result = 0 ∧ s.regs.sum = 0 ∧ s.regs.carry = 0 ∧ regRead 0x00 s = 0
  ∧ s.eng.op = none ∧ s.eng.src = 0 ∧ s.eng.len = 0 ∧ s.eng.sumIn = 0 ∧ s.eng.pos = 0 ∧ s.eng.acc = 0
  ∧ (∀ i : Fin 8, s.eng.v[i] = 0)
  ∧ (∀ i : Fin 16, s.eng.a[i] = 0 ∧ s.eng.b[i] = 0 ∧ s.eng.c[i] = 0)
  ∧ s.eng.t = 0 ∧ s.eng.ovf = false

/-- The invariants hold at reset. -/
def Obligations.ResetMeetsInvariants : Prop :=
  State.reset.Inv ∧ State.reset.DataInv

/-- Every step keeps the control invariant: BUSY = 1 exactly while the engine holds a command, BUSY implies
DONE = 0 and ERR = 0, the engine stays inside a buffer that does not wrap, memory keeps its canonical form,
the windows stay distinct (R17, R29, R43). -/
def Obligations.StepKeepsControlInvariant : Prop :=
  ∀ s t : State, s.Inv → step s = .next t → t.Inv

/-- Every step keeps the data invariant, whatever the interleaving of host, engines, other writers and resets:
the accumulators of every running command are exactly the partial sums of its buffer (R46, R73, R91, R106,
R111, R118). -/
def Obligations.StepKeepsPartialSums : Prop :=
  ∀ s t : State, s.Inv → s.DataInv → step s = .next t → t.DataInv

/-- A completion, whatever happened since acceptance: RESULT is the fold of SUM, and without loss it is the
reference checksum of the buffer (R73, R86). -/
def Obligations.CompletionGivesReferenceChecksum : Prop :=
  ∀ (s t : State) (i : Instr), s.Inv → s.DataInv → s.eng.op = some i → i ≠ .fold →
    s.eng.pos = s.eng.len.toNat → s.quiet s.eng.src.toNat s.eng.len.toNat → engineStep s = .next t →
    t.regs.result = fold t.regs.sum
    ∧ (t.regs.status.ovf = false → t.regs.result = rfc s.mem s.eng.src.toNat s.eng.len.toNat)

/-! ## Rules of the whole machine -/

/-- A reset of an instance, also while it runs a command: every register and field of E takes its reset value
and the block is idle; memory stays, since the engine never writes it (R137). That a reset is a turn of one
instance, and leaves the other instances and the host's program alone, is the model's reading (log 18). -/
def Obligations.ResetAbandonsCommand : Prop :=
  (∀ (s : State) (rest : List Turn), s.sched = .reset 0 :: rest →
    ∃ t, step s = .next t ∧ t.blk = State.reset.blk ∧ t.busy = false ∧ t.regs.result = 0
      ∧ t.regs.sum = 0 ∧ t.regs.carry = 0 ∧ SameOutsideBlock (s.withSched rest) t
      ∧ ∀ a, t.mem.read a = s.mem.read a)
  ∧ ∀ (s : State) (rest : List Turn) (k : Nat) (o : Slot), s.sched = .reset (k + 1) :: rest →
    s.others[k]? = some o →
    step s = .next { s.withSched rest with others := s.others.set k ⟨o.base, State.reset.blk⟩ }

/-- No engine's turn writes memory (R35). -/
def Obligations.EngineNeverWritesMemory : Prop :=
  ∀ (s t : State) (k : Nat), takeTurn (.engine k) s = .next t →
    t.mem = s.mem ∧ ∀ a, t.mem.read a = s.mem.read a

/-- RESULT, SUM and CARRY change only by a completion or a reset of the instance: between
acceptance and completion they keep their values (R72). -/
def Obligations.ResultsChangeOnlyAtCompletion : Prop :=
  ∀ s t : State, step s = .next t →
    (t.regs.result ≠ s.regs.result ∨ t.regs.sum ≠ s.regs.sum ∨ t.regs.carry ≠ s.regs.carry) →
    nextTurn s = .reset 0
      ∨ (nextTurn s = .engine 0 ∧ s.busy = true ∧ s.eng.len.toNat ≤ s.eng.pos ∧ t.busy = false)

/-- BUSY is set only by a host's CMD write of a defined word to the idle block, and cleared only by completion
or reset (R30). -/
def Obligations.BusyChangesOnlyByCommandCompletionReset : Prop :=
  ∀ s t : State, step s = .next t →
    (s.busy = false → t.busy = true →
      nextTurn s = .host ∧ ∃ w p i, s.program = .wr 32 s.base w :: p ∧ decodeWord w = .instr i)
    ∧ (s.busy = true → t.busy = false →
      nextTurn s = .reset 0 ∨ (nextTurn s = .engine 0 ∧ s.eng.len.toNat ≤ s.eng.pos))

/-- DROP is sticky: it is cleared only by a host's write of a 1 to bit 3 of STATUS, or by a reset
(R17, R30). -/
def Obligations.DropIsSticky : Prop :=
  ∀ s t : State, step s = .next t → s.regs.status.drop = true → t.regs.status.drop = false →
    nextTurn s = .reset 0
      ∨ (nextTurn s = .host ∧ ∃ v p, s.program = .wr 32 (s.base + 0x04) v :: p ∧ v.getLsbD 3 = true)

/-- DONE, OVF and ERR change only by their events (R30, R129). DONE is set by a completion or a rejection and
cleared by an acceptance, a write of a 1 to bit 1 of STATUS, or a reset. OVF changes by a completion, and else is
only cleared, by a CMD write to the idle block or a reset. ERR changes by a rejection, which writes a code, by an
acceptance, which clears it, or by a reset. -/
def Obligations.DoneOvfErrChangeOnlyByTheirEvents : Prop :=
  ∀ s t : State, step s = .next t →
    let rejects := ∃ w, s.hostWrites 0x00 w ∧ s.busy = false ∧ t.busy = false ∧ t.regs.status.err.isSome = true
    let accepts := ∃ w, s.hostWrites 0x00 w ∧ s.busy = false ∧ t.busy = true ∧ t.regs.status.err = none
    (s.regs.status.done = false → t.regs.status.done = true → s.completesNext ∨ rejects)
    ∧ (s.regs.status.done = true → t.regs.status.done = false →
        nextTurn s = .reset 0 ∨ accepts ∨ ∃ v, s.hostWrites 0x04 v ∧ v.getLsbD 1 = true)
    ∧ (t.regs.status.ovf ≠ s.regs.status.ovf →
        s.completesNext ∨ t.regs.status.ovf = false ∧ (nextTurn s = .reset 0 ∨ rejects ∨ accepts))
    ∧ (t.regs.status.err ≠ s.regs.status.err → nextTurn s = .reset 0 ∨ rejects ∨ accepts)

/-- SRC, LEN and SUM_IN change only by the host's write to them, and then hold the value written, or by a reset
(R25). -/
def Obligations.HostRegistersWrittenByHostOnly : Prop :=
  ∀ s t : State, step s = .next t →
    (t.regs.src ≠ s.regs.src → nextTurn s = .reset 0 ∨ s.hostWrites 0x08 t.regs.src)
    ∧ (t.regs.len ≠ s.regs.len → nextTurn s = .reset 0 ∨ s.hostWrites 0x0C t.regs.len)
    ∧ (t.regs.sumIn ≠ s.regs.sumIn → nextTurn s = .reset 0 ∨ s.hostWrites 0x10 t.regs.sumIn)

/-- Writing into the buffer of a running command is the fault BufferWrittenWhileBusy, by the host and by any
other writer; a write elsewhere and a register write while busy are free, and the latter leaves the engine alone
(R142, R125). A free write stores its bytes little-endian (R10, R37) and no others. Whose turn it is is R140's, and
an n-byte store landing in one step is the model's choice (log 16). -/
def Obligations.BufferWriteWhileBusyFaults : Prop :=
  (∀ (s : State) (addr n v : Nat), s.mem.wf = true → addr + n ≤ 2 ^ 32 →
    ((∃ a, addr ≤ a ∧ a < addr + n ∧ s.bufferHolds a = true) →
      ∃ a, addr ≤ a ∧ a < addr + n ∧ s.bufferHolds a = true
        ∧ memWrite addr n v s = .fault (.bufferWrittenWhileBusy a))
    ∧ ((∀ a, addr ≤ a → a < addr + n → s.bufferHolds a = false) →
      ∃ t, memWrite addr n v s = .next t ∧ t = s.withMem t.mem
        ∧ (∀ j, j < n → t.mem.read (addr + j) = BitVec.ofNat 8 (v / 256 ^ j))
        ∧ ∀ a, a < addr ∨ addr + n ≤ a → t.mem.read a = s.mem.read a))
  ∧ (∀ (s : State) (rest : List Turn) (p : List HostOp) (addr n v : Nat),
    s.sched = .host :: rest → s.program = .store addr n v :: p →
    step s = memWrite addr n v (((s.withSched rest).withProgram p).note (.memWrite addr n v)))
  ∧ (∀ (s : State) (rest : List Turn) (w : MemWrite) (ws : List MemWrite),
    s.sched = .writer :: rest → s.writers = w :: ws →
    step s = memWrite w.addr w.n w.v ((s.withSched rest).withWriters ws))
  ∧ ∀ (s : State) (off : Nat) (v : Word), s.busy = true → off = 0x08 ∨ off = 0x0C ∨ off = 0x10 →
    ∃ t, regWrite off v s = .next t ∧ t.eng = s.eng ∧ t.regs.status = s.regs.status

/-- Instances share no state (R33, R134). A turn or reset of another instance, and a host's register write to its
window, leave the block in focus and every third instance as they were, and the other instance its base; a turn,
reset or register write of the one in focus leaves the others; reads and polls change no block; an engine turn of
any instance is that instance's engine step, with the focus put back, whether it goes on or faults (R140); and what
an engine does to its block does not depend on the other instances. That a reset is one instance's turn is the
model's reading (log 18). -/
def Obligations.InstancesShareNothing : Prop :=
  (∀ (s t : State) (k : Nat),
    (takeTurn (.engine (k + 1)) s = .next t ∨ takeTurn (.reset (k + 1)) s = .next t
      ∨ takeTurn .host s = .next t ∧ ∃ width addr v p, s.program = .wr width addr v :: p
          ∧ s.instanceAt addr = some (k + 1)) →
    t.blk = s.blk ∧ t.base = s.base ∧ t.mem = s.mem ∧ (∀ j, j ≠ k → t.others[j]? = s.others[j]?)
      ∧ t.others.map (·.base) = s.others.map (·.base))
  ∧ (∀ s t : State,
    (takeTurn (.engine 0) s = .next t ∨ takeTurn (.reset 0) s = .next t
      ∨ takeTurn .host s = .next t ∧ ∃ width addr v p, s.program = .wr width addr v :: p
          ∧ s.instanceAt addr = some 0) →
    t.others = s.others)
  ∧ (∀ s t : State, takeTurn .host s = .next t →
    (∃ width addr p, s.program = .rd width addr :: p) ∨ (∃ addr mask val p, s.program = .poll addr mask val :: p) →
    t.blk = s.blk ∧ t.others = s.others)
  ∧ (∀ (s : State) (k : Nat), nextTurn s = .engine k → s.hasInstance k = true →
    step s = outcomeMap (fun t => t.focus k) (engineStep ((s.withSched s.sched.tail).focus k)))
  ∧ (∀ (s : State) (rest : List Turn) (k : Nat) (o : Slot), s.sched = .engine (k + 1) :: rest →
    s.others[k]? = some o → nextTurn s = .engine (k + 1) ∧ s.hasInstance (k + 1) = true
      ∧ ((s.withSched rest).focus (k + 1)).blk = o.blk)
  ∧ ∀ (s t : State) (others : List Slot), engineStep s = .next t →
    ∃ u, engineStep { s with others := others } = .next u ∧ u.blk = t.blk ∧ u.mem = t.mem
end

