-- ==== Sys2Proof/Laws/State.lean ====
section
/-! SUPPORT. One lemma per field per update of State, so that no later proof unfolds a record update; and the
same for STATUS updates of the block in focus. -/

namespace Sys2Proof.Machine

/-! ### `State.withBlk` -/

@[simp] theorem State.withBlk_blk (s : State) (b : Block) : (s.withBlk b).blk = b := rfl
@[simp] theorem State.withBlk_base (s : State) (b : Block) : (s.withBlk b).base = s.base := rfl
@[simp] theorem State.withBlk_others (s : State) (b : Block) : (s.withBlk b).others = s.others := rfl
@[simp] theorem State.withBlk_mem (s : State) (b : Block) : (s.withBlk b).mem = s.mem := rfl
@[simp] theorem State.withBlk_readable (s : State) (b : Block) : (s.withBlk b).readable = s.readable := rfl
@[simp] theorem State.withBlk_volatileRegions (s : State) (b : Block) : (s.withBlk b).volatileRegions = s.volatileRegions := rfl
@[simp] theorem State.withBlk_program (s : State) (b : Block) : (s.withBlk b).program = s.program := rfl
@[simp] theorem State.withBlk_writers (s : State) (b : Block) : (s.withBlk b).writers = s.writers := rfl
@[simp] theorem State.withBlk_sched (s : State) (b : Block) : (s.withBlk b).sched = s.sched := rfl
@[simp] theorem State.withBlk_trace (s : State) (b : Block) : (s.withBlk b).trace = s.trace := rfl
@[simp] theorem State.withBlk_freeCount (s : State) (b : Block) : (s.withBlk b).freeCount = s.freeCount := rfl

/-! ### `State.withMem` -/

@[simp] theorem State.withMem_blk (s : State) (m : Memory) : (s.withMem m).blk = s.blk := rfl
@[simp] theorem State.withMem_base (s : State) (m : Memory) : (s.withMem m).base = s.base := rfl
@[simp] theorem State.withMem_others (s : State) (m : Memory) : (s.withMem m).others = s.others := rfl
@[simp] theorem State.withMem_mem (s : State) (m : Memory) : (s.withMem m).mem = m := rfl
@[simp] theorem State.withMem_readable (s : State) (m : Memory) : (s.withMem m).readable = s.readable := rfl
@[simp] theorem State.withMem_volatileRegions (s : State) (m : Memory) : (s.withMem m).volatileRegions = s.volatileRegions := rfl
@[simp] theorem State.withMem_program (s : State) (m : Memory) : (s.withMem m).program = s.program := rfl
@[simp] theorem State.withMem_writers (s : State) (m : Memory) : (s.withMem m).writers = s.writers := rfl
@[simp] theorem State.withMem_sched (s : State) (m : Memory) : (s.withMem m).sched = s.sched := rfl
@[simp] theorem State.withMem_trace (s : State) (m : Memory) : (s.withMem m).trace = s.trace := rfl
@[simp] theorem State.withMem_freeCount (s : State) (m : Memory) : (s.withMem m).freeCount = s.freeCount := rfl

/-! ### `State.withProgram` -/

@[simp] theorem State.withProgram_blk (s : State) (p : List HostOp) : (s.withProgram p).blk = s.blk := rfl
@[simp] theorem State.withProgram_base (s : State) (p : List HostOp) : (s.withProgram p).base = s.base := rfl
@[simp] theorem State.withProgram_others (s : State) (p : List HostOp) : (s.withProgram p).others = s.others := rfl
@[simp] theorem State.withProgram_mem (s : State) (p : List HostOp) : (s.withProgram p).mem = s.mem := rfl
@[simp] theorem State.withProgram_readable (s : State) (p : List HostOp) : (s.withProgram p).readable = s.readable := rfl
@[simp] theorem State.withProgram_volatileRegions (s : State) (p : List HostOp) : (s.withProgram p).volatileRegions = s.volatileRegions := rfl
@[simp] theorem State.withProgram_program (s : State) (p : List HostOp) : (s.withProgram p).program = p := rfl
@[simp] theorem State.withProgram_writers (s : State) (p : List HostOp) : (s.withProgram p).writers = s.writers := rfl
@[simp] theorem State.withProgram_sched (s : State) (p : List HostOp) : (s.withProgram p).sched = s.sched := rfl
@[simp] theorem State.withProgram_trace (s : State) (p : List HostOp) : (s.withProgram p).trace = s.trace := rfl
@[simp] theorem State.withProgram_freeCount (s : State) (p : List HostOp) : (s.withProgram p).freeCount = s.freeCount := rfl

/-! ### `State.withWriters` -/

@[simp] theorem State.withWriters_blk (s : State) (ws : List MemWrite) : (s.withWriters ws).blk = s.blk := rfl
@[simp] theorem State.withWriters_base (s : State) (ws : List MemWrite) : (s.withWriters ws).base = s.base := rfl
@[simp] theorem State.withWriters_others (s : State) (ws : List MemWrite) : (s.withWriters ws).others = s.others := rfl
@[simp] theorem State.withWriters_mem (s : State) (ws : List MemWrite) : (s.withWriters ws).mem = s.mem := rfl
@[simp] theorem State.withWriters_readable (s : State) (ws : List MemWrite) : (s.withWriters ws).readable = s.readable := rfl
@[simp] theorem State.withWriters_volatileRegions (s : State) (ws : List MemWrite) : (s.withWriters ws).volatileRegions = s.volatileRegions := rfl
@[simp] theorem State.withWriters_program (s : State) (ws : List MemWrite) : (s.withWriters ws).program = s.program := rfl
@[simp] theorem State.withWriters_writers (s : State) (ws : List MemWrite) : (s.withWriters ws).writers = ws := rfl
@[simp] theorem State.withWriters_sched (s : State) (ws : List MemWrite) : (s.withWriters ws).sched = s.sched := rfl
@[simp] theorem State.withWriters_trace (s : State) (ws : List MemWrite) : (s.withWriters ws).trace = s.trace := rfl
@[simp] theorem State.withWriters_freeCount (s : State) (ws : List MemWrite) : (s.withWriters ws).freeCount = s.freeCount := rfl

/-! ### `State.withSched` -/

@[simp] theorem State.withSched_blk (s : State) (ts : List Turn) : (s.withSched ts).blk = s.blk := rfl
@[simp] theorem State.withSched_base (s : State) (ts : List Turn) : (s.withSched ts).base = s.base := rfl
@[simp] theorem State.withSched_others (s : State) (ts : List Turn) : (s.withSched ts).others = s.others := rfl
@[simp] theorem State.withSched_mem (s : State) (ts : List Turn) : (s.withSched ts).mem = s.mem := rfl
@[simp] theorem State.withSched_readable (s : State) (ts : List Turn) : (s.withSched ts).readable = s.readable := rfl
@[simp] theorem State.withSched_volatileRegions (s : State) (ts : List Turn) : (s.withSched ts).volatileRegions = s.volatileRegions := rfl
@[simp] theorem State.withSched_program (s : State) (ts : List Turn) : (s.withSched ts).program = s.program := rfl
@[simp] theorem State.withSched_writers (s : State) (ts : List Turn) : (s.withSched ts).writers = s.writers := rfl
@[simp] theorem State.withSched_sched (s : State) (ts : List Turn) : (s.withSched ts).sched = ts := rfl
@[simp] theorem State.withSched_trace (s : State) (ts : List Turn) : (s.withSched ts).trace = s.trace := rfl
@[simp] theorem State.withSched_freeCount (s : State) (ts : List Turn) : (s.withSched ts).freeCount = s.freeCount := rfl

/-! ### `State.note` -/

@[simp] theorem State.note_blk (s : State) (x : Transaction) : (s.note x).blk = s.blk := rfl
@[simp] theorem State.note_base (s : State) (x : Transaction) : (s.note x).base = s.base := rfl
@[simp] theorem State.note_others (s : State) (x : Transaction) : (s.note x).others = s.others := rfl
@[simp] theorem State.note_mem (s : State) (x : Transaction) : (s.note x).mem = s.mem := rfl
@[simp] theorem State.note_readable (s : State) (x : Transaction) : (s.note x).readable = s.readable := rfl
@[simp] theorem State.note_volatileRegions (s : State) (x : Transaction) : (s.note x).volatileRegions = s.volatileRegions := rfl
@[simp] theorem State.note_program (s : State) (x : Transaction) : (s.note x).program = s.program := rfl
@[simp] theorem State.note_writers (s : State) (x : Transaction) : (s.note x).writers = s.writers := rfl
@[simp] theorem State.note_sched (s : State) (x : Transaction) : (s.note x).sched = s.sched := rfl
@[simp] theorem State.note_trace (s : State) (x : Transaction) : (s.note x).trace = x :: s.trace := rfl
@[simp] theorem State.note_freeCount (s : State) (x : Transaction) : (s.note x).freeCount = s.freeCount := rfl

/-! ### `State.tick` -/

@[simp] theorem State.tick_blk (s : State) : s.tick.blk = s.blk := rfl
@[simp] theorem State.tick_base (s : State) : s.tick.base = s.base := rfl
@[simp] theorem State.tick_others (s : State) : s.tick.others = s.others := rfl
@[simp] theorem State.tick_mem (s : State) : s.tick.mem = s.mem := rfl
@[simp] theorem State.tick_readable (s : State) : s.tick.readable = s.readable := rfl
@[simp] theorem State.tick_volatileRegions (s : State) : s.tick.volatileRegions = s.volatileRegions := rfl
@[simp] theorem State.tick_program (s : State) : s.tick.program = s.program := rfl
@[simp] theorem State.tick_writers (s : State) : s.tick.writers = s.writers := rfl
@[simp] theorem State.tick_sched (s : State) : s.tick.sched = s.sched := rfl
@[simp] theorem State.tick_trace (s : State) : s.tick.trace = s.trace := rfl
@[simp] theorem State.tick_freeCount (s : State) : s.tick.freeCount = s.freeCount + 1 := rfl

/-! ### The block in focus seen through its parts -/

@[simp] theorem State.withBlk_regs (s : State) (b : Block) : (s.withBlk b).regs = b.regs := rfl
@[simp] theorem State.withBlk_eng (s : State) (b : Block) : (s.withBlk b).eng = b.eng := rfl
@[simp] theorem State.withBlk_busy (s : State) (b : Block) : (s.withBlk b).busy = b.regs.status.busy := rfl
@[simp] theorem State.withMem_regs (s : State) (m : Memory) : (s.withMem m).regs = s.regs := rfl
@[simp] theorem State.withMem_eng (s : State) (m : Memory) : (s.withMem m).eng = s.eng := rfl
@[simp] theorem State.withMem_busy (s : State) (m : Memory) : (s.withMem m).busy = s.busy := rfl
@[simp] theorem State.withProgram_regs (s : State) (p : List HostOp) : (s.withProgram p).regs = s.regs := rfl
@[simp] theorem State.withProgram_eng (s : State) (p : List HostOp) : (s.withProgram p).eng = s.eng := rfl
@[simp] theorem State.withProgram_busy (s : State) (p : List HostOp) : (s.withProgram p).busy = s.busy := rfl
@[simp] theorem State.withWriters_regs (s : State) (ws : List MemWrite) : (s.withWriters ws).regs = s.regs := rfl
@[simp] theorem State.withWriters_eng (s : State) (ws : List MemWrite) : (s.withWriters ws).eng = s.eng := rfl
@[simp] theorem State.withWriters_busy (s : State) (ws : List MemWrite) : (s.withWriters ws).busy = s.busy := rfl
@[simp] theorem State.withSched_regs (s : State) (ts : List Turn) : (s.withSched ts).regs = s.regs := rfl
@[simp] theorem State.withSched_eng (s : State) (ts : List Turn) : (s.withSched ts).eng = s.eng := rfl
@[simp] theorem State.withSched_busy (s : State) (ts : List Turn) : (s.withSched ts).busy = s.busy := rfl
@[simp] theorem State.note_regs (s : State) (x : Transaction) : (s.note x).regs = s.regs := rfl
@[simp] theorem State.note_eng (s : State) (x : Transaction) : (s.note x).eng = s.eng := rfl
@[simp] theorem State.note_busy (s : State) (x : Transaction) : (s.note x).busy = s.busy := rfl
@[simp] theorem State.tick_regs (s : State) : s.tick.regs = s.regs := rfl
@[simp] theorem State.tick_eng (s : State) : s.tick.eng = s.eng := rfl
@[simp] theorem State.tick_busy (s : State) : s.tick.busy = s.busy := rfl
@[simp] theorem State.withStatus_busy (s : State) (st : Status) : (s.withStatus st).busy = st.busy := rfl

/-! ### `State.withStatus` -/

@[simp] theorem State.withStatus_status (s : State) (st : Status) :
    (s.withStatus st).blk.regs.status = st := rfl
@[simp] theorem State.withStatus_eng (s : State) (st : Status) : (s.withStatus st).blk.eng = s.blk.eng := rfl
@[simp] theorem State.withStatus_src (s : State) (st : Status) :
    (s.withStatus st).blk.regs.src = s.blk.regs.src := rfl
@[simp] theorem State.withStatus_len (s : State) (st : Status) :
    (s.withStatus st).blk.regs.len = s.blk.regs.len := rfl
@[simp] theorem State.withStatus_sumIn (s : State) (st : Status) :
    (s.withStatus st).blk.regs.sumIn = s.blk.regs.sumIn := rfl
@[simp] theorem State.withStatus_result (s : State) (st : Status) :
    (s.withStatus st).blk.regs.result = s.blk.regs.result := rfl
@[simp] theorem State.withStatus_sum (s : State) (st : Status) :
    (s.withStatus st).blk.regs.sum = s.blk.regs.sum := rfl
@[simp] theorem State.withStatus_carry (s : State) (st : Status) :
    (s.withStatus st).blk.regs.carry = s.blk.regs.carry := rfl
@[simp] theorem State.withStatus_base (s : State) (st : Status) : (s.withStatus st).base = s.base := rfl
@[simp] theorem State.withStatus_others (s : State) (st : Status) : (s.withStatus st).others = s.others := rfl
@[simp] theorem State.withStatus_mem (s : State) (st : Status) : (s.withStatus st).mem = s.mem := rfl
@[simp] theorem State.withStatus_readable (s : State) (st : Status) : (s.withStatus st).readable = s.readable := rfl
@[simp] theorem State.withStatus_volatileRegions (s : State) (st : Status) : (s.withStatus st).volatileRegions = s.volatileRegions := rfl
@[simp] theorem State.withStatus_program (s : State) (st : Status) : (s.withStatus st).program = s.program := rfl
@[simp] theorem State.withStatus_writers (s : State) (st : Status) : (s.withStatus st).writers = s.writers := rfl
@[simp] theorem State.withStatus_sched (s : State) (st : Status) : (s.withStatus st).sched = s.sched := rfl
@[simp] theorem State.withStatus_trace (s : State) (st : Status) : (s.withStatus st).trace = s.trace := rfl
@[simp] theorem State.withStatus_freeCount (s : State) (st : Status) : (s.withStatus st).freeCount = s.freeCount := rfl

/-- Putting the block in focus back changes nothing. -/
@[simp] theorem State.withBlk_self (s : State) : s.withBlk s.blk = s := rfl

/-- Only the last block put in focus counts. -/
@[simp] theorem State.withBlk_withBlk (s : State) (b c : Block) : (s.withBlk b).withBlk c = s.withBlk c := rfl

end Sys2Proof.Machine
end

