-- ==== Sys2Proof/Laws/Memory.lean ====
section
/-! SUPPORT. Memory: read after write, and the canonical form is kept by every memory operation. -/

namespace Sys2Proof.Machine

/-- A byte reads as what was last written to it, and writing leaves every other byte alone. -/
theorem Memory.read_write (m : Memory) (hm : m.Pairwise fun x y => x.1 < y.1) (a a' : Nat) (u : Byte) :
    (m.write a u).read a' = if a' = a then u else m.read a' := by
  induction m with
  | nil => by_cases hu : u = Memory.unlisted <;> by_cases ha : a' = a <;>
      simp_all [Memory.write, Memory.read, eq_comm]
  | cons c m ih =>
    obtain ⟨b, w⟩ := c
    have hm' := List.pairwise_cons.1 hm
    have above : ∀ x, x ≤ b → Memory.read m x = Memory.unlisted := by
      intro x hx
      clear ih hm
      obtain ⟨hb, -⟩ := hm'
      induction m with
      | nil => rfl
      | cons d m ihm =>
        have hd := hb d (by simp)
        rw [Memory.read, if_neg (by omega)]
        exact ihm fun y hy => hb y (by simp [hy])
    rw [Memory.write]
    split
    · split <;> rename_i h1 h2
      · by_cases ha : a' = a
        · subst ha; rw [if_pos rfl, Memory.read, if_neg (by omega), above _ (by omega), h2]
        · rw [if_neg ha]
      · rw [Memory.read]
        by_cases ha : a' = a
        · rw [if_pos ha, if_pos ha.symm]
        · rw [if_neg ha, if_neg (Ne.symm ha)]
    · split
      · rename_i h1 h2
        subst h2
        split <;> rename_i h3
        · by_cases ha : a' = a
          · rw [if_pos ha, above _ (by omega), h3]
          · rw [if_neg ha, Memory.read, if_neg (Ne.symm ha)]
        · rw [Memory.read]
          by_cases ha : a' = a
          · rw [if_pos ha, if_pos ha.symm]
          · rw [if_neg ha, if_neg (Ne.symm ha), Memory.read, if_neg (Ne.symm ha)]
      · rename_i h1 h2
        rw [Memory.read, Memory.read, ih hm'.2]
        by_cases hb : b = a'
        · rw [if_pos hb, if_neg (by omega), if_pos hb]
        · rw [if_neg hb, if_neg hb]

/-- Every cell of a memory after a write was there before or is the written one. -/
theorem Memory.mem_write (m : Memory) (a : Nat) (u : Byte) (c : Host.Cell) (hc : c ∈ m.write a u) :
    c ∈ m ∨ c = (a, u) ∧ u ≠ Memory.unlisted := by
  induction m with
  | nil =>
    rw [Memory.write] at hc
    split at hc
    · simp at hc
    · right; exact ⟨by simpa using hc, by assumption⟩
  | cons d m ih =>
    obtain ⟨b, w⟩ := d
    rw [Memory.write] at hc
    split at hc
    · split at hc
      · exact .inl hc
      · rcases List.mem_cons.1 hc with h | h
        · exact .inr ⟨h, by assumption⟩
        · exact .inl h
    · split at hc
      · split at hc
        · exact .inl (List.mem_cons_of_mem _ hc)
        · rcases List.mem_cons.1 hc with h | h
          · exact .inr ⟨h, by assumption⟩
          · exact .inl (List.mem_cons_of_mem _ h)
      · rcases List.mem_cons.1 hc with h | h
        · exact .inl (by simp [h])
        · exact (ih h).imp_left (List.mem_cons_of_mem _)

/-- A write keeps the addresses strictly rising. -/
theorem Memory.pairwise_write (m : Memory) (hm : m.Pairwise fun x y => x.1 < y.1) (a : Nat) (u : Byte) :
    (m.write a u).Pairwise fun x y => x.1 < y.1 := by
  induction m with
  | nil => rw [Memory.write]; split <;> simp
  | cons d m ih =>
    obtain ⟨b, w⟩ := d
    have hm' := List.pairwise_cons.1 hm
    rw [Memory.write]
    split
    · split
      · exact hm
      · refine List.pairwise_cons.2 ⟨fun y hy => ?_, hm⟩
        rcases List.mem_cons.1 hy with h | h
        · subst h; assumption
        · have := hm'.1 y h; simp only at this ⊢; omega
    · split
      · rename_i h2
        subst h2
        split
        · exact hm'.2
        · exact List.pairwise_cons.2 ⟨hm'.1, hm'.2⟩
      · refine List.pairwise_cons.2 ⟨fun y hy => ?_, ih hm'.2⟩
        rcases Memory.mem_write m a u y hy with h | ⟨h, -⟩
        · exact hm'.1 y h
        · subst h; simp only; omega

/-- What the canonical form says. -/
theorem Memory.wf_iff (m : Memory) : m.wf = true ↔ (m.Pairwise fun x y => x.1 < y.1)
    ∧ ∀ c ∈ m, c.2 ≠ Memory.unlisted ∧ c.1 < Config.addressSpace := by
  simp [Memory.wf]

/-- A write inside the buffer space keeps the canonical form. -/
theorem Memory.wf_write (m : Memory) (hm : m.wf = true) (a : Nat) (ha : a < Config.addressSpace) (u : Byte) :
    (m.write a u).wf = true := by
  rw [Memory.wf_iff] at hm ⊢
  refine ⟨Memory.pairwise_write m hm.1 a u, fun c hc => ?_⟩
  rcases Memory.mem_write m a u c hc with h | ⟨h, hu⟩
  · exact hm.2 c h
  · subst h; exact ⟨hu, ha⟩

/-- A write of several bytes inside the buffer space keeps the canonical form. -/
theorem Memory.wf_writeBytes (m : Memory) (hm : m.wf = true) (addr n v : Nat)
    (h : addr + n ≤ Config.addressSpace) : (m.writeBytes addr n v).wf = true := by
  induction n generalizing m addr v with
  | zero => exact hm
  | succ n ih => exact ih _ (Memory.wf_write m hm addr (by omega) _) _ _ (by omega)

/-- Several bytes written: each reads as its byte of the value, every other byte as before. -/
theorem Memory.read_writeBytes (m : Memory) (hm : m.wf = true) (addr n v : Nat)
    (h : addr + n ≤ Config.addressSpace) (a : Nat) :
    (m.writeBytes addr n v).read a
      = if addr ≤ a ∧ a < addr + n then byteOf v (a - addr) else m.read a := by
  induction n generalizing m addr v with
  | zero => rw [Memory.writeBytes, if_neg (by omega)]
  | succ n ih =>
    rw [Memory.writeBytes, ih _ (Memory.wf_write m hm addr (by omega) _) _ _ (by omega),
      Memory.read_write m ((Memory.wf_iff m).1 hm).1]
    by_cases h1 : a = addr
    · subst h1
      rw [if_neg (by omega), if_pos rfl, if_pos (by omega), Nat.sub_self]
    · rw [if_neg h1]
      by_cases h2 : addr + 1 ≤ a ∧ a < addr + 1 + n
      · rw [if_pos h2, if_pos (by omega), byteOf, byteOf, Nat.div_div_eq_div_mul]
        congr 2
        rw [show a - addr = (a - (addr + 1)) + 1 by omega, Nat.pow_succ, Nat.mul_comm]
      · rw [if_neg h2, if_neg (by omega)]

/-- Reset memory has the canonical form. -/
theorem State.reset_mem_wf : State.reset.mem.wf = true := by decide

/-! ### What a memory write by an agent can do -/

/-- `firstAddr` finds an address in its range that has the property, or there is none. -/
theorem firstAddr_some (p : Nat → Bool) (addr n a : Nat) (h : firstAddr p addr n = some a) :
    addr ≤ a ∧ a < addr + n ∧ p a = true ∧ ∀ b, addr ≤ b → b < a → p b = false := by
  induction n generalizing addr with
  | zero => simp [firstAddr] at h
  | succ n ih =>
    rw [firstAddr] at h
    split at h
    · obtain rfl : addr = a := by simpa using h
      exact ⟨le_rfl, by omega, by assumption, fun b h1 h2 => by omega⟩
    · obtain ⟨h1, h2, h3, h4⟩ := ih _ h
      refine ⟨by omega, by omega, h3, fun b hb hba => ?_⟩
      rcases Nat.eq_or_lt_of_le hb with rfl | hlt
      · simpa using ‹¬p addr = true›
      · exact h4 b hlt hba

theorem firstAddr_eq_none_iff (p : Nat → Bool) (addr n : Nat) :
    firstAddr p addr n = none ↔ ∀ a, addr ≤ a → a < addr + n → p a = false := by
  induction n generalizing addr with
  | zero => simp [firstAddr]; omega
  | succ n ih =>
    rw [firstAddr]
    split
    · simp only [reduceCtorEq, false_iff, not_forall]
      exact ⟨addr, le_rfl, by omega, by simpa⟩
    · rw [ih]
      refine ⟨fun h a h1 h2 => ?_, fun h a h1 h2 => h a (by omega) (by omega)⟩
      rcases Nat.eq_or_lt_of_le h1 with rfl | hlt
      · simpa using ‹¬p addr = true›
      · exact h a hlt (by omega)

/-- What `memWrite` does when it goes on. -/
theorem memWrite_next (addr n v : Nat) (s t : State) (h : memWrite addr n v s = .next t) :
    addr + n ≤ Config.addressSpace ∧ (∀ a, addr ≤ a → a < addr + n → s.bufferHolds a = false)
      ∧ t = s.withMem (s.mem.writeBytes addr n v) := by
  unfold memWrite at h
  split at h
  · rename_i hin
    split at h
    · cases h
    · rename_i hn
      cases h
      exact ⟨by simpa [insideSpace] using hin, (firstAddr_eq_none_iff _ _ _).1 hn, rfl⟩
  · cases h

end Sys2Proof.Machine
end

