-- ==== Sys2Proof/Laws/Exec.lean ====
section
/-! SUPPORT. What presenting a command can do (R66 to R69), said once; what exec, a register write and the
engine step can do. -/

namespace Sys2Proof.Machine

/-- The check each command's presentation makes (R67, R123). -/
def checkOf : Instr → Word → Word → Option Reject
  | .scalar, src, len => rangeCheck src len
  | .wide, src, len => (rangeCheck src len).or (alignCheck len)
  | .narrow, src, len => (rangeCheck src len).or (alignCheck len)
  | .popcnt, src, len => ((rangeCheck src len).or (alignCheck len)).or (pairCheck len)
  | .fold, _, _ => none

/-- exec is presentation with that check. -/
theorem exec_eq_present (i : Instr) (s : State) :
    exec i s = present i (checkOf i s.regs.src s.regs.len) s := by
  cases i <;> rfl

/-- The three things presenting a command does. -/
theorem present_cases (i : Instr) (e : Option Reject) (s t : State) (h : present i e s = .next t) :
    (s.busy = true ∧ t = dropCommand s)
      ∨ (s.busy = false ∧ ∃ r, e = some r ∧ t = rejectCommand r s)
      ∨ (s.busy = false ∧ e = none ∧ t = acceptCommand i s) := by
  unfold present at h
  split at h
  · exact .inl ⟨by assumption, by cases h; rfl⟩
  · split at h
    · exact .inr (.inl ⟨by simpa using ‹¬s.busy = true›, _, rfl, by cases h; rfl⟩)
    · exact .inr (.inr ⟨by simpa using ‹¬s.busy = true›, rfl, by cases h; rfl⟩)

/-- Presenting a command always answers a next state. -/
theorem present_next (i : Instr) (e : Option Reject) (s : State) : ∃ t, present i e s = .next t := by
  unfold present
  split
  · exact ⟨_, rfl⟩
  · split <;> exact ⟨_, rfl⟩

/-- The three things exec does. -/
theorem exec_cases (i : Instr) (s t : State) (h : exec i s = .next t) :
    (s.busy = true ∧ t = dropCommand s)
      ∨ (s.busy = false ∧ ∃ r, checkOf i s.regs.src s.regs.len = some r ∧ t = rejectCommand r s)
      ∨ (s.busy = false ∧ checkOf i s.regs.src s.regs.len = none ∧ t = acceptCommand i s) :=
  present_cases _ _ _ _ (exec_eq_present i s ▸ h)

theorem exec_accepts (i : Instr) (s : State) (hb : s.busy = false)
    (hc : checkOf i s.regs.src s.regs.len = none) : exec i s = .next (acceptCommand i s) := by
  rw [exec_eq_present, hc]; simp [present, hb]

theorem exec_rejects (i : Instr) (s : State) (hb : s.busy = false) (r : Reject)
    (hc : checkOf i s.regs.src s.regs.len = some r) : exec i s = .next (rejectCommand r s) := by
  rw [exec_eq_present, hc]; simp [present, hb]

theorem exec_drops (i : Instr) (s : State) (hb : s.busy = true) : exec i s = .next (dropCommand s) := by
  rw [exec_eq_present]; simp [present, hb]

/-- A CMD write always answers a next state. -/
theorem presentCommand_next (w : Word) (s : State) : ∃ t, presentCommand w s = .next t := by
  unfold presentCommand
  split
  · rw [exec_eq_present]; exact present_next _ _ _
  · unfold presentIllegal; split <;> exact ⟨_, rfl⟩

/-- What a CMD write does. -/
theorem presentCommand_cases (w : Word) (s t : State) (h : presentCommand w s = .next t) :
    (s.busy = true ∧ t = dropCommand s)
      ∨ (s.busy = false ∧ ∃ r, t = rejectCommand r s)
      ∨ (s.busy = false ∧ ∃ i, decodeWord w = .instr i ∧ checkOf i s.regs.src s.regs.len = none
          ∧ t = acceptCommand i s) := by
  unfold presentCommand at h
  split at h
  · rcases exec_cases _ _ _ h with h | ⟨hb, r, -, ht⟩ | ⟨hb, hc, ht⟩
    · exact .inl h
    · exact .inr (.inl ⟨hb, r, ht⟩)
    · exact .inr (.inr ⟨hb, _, by assumption, hc, ht⟩)
  · unfold presentIllegal at h
    split at h
    · exact .inl ⟨by assumption, by cases h; rfl⟩
    · exact .inr (.inl ⟨by simpa using ‹¬s.busy = true›, .illegalCmd, by cases h; rfl⟩)

/-- What a register write does: a command presented, or a change of registers alone. -/
theorem regWrite_cases (off : Nat) (v : Word) (s t : State) (h : regWrite off v s = .next t) :
    (off = 0x00 ∧ presentCommand v s = .next t)
      ∨ (off = 0x04 ∧ t = s.withStatus (statusW1C v s.regs.status))
      ∨ (off = 0x08 ∧ t = s.withBlk { s.blk with regs := { s.regs with src := v } })
      ∨ (off = 0x0C ∧ t = s.withBlk { s.blk with regs := { s.regs with len := v } })
      ∨ (off = 0x10 ∧ t = s.withBlk { s.blk with regs := { s.regs with sumIn := v } })
      ∨ t = s := by
  unfold regWrite at h
  split at h
  · exact .inl ⟨by assumption, h⟩
  · split at h
    · exact .inr (.inl ⟨by assumption, by cases h; rfl⟩)
    · split at h
      · exact .inr (.inr (.inl ⟨by assumption, by cases h; rfl⟩))
      · split at h
        · exact .inr (.inr (.inr (.inl ⟨by assumption, by cases h; rfl⟩)))
        · split at h
          · exact .inr (.inr (.inr (.inr (.inl ⟨by assumption, by cases h; rfl⟩))))
          · exact .inr (.inr (.inr (.inr (.inr (by cases h; rfl)))))

/-- A register write always answers a next state. -/
theorem regWrite_next (off : Nat) (v : Word) (s : State) : ∃ t, regWrite off v s = .next t := by
  unfold regWrite
  split
  · exact presentCommand_next v s
  · split <;> [skip; split <;> [skip; split <;> [skip; split]]] <;> exact ⟨_, rfl⟩

/-- What a beat that reads does: the fault on its first unreadable byte, or a new engine. -/
theorem readingBeat_next (n : Nat) (f : State → Engine) (s t : State) (h : readingBeat n f s = .next t) :
    (∀ a, s.readAddr ≤ a → a < s.readAddr + n → s.isReadable a = true)
      ∧ t = (s.withBlk { s.blk with eng := f s }).tick := by
  unfold readingBeat at h
  split at h
  · cases h
  · rename_i hn
    cases h
    exact ⟨by simpa using (firstAddr_eq_none_iff _ _ _).1 hn, rfl⟩

/-- The engine a beat leaves (R70): what the family's rule computes from the bytes read. -/
def beatEngine (i : Instr) (s : State) : Engine :=
  match i with
  | .scalar =>
    if s.eng.pos + 2 ≤ s.eng.len.toNat then scalarAdd 2 ((s.halfAt s.readAddr).zeroExtend 32) s.eng
    else scalarAdd 1 ((s.byteAt s.readAddr).zeroExtend 32) s.eng
  | .wide => wideAdd (s.chunkAt s.readAddr) s.eng
  | .narrow => narrowAdd (s.chunkAt s.readAddr) s.eng
  | .popcnt => popcntAdd (s.chunkAt s.readAddr) (s.chunkAt (s.readAddr + 32)) s.eng
  | .fold => s.eng

/-- Every beat is a reading beat. -/
theorem beat_eq (i : Instr) (hi : i ≠ .fold) (s : State) :
    beat i s = readingBeat (beatSize i s.eng.len.toNat s.eng.pos) (beatEngine i) s := by
  cases i with
  | scalar =>
    by_cases h : s.eng.pos + 2 ≤ s.eng.len.toNat
    · simp [beat, scalarBeat, scalarWordBeat, readingBeat, beatSize, beatEngine, h]
    · simp [beat, scalarBeat, scalarByteBeat, readingBeat, beatSize, beatEngine, h]
  | wide => rfl
  | narrow => rfl
  | popcnt => rfl
  | fold => exact absurd rfl hi

/-- The three things an engine step does when it goes on (R70). -/
theorem engineStep_cases (s t : State) (h : engineStep s = .next t) :
    (s.busy = false ∧ t = s)
      ∨ (s.busy = true ∧ ∃ i, s.eng.op = some i ∧ i ≠ .fold ∧ s.eng.pos < s.eng.len.toNat
          ∧ (∀ a, s.readAddr ≤ a → a < s.readAddr + beatSize i s.eng.len.toNat s.eng.pos → s.isReadable a = true)
          ∧ t = (s.withBlk { s.blk with eng := beatEngine i s }).tick)
      ∨ (s.busy = true ∧ ∃ i, s.eng.op = some i ∧ s.eng.len.toNat ≤ s.eng.pos ∧ t = complete i s) := by
  unfold engineStep at h
  split at h
  · rename_i hb
    split at h
    · cases h
    · rename_i i hop
      split at h
      · rename_i hlt
        by_cases hi : i = .fold
        · subst hi; cases h
        · rw [beat_eq i hi] at h
          obtain ⟨hr, ht⟩ := readingBeat_next _ _ _ _ h
          exact .inr (.inl ⟨hb, i, hop, hi, hlt, hr, ht⟩)
      · exact .inr (.inr ⟨hb, i, hop, by omega, by cases h; rfl⟩)
  · rename_i hb
    exact .inl ⟨by simpa using hb, by cases h; rfl⟩

end Sys2Proof.Machine
end

