-- ==== Sys2Proof/Laws/Instances.lean ====
section
/-! SUPPORT. Moving the focus from one instance to another and back (R33). -/

namespace Sys2Proof.Machine

@[simp] theorem State.focus_zero (s : State) : s.focus 0 = s := rfl

theorem State.focus_succ_some (s : State) (k : Nat) (o : Slot) (h : s.others[k]? = some o) :
    s.focus (k + 1) = { s with blk := o.blk, base := o.base, others := s.others.set k ⟨s.base, s.blk⟩ } := by
  simp [State.focus, h]

theorem State.focus_succ_none (s : State) (k : Nat) (h : s.others[k]? = none) : s.focus (k + 1) = s := by
  simp [State.focus, h]

@[simp] theorem State.focus_mem (s : State) (k : Nat) : (s.focus k).mem = s.mem := by
  cases k with
  | zero => rfl
  | succ k => rw [State.focus]; split <;> rfl
@[simp] theorem State.focus_readable (s : State) (k : Nat) : (s.focus k).readable = s.readable := by
  cases k with
  | zero => rfl
  | succ k => rw [State.focus]; split <;> rfl
@[simp] theorem State.focus_volatileRegions (s : State) (k : Nat) :
    (s.focus k).volatileRegions = s.volatileRegions := by
  cases k with
  | zero => rfl
  | succ k => rw [State.focus]; split <;> rfl
@[simp] theorem State.focus_program (s : State) (k : Nat) : (s.focus k).program = s.program := by
  cases k with
  | zero => rfl
  | succ k => rw [State.focus]; split <;> rfl
@[simp] theorem State.focus_writers (s : State) (k : Nat) : (s.focus k).writers = s.writers := by
  cases k with
  | zero => rfl
  | succ k => rw [State.focus]; split <;> rfl
@[simp] theorem State.focus_sched (s : State) (k : Nat) : (s.focus k).sched = s.sched := by
  cases k with
  | zero => rfl
  | succ k => rw [State.focus]; split <;> rfl
@[simp] theorem State.focus_trace (s : State) (k : Nat) : (s.focus k).trace = s.trace := by
  cases k with
  | zero => rfl
  | succ k => rw [State.focus]; split <;> rfl
@[simp] theorem State.focus_freeCount (s : State) (k : Nat) : (s.focus k).freeCount = s.freeCount := by
  cases k with
  | zero => rfl
  | succ k => rw [State.focus]; split <;> rfl
@[simp] theorem State.focus_others_length (s : State) (k : Nat) :
    (s.focus k).others.length = s.others.length := by
  cases k with
  | zero => rfl
  | succ k => rw [State.focus]; split <;> simp

/-! The agents' own data is not an instance's, so moving the focus commutes with changing it. -/

@[simp] theorem State.focus_withSched (s : State) (ts : List Turn) (k : Nat) :
    (s.withSched ts).focus k = (s.focus k).withSched ts := by
  cases k with
  | zero => rfl
  | succ k => cases h : s.others[k]? <;> simp [State.focus, State.withSched, h]
@[simp] theorem State.focus_withProgram (s : State) (p : List HostOp) (k : Nat) :
    (s.withProgram p).focus k = (s.focus k).withProgram p := by
  cases k with
  | zero => rfl
  | succ k => cases h : s.others[k]? <;> simp [State.focus, State.withProgram, h]
@[simp] theorem State.focus_withWriters (s : State) (ws : List MemWrite) (k : Nat) :
    (s.withWriters ws).focus k = (s.focus k).withWriters ws := by
  cases k with
  | zero => rfl
  | succ k => cases h : s.others[k]? <;> simp [State.focus, State.withWriters, h]
@[simp] theorem State.focus_note (s : State) (t : Transaction) (k : Nat) :
    (s.note t).focus k = (s.focus k).note t := by
  cases k with
  | zero => rfl
  | succ k => cases h : s.others[k]? <;> simp [State.focus, State.note, h]

@[simp] theorem State.instanceAt_withSched (s : State) (ts : List Turn) (a : Nat) :
    (s.withSched ts).instanceAt a = s.instanceAt a := rfl
@[simp] theorem State.instanceAt_withProgram (s : State) (p : List HostOp) (a : Nat) :
    (s.withProgram p).instanceAt a = s.instanceAt a := rfl
@[simp] theorem State.instanceAt_note (s : State) (t : Transaction) (a : Nat) :
    (s.note t).instanceAt a = s.instanceAt a := rfl

/-- The window an address names holds it (R52). -/
theorem windowHolds_of_instanceAt (s : State) (addr k : Nat) (h : s.instanceAt addr = some k) :
    windowHolds (s.focus k).base addr = true := by
  unfold State.instanceAt at h
  split at h
  · cases h; assumption
  · obtain ⟨j, hj, rfl⟩ := Option.map_eq_some_iff.1 h
    obtain ⟨hl, hp, -⟩ := List.findIdx?_eq_some_iff_getElem.1 hj
    rw [State.focus_succ_some s j _ (List.getElem?_eq_getElem hl)]
    exact hp

/-- A 32-bit access at an aligned offset of the window an address names is defined (R65). -/
theorem accessDefined_of_instanceAt (s : State) (addr k : Nat) (h : s.instanceAt addr = some k)
    (h4 : (addr - (s.focus k).base) % 4 = 0) : accessDefined 32 (addr - (s.focus k).base) = true := by
  have hw := windowHolds_of_instanceAt s addr k h
  simp [windowHolds, Config.windowBytes] at hw
  simp [accessDefined, Config.accessBits, Config.windowBytes, h4]
  omega

/-- Focusing twice gives the state back, whatever was done to the block in focus in between being kept in
its slot. -/
theorem State.focus_focus (s : State) (k : Nat) : (s.focus k).focus k = s := by
  cases k with
  | zero => rfl
  | succ k =>
    cases h : s.others[k]? with
    | none => rw [State.focus_succ_none s k h, State.focus_succ_none s k h]
    | some o =>
      obtain ⟨hk, ho⟩ := List.getElem?_eq_some_iff.1 h
      rw [State.focus_succ_some s k o h, State.focus_succ_some _ k ⟨s.base, s.blk⟩ (by simp [hk])]
      obtain ⟨b, base, others⟩ := o
      simp only [List.set_set]
      congr
      rw [← ho]; simp

/-- A block put in focus at instance `k + 1` ends up in that slot, and only there. -/
theorem State.withBlk_focus_succ (s : State) (k : Nat) (o : Slot) (b : Block) (h : s.others[k]? = some o) :
    ((s.focus (k + 1)).withBlk b).focus (k + 1) = { s with others := s.others.set k ⟨o.base, b⟩ } := by
  obtain ⟨hk, -⟩ := List.getElem?_eq_some_iff.1 h
  rw [State.focus_succ_some s k o h,
    State.focus_succ_some _ k ⟨s.base, s.blk⟩ (by simp [State.withBlk, hk])]
  simp [State.withBlk]

/-- An instance that exists beside the one in focus. -/
theorem State.others_of_hasInstance (s : State) (k : Nat) (h : s.hasInstance (k + 1) = true) :
    ∃ o, s.others[k]? = some o := by
  have hk : k < s.others.length := by simpa [State.hasInstance, Nat.succ_le_iff] using h
  exact ⟨s.others[k], List.getElem?_eq_getElem hk⟩

theorem outcomeMap_next (f : State → State) (x : Host.Outcome State Fault Refusal) (t : State)
    (h : outcomeMap f x = .next t) : ∃ u, x = .next u ∧ t = f u := by
  cases x with
  | next u => exact ⟨u, rfl, by simpa [outcomeMap] using h.symm⟩
  | fault r => cases h
  | refused r => cases h

theorem onInstance_next (k : Nat) (f : State → Host.Outcome State Fault Refusal) (s t : State)
    (h : onInstance k f s = .next t) : ∃ u, f (s.focus k) = .next u ∧ t = u.focus k :=
  outcomeMap_next _ _ _ h

@[simp] theorem onInstance_zero (f : State → Host.Outcome State Fault Refusal) (s : State) :
    onInstance 0 f s = f s := by
  unfold onInstance outcomeMap
  cases h : f s <;> simp [h]

end Sys2Proof.Machine
end

