-- ==== Sys2Proof/Laws/Lanes.lean ====
section
/-! SUPPORT. What the adders and the lane primitives give, lane by lane and as naturals. -/

namespace Sys2Proof.Machine

/-! ### Adders -/

theorem addN_fst {n : Nat} (x y : BitVec n) : (addN x y).1 = x + y := rfl

theorem addN_snd {n : Nat} (x y : BitVec n) : (addN x y).2 = true ↔ 2 ^ n ≤ x.toNat + y.toNat := by
  simp [addN]

@[simp] theorem add32_fst (x y : Word) : (add32 x y).1 = x + y := rfl

theorem add32_snd (x y : Word) : (add32 x y).2 = true ↔ 2 ^ 32 ≤ x.toNat + y.toNat := addN_snd x y

@[simp] theorem add16_fst (x y : Half) : (add16 x y).1 = x + y := rfl

theorem add16_snd (x y : Half) : (add16 x y).2 = true ↔ 2 ^ 16 ≤ x.toNat + y.toNat := addN_snd x y

/-- Sum and carry together lose nothing. -/
theorem add32_exact (x y : Word) :
    (add32 x y).1.toNat + (if (add32 x y).2 then 2 ^ 32 else 0) = x.toNat + y.toNat := by
  have hx := x.isLt
  have hy := y.isLt
  by_cases h : 2 ^ 32 ≤ x.toNat + y.toNat
  · rw [if_pos ((add32_snd x y).2 h), add32_fst, BitVec.toNat_add]; omega
  · rw [if_neg (mt (add32_snd x y).1 h), add32_fst, BitVec.toNat_add]; omega

theorem laneOverflowed_iff (old new : Half) : laneOverflowed old new = true ↔ new.toNat < old.toNat := by
  simp [laneOverflowed]

/-! ### Lanes -/

@[simp] theorem vadd16_get (x y : Lanes16) (i : Nat) (h : i < 16) : (vadd16 x y)[i] = x[i] + y[i] := by
  simp [vadd16]

@[simp] theorem vadd32_get (x y : Lanes32) (i : Nat) (h : i < 8) : (vadd32 x y).1[i] = x[i] + y[i] := by
  simp [vadd32]

theorem vadd32_loss (x y : Lanes32) :
    (vadd32 x y).2 = true ↔ ∃ i : Fin 8, 2 ^ 32 ≤ (x[i]).toNat + (y[i]).toNat := by
  simp [vadd32, add32, addN]

@[simp] theorem ovfv_get (old new : Lanes16) (i : Nat) (h : i < 16) :
    (ovfv old new)[i] = laneOverflowed old[i] new[i] := by
  simp [ovfv]

@[simp] theorem widenLo_get (x : Lanes16) (i : Nat) (h : i < 8) :
    (widenLo x)[i] = (x[i]).zeroExtend 32 := by
  simp [widenLo]

@[simp] theorem widenHi_get (x : Lanes16) (i : Nat) (h : i < 8) :
    (widenHi x)[i] = (x[i + 8]).zeroExtend 32 := by
  simp [widenHi]

@[simp] theorem cinc_get (cs : Lanes16) (o : LaneBits) (i : Nat) (h : i < 16) :
    (cinc cs o).1[i] = if o[i] then cs[i] + 1 else cs[i] := by
  simp [cinc]

theorem cinc_loss (cs : Lanes16) (o : LaneBits) :
    (cinc cs o).2 = true ↔ ∃ i : Fin 16, o[i] = true ∧ cs[i] + 1 = 0 := by
  simp [cinc]

theorem movmask_getLsbD (o : LaneBits) (j : Nat) (h : j < 32) : (movmask o).getLsbD j = o[j / 2] := by
  simp [movmask, h]

end Sys2Proof.Machine
end

