-- ==== Sys2Proof/Laws/PerInstr.lean ====
section
/-! SUPPORT. Statements made per instruction, about the instruction as syntax. -/

namespace Sys2Proof.Laws

/-- The command is well formed, its word is a defined command word, and it is not the reserved word 0
(R53, R54). -/
def EncodedWord.Statement (i : Instr) : Prop :=
  i.wf = true ∧ commandWordWf (encode i) = true ∧ encode i ≠ 0

theorem EncodedWord.scalar : EncodedWord.Statement .scalar := by unfold EncodedWord.Statement; decide
theorem EncodedWord.wide : EncodedWord.Statement .wide := by unfold EncodedWord.Statement; decide
theorem EncodedWord.narrow : EncodedWord.Statement .narrow := by unfold EncodedWord.Statement; decide
theorem EncodedWord.popcnt : EncodedWord.Statement .popcnt := by unfold EncodedWord.Statement; decide
theorem EncodedWord.fold : EncodedWord.Statement .fold := by unfold EncodedWord.Statement; decide

end Sys2Proof.Laws
end

