-- ==== Sys2Proof/Laws/Reads.lean ====
section
/-! SUPPORT. What the engine reads from a buffer that is memory: bytes, words and chunks as naturals (R37,
R39); and the frame of the family updates of the engine. -/

namespace Sys2Proof.Machine

theorem State.byteAt_quiet (s : State) (a : Nat) (h : s.isVolatile a = false) : s.byteAt a = s.mem.read a := by
  simp [State.byteAt, h]

theorem bufByte_lt (m : Memory) (a : Nat) : bufByte m a < 2 ^ 8 := (m.read a).isLt

theorem bufWord_lt (m : Memory) (a : Nat) : bufWord m a < 2 ^ 16 := by
  have h0 := bufByte_lt m a
  have h1 := bufByte_lt m (a + 1)
  unfold bufWord
  omega

/-- A word read from memory is its little-endian value. -/
theorem State.halfAt_toNat (s : State) (a : Nat) (h0 : s.isVolatile a = false)
    (h1 : s.isVolatile (a + 1) = false) : (s.halfAt a).toNat = bufWord s.mem a := by
  unfold State.halfAt
  rw [s.byteAt_quiet a h0, s.byteAt_quiet (a + 1) h1, BitVec.toNat_append, Nat.shiftLeft_eq, bufWord, bufByte,
    bufByte, Nat.or_comm, Nat.mul_comm _ (2 ^ 8), Nat.or_comm]
  rw [show 2 ^ 8 * (s.mem.read (a + 1)).toNat ||| (s.mem.read a).toNat
      = 2 ^ 8 * (s.mem.read (a + 1)).toNat + (s.mem.read a).toNat from
    (Nat.two_pow_add_eq_or_of_lt (s.mem.read a).isLt _).symm]
  omega

/-- Chunk word j of a chunk read from memory. -/
theorem State.chunkAt_get (s : State) (a : Nat) (h : s.quiet a 32) (j : Nat) (hj : j < 16) :
    ((s.chunkAt a)[j]).toNat = bufWord s.mem (a + 2 * j) := by
  have e : (s.chunkAt a)[j] = s.halfAt (a + 2 * j) := by simp [State.chunkAt]
  rw [e]
  exact s.halfAt_toNat _ (h _ (by omega) (by omega)) (h _ (by omega) (by omega))

theorem State.readableBuffer.quiet {s : State} {src len : Nat} (h : s.readableBuffer src len) :
    s.quiet src len := fun a h1 h2 => (h a h1 h2).2

theorem State.readableBuffer.canRead {s : State} {src len : Nat} (h : s.readableBuffer src len) :
    s.canRead src len := fun a h1 h2 => (h a h1 h2).1

/-- Every byte readable: a reading beat goes on. -/
theorem readingBeat_of_readable (n : Nat) (f : State → Engine) (s : State)
    (h : ∀ a, s.readAddr ≤ a → a < s.readAddr + n → s.isReadable a = true) :
    readingBeat n f s = .next (s.withBlk { s.blk with eng := f s }).tick := by
  have hn : s.firstUnreadable s.readAddr n = none :=
    (firstAddr_eq_none_iff _ _ _).2 fun a h1 h2 => by simp [h a h1 h2]
  unfold readingBeat
  rw [hn]

/-- An enabled beat with every byte readable goes on with the family's engine. -/
theorem engineStep_beat (s : State) (i : Instr) (hb : s.busy = true) (hop : s.eng.op = some i)
    (hi : i ≠ .fold) (hlt : s.eng.pos < s.eng.len.toNat)
    (h : ∀ a, s.readAddr ≤ a → a < s.readAddr + beatSize i s.eng.len.toNat s.eng.pos →
      s.isReadable a = true) :
    engineStep s = .next (s.withBlk { s.blk with eng := beatEngine i s }).tick := by
  unfold engineStep
  simp only [hb, hop, hlt, if_true]
  rw [beat_eq i hi]
  exact readingBeat_of_readable _ _ _ h

theorem engineStep_complete (s : State) (i : Instr) (hb : s.busy = true) (hop : s.eng.op = some i)
    (hle : s.eng.len.toNat ≤ s.eng.pos) : engineStep s = .next (complete i s) := by
  unfold engineStep
  simp [hb, hop, Nat.not_lt.2 hle]

/-- A buffer without side-effect addresses meets no such region. -/
theorem State.bufferVolatile_quiet (s : State) (h : s.quiet s.eng.src.toNat s.eng.len.toNat) :
    s.bufferVolatile = false := by
  rw [State.bufferVolatile, List.any_eq_false]
  intro r hr hm
  have hlt : max r.base s.eng.src.toNat < min (r.base + r.size) (s.eng.src.toNat + s.eng.len.toNat) := by
    simpa [Region.meets] using hm
  have hv := h (max r.base s.eng.src.toNat) (by omega) (by omega)
  rw [State.isVolatile, regionsHold, List.any_eq_false] at hv
  refine hv r hr ?_
  simp [Region.contains]
  omega

/-! ### What a beat does to the engine's control -/

@[simp] theorem beatEngine_op (i : Instr) (s : State) : (beatEngine i s).op = s.eng.op := by
  cases i <;> simp only [beatEngine, scalarAdd, wideAdd, narrowAdd, popcntAdd]; split <;> rfl
@[simp] theorem beatEngine_src (i : Instr) (s : State) : (beatEngine i s).src = s.eng.src := by
  cases i <;> simp only [beatEngine, scalarAdd, wideAdd, narrowAdd, popcntAdd]; split <;> rfl
@[simp] theorem beatEngine_len (i : Instr) (s : State) : (beatEngine i s).len = s.eng.len := by
  cases i <;> simp only [beatEngine, scalarAdd, wideAdd, narrowAdd, popcntAdd]; split <;> rfl
@[simp] theorem beatEngine_pos (i : Instr) (s : State) :
    (beatEngine i s).pos = s.eng.pos + beatSize i s.eng.len.toNat s.eng.pos := by
  cases i <;> simp only [beatEngine, beatSize, scalarAdd, wideAdd, narrowAdd, popcntAdd, Nat.add_zero]
  split <;> rfl

/-- The check each presentation makes is R67's `Validate`. -/
theorem validate_encode (i : Instr) (src len : Word) : validate (encode i) src len = checkOf i src len := by
  cases i <;> simp [validate, encode, checkOf, rangeCheck, alignCheck, pairCheck, Config.addressSpace] <;>
    (repeat' split) <;> simp_all

end Sys2Proof.Machine
end

