-- ==== Sys2Proof/Laws/Steps.lean ====
section
/-! SUPPORT. What a step of the machine can do (R140), said once: nothing to the blocks and to memory, a
memory write outside every running buffer, or a register write, an engine step or a reset of one instance. -/

namespace Sys2Proof.Machine

/-- The blocks, memory and the platform are the same; the agents' own data may differ. -/
structure SameCore (s r : State) : Prop where
  blk : r.blk = s.blk
  base : r.base = s.base
  others : r.others = s.others
  mem : r.mem = s.mem
  readable : r.readable = s.readable
  volatileRegions : r.volatileRegions = s.volatileRegions

theorem SameCore.rfl' (s : State) : SameCore s s := ⟨rfl, rfl, rfl, rfl, rfl, rfl⟩

theorem SameCore.trans' {s r t : State} (h : SameCore s r) (g : SameCore r t) : SameCore s t :=
  ⟨g.blk.trans h.blk, g.base.trans h.base, g.others.trans h.others, g.mem.trans h.mem,
    g.readable.trans h.readable, g.volatileRegions.trans h.volatileRegions⟩

/-- One instance's own move, with that instance in focus: a register write, an engine step, or a reset. -/
def BlockMove (s t : State) : Prop :=
  (∃ off v, regWrite off v s = .next t) ∨ engineStep s = .next t ∨ t = resetBlock s

/-- What a step does, apart from the agents' own data. -/
def StepEffect (s t : State) : Prop :=
  SameCore s t
    ∨ (∃ r addr n v, SameCore s r ∧ memWrite addr n v r = .next t)
    ∨ (∃ r k u, SameCore s r ∧ r.hasInstance k = true ∧ BlockMove (r.focus k) u ∧ t = u.focus k)

theorem registerAccess_next (width addr : Nat) (f : Nat → Nat → Host.Outcome State Fault Refusal)
    (s t : State) (h : registerAccess width addr f s = .next t) :
    ∃ k, s.instanceAt addr = some k ∧ accessDefined width (addr - (s.focus k).base) = true
      ∧ f k (addr - (s.focus k).base) = .next t := by
  unfold registerAccess at h
  split at h
  · cases h
  · split at h
    · exact ⟨_, by assumption, by assumption, h⟩
    · cases h

theorem instanceAt_hasInstance (s : State) (addr k : Nat) (h : s.instanceAt addr = some k) :
    s.hasInstance k = true := by
  unfold State.instanceAt at h
  split at h
  · cases h; simp [State.hasInstance]
  · obtain ⟨j, hj, rfl⟩ := Option.map_eq_some_iff.1 h
    have := (List.findIdx?_eq_some_iff_findIdx_eq.1 hj).1
    simpa [State.hasInstance, Nat.succ_le_iff] using this

theorem hostOp_effect (op : HostOp) (s t : State) (h : hostOp op s = .next t) : StepEffect s t := by
  cases op with
  | rd width addr =>
    simp only [hostOp] at h
    obtain ⟨k, -, -, ht⟩ := registerAccess_next _ _ _ _ _ h
    cases ht
    exact .inl ⟨rfl, rfl, rfl, rfl, rfl, rfl⟩
  | wr width addr v =>
    simp only [hostOp] at h
    obtain ⟨k, hk, -, ht⟩ := registerAccess_next _ _ _ _ _ h
    obtain ⟨u, hu, rfl⟩ := onInstance_next _ _ _ _ ht
    exact .inr (.inr ⟨s.note (.regWrite addr v), k, u, ⟨rfl, rfl, rfl, rfl, rfl, rfl⟩,
      instanceAt_hasInstance s addr k hk, .inl ⟨_, _, hu⟩, rfl⟩)
  | poll addr mask val =>
    simp only [hostOp] at h
    obtain ⟨k, -, -, ht⟩ := registerAccess_next _ _ _ _ _ h
    split at ht <;> cases ht <;> exact .inl ⟨rfl, rfl, rfl, rfl, rfl, rfl⟩
  | load addr n =>
    simp only [hostOp] at h
    split at h
    · cases h; exact .inl ⟨rfl, rfl, rfl, rfl, rfl, rfl⟩
    · cases h
  | store addr n v =>
    exact .inr (.inl ⟨s.note (.memWrite addr n v), addr, n, v, ⟨rfl, rfl, rfl, rfl, rfl, rfl⟩, h⟩)

theorem StepEffect.of_sameCore {s r t : State} (h : SameCore s r) (g : StepEffect r t) : StepEffect s t := by
  rcases g with g | ⟨q, addr, n, v, g, hw⟩ | ⟨q, k, u, g, hk, hm, ht⟩
  · exact .inl (h.trans' g)
  · exact .inr (.inl ⟨q, addr, n, v, h.trans' g, hw⟩)
  · exact .inr (.inr ⟨q, k, u, h.trans' g, hk, hm, ht⟩)

theorem takeTurn_effect (tn : Turn) (s t : State) (h : takeTurn tn s = .next t) : StepEffect s t := by
  cases tn with
  | host =>
    simp only [takeTurn, hostStep] at h
    split at h
    · cases h; exact .inl (SameCore.rfl' _)
    · rename_i op rest _
      have g := hostOp_effect _ _ _ h
      exact StepEffect.of_sameCore (r := s.withProgram rest) ⟨rfl, rfl, rfl, rfl, rfl, rfl⟩ g
  | engine k =>
    simp only [takeTurn] at h
    split at h
    · obtain ⟨u, hu, rfl⟩ := onInstance_next _ _ _ _ h
      exact .inr (.inr ⟨s, k, u, SameCore.rfl' _, by assumption, .inr (.inl hu), rfl⟩)
    · cases h; exact .inl (SameCore.rfl' _)
  | writer =>
    simp only [takeTurn, writerStep] at h
    split at h
    · cases h; exact .inl (SameCore.rfl' _)
    · rename_i w rest _
      exact .inr (.inl ⟨s.withWriters rest, _, _, _, ⟨rfl, rfl, rfl, rfl, rfl, rfl⟩, h⟩)
  | reset k =>
    simp only [takeTurn] at h
    split at h
    · obtain ⟨u, hu, rfl⟩ := onInstance_next _ _ _ _ h
      cases hu
      exact .inr (.inr ⟨s, k, _, SameCore.rfl' _, by assumption, .inr (.inr rfl), rfl⟩)
    · cases h; exact .inl (SameCore.rfl' _)

/-- The one lemma about step that invariants are proved from. -/
theorem step_effect (s t : State) (h : step s = .next t) : StepEffect s t := by
  have g := takeTurn_effect _ _ _ h
  exact StepEffect.of_sameCore (r := s.withSched s.sched.tail) ⟨rfl, rfl, rfl, rfl, rfl, rfl⟩ g

/-- An instance's own move changes nothing outside its block but the free values' counter. -/
theorem BlockMove.outside (s t : State) (h : BlockMove s t) :
    t = s.withBlk t.blk ∨ t = (s.withBlk t.blk).tick := by
  rcases h with ⟨off, v, h⟩ | h | rfl
  · left
    rcases regWrite_cases _ _ _ _ h with ⟨-, h⟩ | ⟨-, rfl⟩ | ⟨-, rfl⟩ | ⟨-, rfl⟩ | ⟨-, rfl⟩ | rfl
    · rcases presentCommand_cases _ _ _ h with ⟨-, rfl⟩ | ⟨-, r, rfl⟩ | ⟨-, i, -, -, rfl⟩ <;> rfl
    all_goals rfl
  · rcases engineStep_cases _ _ h with ⟨-, rfl⟩ | ⟨-, i, -, -, -, -, rfl⟩ | ⟨-, i, -, -, rfl⟩
    · exact .inl rfl
    · exact .inr rfl
    · exact .inr rfl
  · exact .inl rfl

end Sys2Proof.Machine
end

