-- ==== Sys2Proof/Laws/Turns.lean ====
section
/-! SUPPORT. How a host operation reaches the instance in focus, and what a step can do to the block in focus
(R140), said once for the rules of the whole machine. -/

namespace Sys2Proof.Machine

/-! ### The host's turn -/

theorem instanceAt_focus (s : State) (off : Nat) (h : off < 0x100) : s.instanceAt (s.base + off) = some 0 := by
  simp [State.instanceAt, windowHolds, h]

/-- A defined write to the instance in focus is its register write. -/
theorem hostOp_wr (s : State) (off : Nat) (v : Word) (h4 : off % 4 = 0) (h : off < 0x100) :
    hostOp (.wr 32 (s.base + off) v) s = regWrite off v (s.note (.regWrite (s.base + off) v)) := by
  simp [hostOp, registerAccess, instanceAt_focus s off h, accessDefined, h4, h]

/-- A defined read of the instance in focus only leaves its transaction. -/
theorem hostOp_rd (s : State) (off : Nat) (h4 : off % 4 = 0) (h : off < 0x100) :
    hostOp (.rd 32 (s.base + off)) s = .next (s.note (.regRead (s.base + off) (regRead off s))) := by
  simp [hostOp, registerAccess, instanceAt_focus s off h, accessDefined, h4, h, readOf]

/-- A defined access is done at its offset on the instance its address names. -/
theorem registerAccess_at (s : State) (addr k : Nat) (f : Nat → Nat → Host.Outcome State Fault Refusal)
    (hk : s.instanceAt addr = some k) (h4 : (addr - (s.focus k).base) % 4 = 0) :
    registerAccess 32 addr f s = f k (addr - (s.focus k).base) := by
  simp [registerAccess, hk, accessDefined_of_instanceAt s addr k hk h4]

/-- An access R65 does not define is refused, at every instance's window. -/
theorem registerAccess_refused (s : State) (width addr k : Nat)
    (f : Nat → Nat → Host.Outcome State Fault Refusal) (hk : s.instanceAt addr = some k)
    (h : width ≠ 32 ∨ (addr - (s.focus k).base) % 4 ≠ 0) :
    registerAccess width addr f s = .refused (.undefinedAccess width addr) := by
  have hd : accessDefined width (addr - (s.focus k).base) = false := by
    rcases h with h | h <;> simp [accessDefined, Config.accessBits, h]
  simp [registerAccess, hk, hd]

theorem nextTurn_sched (s : State) (t : Turn) (rest : List Turn) (h : s.sched = t :: rest) :
    nextTurn s = t := by
  simp [nextTurn, h]

/-- A busy block in focus moves first when the schedule has run out (R141). -/
theorem nextTurn_busy (s : State) (h : s.sched = []) (hb : s.busy = true) : nextTurn s = .engine 0 := by
  simp [nextTurn, h, defaultTurn, hb]

/-- While the next turns are the engine's, a busy block moves (R140). -/
theorem nextTurn_of_engineTurnsNext (s : State) (n : Nat) (h : s.engineTurnsNext (n + 1))
    (hb : s.busy = true) : nextTurn s = .engine 0 := by
  cases hs : s.sched with
  | nil => exact nextTurn_busy s hs hb
  | cons t ts => rw [nextTurn_sched s t ts hs, h t (by simp [hs])]

/-- One engine turn off, the others are still to come. -/
theorem State.engineTurnsNext_tail (s t : State) (n : Nat) (h : s.engineTurnsNext (n + 1))
    (ht : t.sched = s.sched.tail) : t.engineTurnsNext n := by
  intro x hx
  rw [ht] at hx
  refine h x ?_
  cases hs : s.sched with
  | nil => simp [hs] at hx
  | cons y ys => rw [hs] at hx; exact List.mem_cons_of_mem _ hx

/-- The engine's turn of the instance in focus is its engine step. -/
theorem step_engine (s : State) (h : nextTurn s = .engine 0) :
    step s = engineStep (s.withSched s.sched.tail) := by
  simp [step, h, takeTurn, State.hasInstance]

@[simp] theorem State.hasInstance_withSched (s : State) (ts : List Turn) (k : Nat) :
    (s.withSched ts).hasInstance k = s.hasInstance k := rfl

theorem step_host (s : State) (op : HostOp) (p : List HostOp) (hp : s.program = op :: p)
    (hn : nextTurn s = .host) : step s = hostOp op ((s.withSched s.sched.tail).withProgram p) := by
  simp [step, hn, takeTurn, hostStep, hp]

/-- With the schedule run out and the block in focus busy, a step is an engine step of it. -/
theorem step_busy (s : State) (h : s.sched = []) (hb : s.busy = true) : step s = engineStep s := by
  have hs : s.withSched s.sched.tail = s := by rw [h, List.tail_nil, ← h]; rfl
  simp [step, nextTurn_busy s h hb, takeTurn, State.hasInstance, hs]

/-! ### The block in focus -/

/-- A move of instance `k` either is a move of the block in focus, or changes one other slot. -/
theorem move_of_instance (s t u : State) (k : Nat) (hk : s.hasInstance k = true)
    (hm : BlockMove (s.focus k) u) (ht : t = u.focus k) :
    (k = 0 ∧ t = u) ∨ ∃ j o, k = j + 1 ∧ s.others[j]? = some o ∧ t.blk = s.blk ∧ t.base = s.base
      ∧ t.mem = s.mem ∧ t.others = s.others.set j ⟨o.base, u.blk⟩
      ∧ t.volatileRegions = s.volatileRegions ∧ t.readable = s.readable := by
  cases k with
  | zero => exact .inl ⟨rfl, ht⟩
  | succ j =>
    obtain ⟨o, ho⟩ := State.others_of_hasInstance s j hk
    refine .inr ⟨j, o, rfl, ho, ?_⟩
    have e := State.withBlk_focus_succ s j o u.blk ho
    rcases BlockMove.outside _ _ hm with h | h
    · rw [← h, ← ht] at e
      rw [e]
      exact ⟨rfl, rfl, rfl, rfl, rfl, rfl⟩
    · obtain ⟨hk', -⟩ := List.getElem?_eq_some_iff.1 ho
      have e2 : t = ({ s with others := s.others.set j ⟨o.base, u.blk⟩ } : State).tick := by
        rw [← e, ht]
        conv_lhs => rw [h]
        rw [State.focus_succ_some s j o ho,
          State.focus_succ_some _ j ⟨s.base, s.blk⟩ (by simp [State.withBlk, State.tick, hk']),
          State.focus_succ_some _ j ⟨s.base, s.blk⟩ (by simp [State.withBlk, hk'])]
        rfl
      rw [e2]
      exact ⟨rfl, rfl, rfl, rfl, rfl, rfl⟩

/-- What a step can do to the block in focus: nothing, a reset turn, its own engine's turn, or a host's write
to its window. -/
theorem step_block (s t : State) (h : step s = .next t) :
    t.blk = s.blk ∨ (nextTurn s = .reset 0 ∧ t.blk = Block.reset)
      ∨ (nextTurn s = .engine 0 ∧ ∃ r, r.blk = s.blk ∧ engineStep r = .next t)
      ∨ (nextTurn s = .host ∧ ∃ off v p r, s.program = .wr 32 (s.base + off) v :: p ∧ off < 0x100
          ∧ off % 4 = 0 ∧ r.blk = s.blk ∧ regWrite off v r = .next t) := by
  unfold step at h
  cases hn : nextTurn s with
  | host =>
    rw [hn] at h
    simp only [takeTurn, hostStep, State.withSched_program] at h
    cases hp : s.program with
    | nil => rw [hp] at h; cases h; exact .inl rfl
    | cons op p =>
      rw [hp] at h
      simp only at h
      cases op with
      | rd w a =>
        simp only [hostOp] at h
        obtain ⟨k, -, -, ht⟩ := registerAccess_next _ _ _ _ _ h
        cases ht
        exact .inl rfl
      | wr w a v =>
        simp only [hostOp] at h
        obtain ⟨k, hk, hacc, ht⟩ := registerAccess_next _ _ _ _ _ h
        have hkk := instanceAt_hasInstance _ _ _ hk
        obtain ⟨u, hu, rfl⟩ := onInstance_next _ _ _ _ ht
        rcases move_of_instance (((s.withSched s.sched.tail).withProgram p).note (.regWrite a v)) _ u k hkk
          (.inl ⟨_, _, hu⟩) rfl with ⟨rfl, -⟩ | ⟨j, o, rfl, ho, q1, -⟩
        · refine .inr (.inr (.inr ⟨rfl, ?_⟩))
          simp only [State.focus_zero, State.withProgram_base, State.withSched_base] at hu hacc ⊢
          have hacc' : (w = 32 ∧ (a - s.base) % 4 = 0) ∧ a - s.base < 0x100 := by
            simpa [accessDefined, Config.accessBits, Config.windowBytes] using hacc
          have hb : s.base ≤ a := by
            by_contra hlt
            unfold State.instanceAt at hk
            split at hk
            · rename_i hw
              exact hlt (of_decide_eq_true (Bool.and_eq_true _ _ ▸ hw).1)
            · obtain ⟨j, hj, hh⟩ := Option.map_eq_some_iff.1 hk; omega
          obtain ⟨⟨rfl, h4⟩, hlt⟩ := hacc'
          exact ⟨a - s.base, v, p, (((s.withSched s.sched.tail).withProgram p).note (.regWrite a v)),
            by rw [Nat.add_sub_cancel' hb], hlt, h4, rfl, hu⟩
        · exact .inl q1
      | poll a m v =>
        simp only [hostOp] at h
        obtain ⟨k, -, -, ht⟩ := registerAccess_next _ _ _ _ _ h
        split at ht <;> cases ht <;> exact .inl rfl
      | load a n =>
        simp only [hostOp] at h
        split at h
        · cases h; exact .inl rfl
        · cases h
      | store a n v =>
        obtain ⟨-, -, rfl⟩ := memWrite_next _ _ _ _ _ h
        exact .inl rfl
  | engine k =>
    rw [hn] at h
    simp only [takeTurn] at h
    split at h
    · rename_i hk
      obtain ⟨u, hu, rfl⟩ := onInstance_next _ _ _ _ h
      rcases move_of_instance _ _ u k hk (.inr (.inl hu)) rfl with ⟨rfl, -⟩ | ⟨j, o, rfl, ho, q1, -⟩
      · exact .inr (.inr (.inl ⟨rfl, s.withSched s.sched.tail, rfl, hu⟩))
      · exact .inl q1
    · cases h; exact .inl rfl
  | writer =>
    rw [hn] at h
    simp only [takeTurn, writerStep] at h
    split at h
    · cases h; exact .inl rfl
    · obtain ⟨-, -, rfl⟩ := memWrite_next _ _ _ _ _ h
      exact .inl rfl
  | reset k =>
    rw [hn] at h
    simp only [takeTurn] at h
    split at h
    · rename_i hk
      obtain ⟨u, hu, rfl⟩ := onInstance_next _ _ _ _ h
      cases hu
      rcases move_of_instance _ _ _ k hk (.inr (.inr rfl)) rfl with ⟨rfl, -⟩ | ⟨j, o, rfl, ho, q1, -⟩
      · exact .inr (.inl ⟨rfl, rfl⟩)
      · exact .inl q1
    · cases h; exact .inl rfl

end Sys2Proof.Machine
end

