-- ==== Sys2Proof/Tests/Slice0.lean ====
section
/-! SUPPORT. The model's own tests: words written out from the spec's encodings, one-step tests whose expected
values stand in spec/95_test_vectors.md or a rule, the smoke tests of the well-formedness checks, and a witness
for the hypotheses of every statement that has some. -/

namespace Sys2Proof.Tests

open Sys2Proof Sys2Proof.Machine

/-! ### Small states -/

/-- An idle block with these operands, after reset. -/
def idle (src len : Word) : State :=
  { State.reset with blk := { Block.reset with regs := { Regs.reset with src := src, len := len } } }

/-- The same block just after command `i` was accepted. -/
def running (i : Instr) (src len : Word) : State := acceptCommand i (idle src len)

/-- A running block that has consumed `pos` bytes. -/
def runningAt (i : Instr) (src len : Word) (pos : Nat) : State :=
  let s := running i src len
  s.withBlk { s.blk with eng := { s.eng with pos := pos } }

/-- The state a step goes on in, or this one. -/
def after (s : State) (o : Host.Outcome State Fault Refusal) : State :=
  match o with
  | .next t => t
  | _ => s

/-- Two instances, the second at 0x100 and idle. -/
def twoInstances : State := { State.reset with others := [⟨0x100, Block.reset⟩] }

/-- A buffer inside an all-readable platform can be read. -/
theorem readable_of_all (s : State) (hr : s.readable = [{ base := 0, size := Config.addressSpace }])
    (hv : s.volatileRegions = []) (src len : Nat) (h : src + len ≤ 2 ^ 32) : s.readableBuffer src len := by
  intro a h1 h2
  simp [State.isReadable, State.isVolatile, regionsHold, Region.contains, hr, hv, Config.addressSpace]
  omega

theorem canRead_of_all (s : State) (hr : s.readable = [{ base := 0, size := Config.addressSpace }])
    (src len : Nat) (h : src + len ≤ 2 ^ 32) : s.canRead src len := by
  intro a h1 h2
  simp [State.isReadable, regionsHold, Region.contains, hr, Config.addressSpace]
  omega

/-- The same state on a platform where every read has side effects (I6). -/
def volatile (s : State) : State := { s with volatileRegions := [{ base := 0, size := Config.addressSpace }] }

theorem quiet_of_none (s : State) (hv : s.volatileRegions = []) (src len : Nat) : s.quiet src len := by
  intro a _ _
  simp [State.isVolatile, regionsHold, hv]

/-- With the schedule run out a busy engine has the next turns. -/
theorem engineTurns_of_empty (s : State) (h : s.sched = []) (n : Nat) : s.engineTurnsNext n := by
  intro t ht
  simp [h] at ht

/-! ### Well-formedness refuses the ill-formed -/

theorem test_wf_word_reserved_bits : commandWordWf 0x00000011#32 = false := by decide
theorem test_wf_word_opcode_zero : commandWordWf 0x00000000#32 = false := by decide
theorem test_wf_word_opcode_six : commandWordWf 0x00000006#32 = false := by decide
theorem test_wf_base_unaligned : windowBaseWf 0x80 = false := by decide
theorem test_wf_windows_equal : windowsWf [0x100, 0x100] = false := by decide
theorem test_wf_memory_order : Memory.wf [(2, 1), (1, 1)] = false := by decide
theorem test_wf_memory_unlisted_value : Memory.wf [(1, 0)] = false := by decide
theorem test_wf_memory_outside : Memory.wf [(2 ^ 32, 1)] = false := by decide

/-! ### Decoding (R53, R54): rsv in bits 31:4, opc in bits 3:0 -/

theorem test_decode_scalar : decodeWord (0#28 ++ 0b0001#4) = .instr .scalar := by decide
theorem test_decode_wide : decodeWord (0#28 ++ 0b0010#4) = .instr .wide := by decide
theorem test_decode_narrow : decodeWord (0#28 ++ 0b0011#4) = .instr .narrow := by decide
theorem test_decode_popcnt : decodeWord (0#28 ++ 0b0100#4) = .instr .popcnt := by decide
theorem test_decode_fold : decodeWord (0#28 ++ 0b0101#4) = .instr .fold := by decide
theorem test_decode_table_word : decodeTableWord 32 4 = some .popcnt := by decide
theorem test_decode_bit_four : decodeWord 0x00000014#32 = .rejected (.reservedBits 1#28) := by decide

/-! ### Datapath (vectors 2.1, 2.3 and the corner cases of R78, R81, R84) -/

theorem test_fold_2_1_5 : fold 0xFFFFFFFE#32 = 0x0001#16 := by decide
theorem test_fold_2_1_6 : fold 0x7FFF8000#32 = 0x0000#16 := by decide
theorem test_foldS_two_rounds : foldS 0x80008000 = 1 := by decide
theorem test_hr8_stage_two : hr8 #v[0x80000000, 0, 0x80000000, 0, 0, 0, 0, 0] = (0, true) := by decide
theorem test_hr8_stage_three : hr8 #v[0x80000000, 0x80000000, 0, 0, 0, 0, 0, 0] = (0, true) := by decide
theorem test_hr16_all_ones : hr16 (Vector.replicate 16 0xFFFF) = (0x000FFFF0#32, false) := by decide
theorem test_overflow_to_zero : laneOverflowed 1#16 0#16 = true := by decide
theorem test_overflow_equal : laneOverflowed 0x1234#16 0x1234#16 = false := by decide
theorem test_biased_8000 : biasedGreater 0x8000#16 0#16 = true := by decide
theorem test_movmask_example :
    movmask (Vector.ofFn fun i => i == 0 || i == 15) = 0xC0000003#32 := by decide +kernel
theorem test_cinc_wraps : (cinc (Vector.replicate 16 0xFFFF) (Vector.replicate 16 true)).2 = true := by decide

/-! ### One step of each command (vectors of sections 2.2 to 2.8) -/

/-- Vector 2.8.8: RANGE, STATUS 0x22. -/
theorem test_scalar_range :
    statusWord (after State.reset (exec .scalar (idle 0xFFFFFFFF#32 2#32))).regs.status = 0x22#32 := by decide
/-- P1, first engine step: acc = 0x0201, pos = 2. -/
theorem test_scalar_word_beat :
    (after State.reset (engineStep
      ((running .scalar 0x1000#32 3#32).withMem [(0x1000, 1), (0x1001, 2), (0x1002, 3)]))).eng.acc
      = 0x0201#32 := by decide
/-- Vector 2.8.13: RANGE before LEN_ALIGN, STATUS 0x22. -/
theorem test_wide_range_first :
    statusWord (after State.reset (exec .wide (idle 0xFFFFFFF0#32 0x30#32))).regs.status = 0x22#32 := by decide
/-- Vector 2.4.2: the words 0x0001 to 0x0010; lane 7 is 0x0008 + 0x0010. -/
theorem test_wide_lanes :
    (wideAdd (Vector.ofFn fun i => BitVec.ofNat 16 (i.val + 1)) Engine.reset).v
      = #v[0x0A, 0x0C, 0x0E, 0x10, 0x12, 0x14, 0x16, 0x18] := by decide
/-- Vector 2.8.17: LEN_ALIGN, STATUS 0x32. -/
theorem test_narrow_align :
    statusWord (after State.reset (exec .narrow (idle 0#32 0x21#32))).regs.status = 0x32#32 := by decide
/-- Vector 2.5.8: 0x8000 added to 0x8000 gives 0 and counts one carry in every lane. -/
theorem test_narrow_carry :
    let l : Lanes16 := Vector.replicate 16 0x8000
    let e := narrowAdd l (narrowAdd l Engine.reset)
    e.a = Vector.replicate 16 0 ∧ e.c = Vector.replicate 16 1 := by decide
/-- Vector 2.8.20: LEN_ALIGN before LEN_PAIR, STATUS 0x32. -/
theorem test_popcnt_align_first :
    statusWord (after State.reset (exec .popcnt (idle 0#32 0x30#32))).regs.status = 0x32#32 := by decide
/-- R120: lane 0 of A and lane 15 of B overflow: M = 0xC000000000000003, T up by 2. -/
theorem test_popcnt_two_events :
    (popcntAdd (Vector.ofFn fun i => if i = 0 then 0xFFFF else 0)
      (Vector.ofFn fun i => if i = 15 then 0xFFFF else 0)
      { Engine.reset with a := Vector.replicate 16 1, b := Vector.replicate 16 1 }).t = 2#32 := by decide +kernel
/-- Vector 2.8.23: FOLD is accepted whatever SRC and LEN hold, STATUS 0x01. -/
theorem test_fold_accepted :
    statusWord (after State.reset (exec .fold (idle 0xFFFFFFFF#32 0xFFFFFFFF#32))).regs.status = 0x01#32 := by
  decide
/-- P4: Fold(0x12345678) = 0x9753 in the first engine step. -/
theorem test_fold_completes :
    let s := acceptCommand .fold (State.reset.withBlk
      { Block.reset with regs := { Regs.reset with sumIn := 0x12345678#32 } })
    (after State.reset (engineStep s)).regs.result = 0x9753#16 := by decide

/-! ### Registers (vectors 2.9) -/

/-- Vector 2.9.6: STATUS 0x42 and a write of all ones leave 0x40. -/
theorem test_status_w1c :
    statusWord (statusW1C 0xFFFFFFFF#32 ⟨false, true, false, false, some .lenPair⟩) = 0x40#32 := by decide
/-- Vector 2.9.12: a rejection clears OVF. -/
theorem test_rejection_clears_ovf :
    statusWord (statusRejected .range ⟨false, true, true, false, none⟩) = 0x22#32 := by decide
/-- Vector 2.9.3: reserved offsets read 0. -/
theorem test_reserved_reads_zero : regRead 0x80 (idle 5#32 6#32) = 0 := by decide
/-- R65: an 8-bit access is refused. -/
theorem test_narrow_access_refused :
    ∃ r, step { State.reset with program := [.rd 8 0x04] } = .refused r := ⟨_, rfl⟩

/-! ### The host's question: the placed word runs as the first step after reset -/

theorem test_first_step_runs_scalar :
    (after State.reset (step (State.reset.withFetchWord 32 1))).eng.op = some .scalar := by decide
theorem test_first_step_runs_fold :
    (after State.reset (step (State.reset.withFetchWord 32 5))).eng.op = some .fold := by decide

/-! ### P5: both interleavings are admitted (R124, R140) -/

/-- The end of P5: SCALAR has one engine step left, the host has the FOLD word to write. -/
def p5 (turns : List Turn) : State :=
  { runningAt .scalar 0x4000#32 4#32 4 with program := [.wr 32 0 5#32], sched := turns }

theorem test_p5_host_first_drops :
    (after State.reset (Host.Core.run core 1 (p5 [.host]))).regs.status.drop = true := by decide
theorem test_p5_engine_first_accepts :
    (after State.reset (Host.Core.run core 2 (p5 [.engine 0, .host]))).eng.op = some .fold := by decide

/-! ### Witnesses: hypotheses that can be met -/

theorem witness_IllegalWordRejected :
    State.reset.busy = false ∧ (0x00000000#32 : Word) ≠ 1 ∧ (0x00000006#32 : Word) ≠ 5
      ∧ (0x00000014#32 : Word) ≠ 4 ∧ (0x80000001#32 : Word) ≠ 1 := by decide

theorem witness_StepRunsDecodedInstruction :
    let s := State.reset.withFetchWord 32 1
    s.program = .wr 32 s.base 1#32 :: [] ∧ decodeWord 1#32 = .instr .scalar ∧ s.sched = .host :: [] := by
  decide

theorem witness_StepRunsDecodedInstruction_schedule_out :
    let s := (State.reset.withFetchWord 32 1).withSched []
    s.program = .wr 32 s.base 1#32 :: [] ∧ s.sched = [] ∧ s.busy = false
      ∧ ∀ o ∈ s.others, o.blk.regs.status.busy = false := by decide

theorem witness_StepRunsCommandOnAddressedInstance :
    let s := { twoInstances with sched := [.host], program := [.wr 32 0x100 2#32] }
    s.sched = .host :: [] ∧ s.others[0]? = some ⟨0x100, Block.reset⟩ ∧ s.instanceAt 0x100 = some (0 + 1)
      ∧ s.program = .wr 32 0x100 2#32 :: [] ∧ decodeWord 2#32 = .instr .wide := by decide

theorem witness_PresentationFollowsValidate :
    State.reset.busy = false ∧ validate 4#32 0#32 0x20#32 = some .lenPair
      ∧ validate 4#32 0xFFFFFFC0#32 0x40#32 = none := by decide

theorem witness_RejectionChangesStatusOnly :
    let s := idle 0xFFFFFFE1#32 0x20#32
    s.busy = false ∧ validate 2#32 s.regs.src s.regs.len = some .range := by decide

theorem witness_BusyCommandDropped : (running .scalar 0#32 4#32).busy = true := by decide

theorem witness_AcceptanceLatchesOperands :
    State.reset.busy = false
      ∧ ∀ i ∈ [Instr.scalar, .wide, .narrow, .popcnt, .fold],
          validate (encode i) State.reset.regs.src State.reset.regs.len = none := by decide

theorem witness_ErrorCodesByPriority_busy : (running .wide 0#32 32#32).busy = true := by decide
theorem witness_ErrorCodesByPriority_range :
    (idle 0xFFFFFFFF#32 2#32).busy = false ∧ 2 ^ 32 < (0xFFFFFFFF#32 : Word).toNat + (2#32 : Word).toNat := by
  decide
theorem witness_ErrorCodesByPriority_align :
    ¬ 2 ^ 32 < (0#32 : Word).toNat + (33#32 : Word).toNat ∧ (33#32 : Word).toNat % 32 ≠ 0 := by decide
theorem witness_ErrorCodesByPriority_pair :
    ¬ 2 ^ 32 < (0xFFFFFFE0#32 : Word).toNat + (0x20#32 : Word).toNat ∧ (0x20#32 : Word).toNat % 32 = 0
      ∧ (0x20#32 : Word).toNat / 32 % 2 = 1 := by decide
theorem witness_ErrorCodesByPriority_accept :
    ¬ 2 ^ 32 < (0xFFFFFFC0#32 : Word).toNat + (0x40#32 : Word).toNat ∧ (0x40#32 : Word).toNat % 64 = 0 := by
  decide
theorem witness_ErrorCodesByPriority_accept_scalar :
    ¬ 2 ^ 32 < (1#32 : Word).toNat + (0xFFFFFFFF#32 : Word).toNat := by decide

theorem witness_CommandFrame :
    exec .scalar (running .wide 0#32 32#32) = .next (dropCommand (running .wide 0#32 32#32))
      ∧ exec .popcnt (idle 0#32 0x20#32) = .next (rejectCommand .lenPair (idle 0#32 0x20#32)) := ⟨rfl, rfl⟩

/-- The naming clause at the last offset of the second window, and a read there. -/
theorem witness_RegisterReads :
    let s := { twoInstances with sched := [.host], program := [.rd 32 0x1FC] }
    windowsWf s.bases = true ∧ s.hasInstance 1 = true ∧ 0xFF < 0x100 ∧ s.instanceAt 0x1FC = some 1
      ∧ (0x1FC - (s.focus 1).base) % 4 = 0 ∧ s.sched = .host :: [] ∧ s.program = .rd 32 0x1FC :: [] := by decide

/-- A write to LEN of the running instance in focus, and one to the second instance. -/
theorem witness_RegisterWrites :
    let s := { running .scalar 0#32 4#32 with sched := [.host], program := [.wr 32 0x0C 9#32] }
    let u := { twoInstances with sched := [.host], program := [.wr 32 0x10C 9#32] }
    s.instanceAt 0x0C = some 0 ∧ (0x0C - (s.focus 0).base) % 4 = 0 ∧ s.sched = .host :: []
      ∧ s.program = .wr 32 0x0C 9#32 :: [] ∧ u.instanceAt 0x10C = some 1
      ∧ (0x10C - (u.focus 1).base) % 4 = 0 ∧ u.sched = .host :: [] ∧ u.program = .wr 32 0x10C 9#32 :: [] := by
  decide

theorem witness_UndefinedAccessRefused_width :
    let s := { State.reset with sched := [.host], program := [.rd 16 0xFC] }
    s.sched = .host :: [] ∧ s.instanceAt 0xFC = some 0 ∧ 16 ≠ 32 ∧ s.program = .rd 16 0xFC :: [] := by decide
theorem witness_UndefinedAccessRefused_misaligned :
    let s := { twoInstances with sched := [.host], program := [.wr 32 0x1FF 1#32] }
    s.sched = .host :: [] ∧ s.instanceAt 0x1FF = some 1 ∧ (0x1FF - (s.focus 1).base) % 4 ≠ 0
      ∧ s.program = .wr 32 0x1FF 1#32 :: [] := by decide
theorem witness_UndefinedAccessRefused_poll :
    let s := { State.reset with sched := [.host], program := [.poll 0x06 3#32 2#32] }
    s.sched = .host :: [] ∧ s.instanceAt 0x06 = some 0 ∧ (0x06 - (s.focus 0).base) % 4 ≠ 0
      ∧ s.program = .poll 0x06 3#32 2#32 :: [] := by decide

theorem witness_PollRepeatsUntilMatch :
    let s := { twoInstances with sched := [.host], program := [.poll 0x104 3#32 2#32] }
    s.instanceAt 0x104 = some 1 ∧ (0x104 - (s.focus 1).base) % 4 = 0 ∧ s.sched = .host :: []
      ∧ s.program = .poll 0x104 3#32 2#32 :: [] ∧ regRead (0x104 - (s.focus 1).base) (s.focus 1) &&& 3#32 ≠ 2#32 := by
  decide
theorem witness_PollRepeatsUntilMatch_match :
    let s := { rejectCommand .range State.reset with sched := [.host], program := [.poll 4 3#32 2#32] }
    s.instanceAt 4 = some 0 ∧ (4 - (s.focus 0).base) % 4 = 0 ∧ s.sched = .host :: []
      ∧ s.program = .poll 4 3#32 2#32 :: [] ∧ regRead (4 - (s.focus 0).base) (s.focus 0) &&& 3#32 = 2#32 := by
  decide

theorem witness_ScalarWordBeat :
    let s := running .scalar 0xFFFFFFFE#32 2#32
    s.busy = true ∧ s.eng.op = some .scalar ∧ s.eng.pos + 2 ≤ s.eng.len.toNat
      ∧ s.canRead (s.eng.src.toNat + s.eng.pos) 2
      ∧ s.quiet (s.eng.src.toNat + s.eng.pos) 2 :=
  ⟨by decide, by decide, by decide, canRead_of_all _ rfl _ _ (by decide), quiet_of_none _ rfl _ _⟩

theorem witness_ScalarTrailingByteBeat :
    let s := runningAt .scalar 0xFFFFFFFD#32 3#32 2
    s.busy = true ∧ s.eng.op = some .scalar ∧ s.eng.pos + 1 = s.eng.len.toNat
      ∧ s.canRead (s.eng.src.toNat + s.eng.pos) 1
      ∧ s.quiet (s.eng.src.toNat + s.eng.pos) 1 :=
  ⟨by decide, by decide, by decide, canRead_of_all _ rfl _ _ (by decide), quiet_of_none _ rfl _ _⟩

theorem witness_WideBeat :
    let s := running .wide 0xFFFFFFE0#32 32#32
    s.busy = true ∧ s.eng.op = some .wide ∧ s.eng.pos < s.eng.len.toNat
      ∧ s.canRead (s.eng.src.toNat + s.eng.pos) 32
      ∧ s.quiet (s.eng.src.toNat + s.eng.pos) 32 :=
  ⟨by decide, by decide, by decide, canRead_of_all _ rfl _ _ (by decide), quiet_of_none _ rfl _ _⟩

theorem witness_NarrowBeat :
    let s := runningAt .narrow 0x2001#32 64#32 32
    s.busy = true ∧ s.eng.op = some .narrow ∧ s.eng.pos < s.eng.len.toNat
      ∧ s.canRead (s.eng.src.toNat + s.eng.pos) 32
      ∧ s.quiet (s.eng.src.toNat + s.eng.pos) 32 :=
  ⟨by decide, by decide, by decide, canRead_of_all _ rfl _ _ (by decide), quiet_of_none _ rfl _ _⟩

theorem witness_PopcntBeat :
    let s := running .popcnt 0x2001#32 64#32
    s.busy = true ∧ s.eng.op = some .popcnt ∧ s.eng.pos < s.eng.len.toNat
      ∧ s.canRead (s.eng.src.toNat + s.eng.pos) 64
      ∧ s.quiet (s.eng.src.toNat + s.eng.pos) 64 :=
  ⟨by decide, by decide, by decide, canRead_of_all _ rfl _ _ (by decide), quiet_of_none _ rfl _ _⟩

/-- A beat where every read has side effects, and the completion there. -/
theorem witness_WideBeat_side_effects :
    let s := volatile (running .wide 0xFFFFFFE0#32 32#32)
    s.busy = true ∧ s.eng.op = some .wide ∧ s.eng.pos < s.eng.len.toNat
      ∧ s.canRead (s.eng.src.toNat + s.eng.pos) 32 ∧ s.isVolatile 0xFFFFFFE0 = true :=
  ⟨by decide, by decide, by decide, canRead_of_all _ rfl _ _ (by decide), by decide⟩
theorem witness_CompletionWritesResults_side_effects :
    let s := volatile (runningAt .scalar 0#32 4#32 4)
    s.busy = true ∧ s.eng.op = some .scalar ∧ s.eng.len.toNat ≤ s.eng.pos ∧ s.bufferVolatile = true := by decide

/-- Only the first 16 bytes of the chunk are readable. -/
theorem witness_UnreadableByteFaults :
    let s := { running .wide 0x1000#32 32#32 with readable := [⟨0x1000, 16⟩] }
    s.busy = true ∧ s.eng.op = some .wide ∧ Instr.wide ≠ .fold ∧ s.eng.pos < s.eng.len.toNat
      ∧ ∃ a, s.eng.src.toNat + s.eng.pos ≤ a
        ∧ a < s.eng.src.toNat + s.eng.pos + beatSize .wide s.eng.len.toNat s.eng.pos
        ∧ s.isReadable a = false :=
  ⟨by decide, by decide, by decide, by decide, 0x1010, by decide, by decide, by decide⟩

theorem witness_CompletionWritesResults :
    ∀ i ∈ [Instr.scalar, .wide, .narrow, .popcnt, .fold],
      let s := running i 0#32 0#32
      s.busy = true ∧ s.eng.op = some i ∧ s.eng.len.toNat ≤ s.eng.pos
        ∧ s.quiet s.eng.src.toNat s.eng.len.toNat := by
  intro i _
  exact ⟨rfl, rfl, by cases i <;> decide, quiet_of_none _ rfl _ _⟩

theorem witness_FoldCommandResult : (idle 0xFFFFFFFF#32 2#32).busy = false := by decide

theorem witness_ScalarCommandResult :
    let s := idle 0xFFFFFFFD#32 3#32
    s.busy = false ∧ s.engineTurnsNext (beats .scalar s.regs.len.toNat + 1) ∧ s.regs.src.toNat + s.regs.len.toNat ≤ 2 ^ 32
      ∧ s.readableBuffer s.regs.src.toNat s.regs.len.toNat :=
  ⟨by decide, engineTurns_of_empty _ rfl _, by decide, readable_of_all _ rfl rfl _ _ (by decide)⟩

/-- The hypotheses of WideCommandResult, NarrowCommandResult and WideAgreesWithScalar. -/
theorem witness_WideCommandResult :
    let s := idle 0xFFFFFFE0#32 32#32
    s.busy = false ∧ s.engineTurnsNext (beats .wide s.regs.len.toNat + 1) ∧ s.regs.src.toNat + s.regs.len.toNat ≤ 2 ^ 32
      ∧ s.regs.len.toNat % 32 = 0 ∧ s.readableBuffer s.regs.src.toNat s.regs.len.toNat :=
  ⟨by decide, engineTurns_of_empty _ rfl _, by decide, by decide, readable_of_all _ rfl rfl _ _ (by decide)⟩

theorem witness_NarrowCommandResult :
    let s := idle 0x2001#32 96#32
    s.busy = false ∧ s.engineTurnsNext (beats .narrow s.regs.len.toNat + 1) ∧ s.regs.src.toNat + s.regs.len.toNat ≤ 2 ^ 32
      ∧ s.regs.len.toNat % 32 = 0 ∧ s.readableBuffer s.regs.src.toNat s.regs.len.toNat :=
  ⟨by decide, engineTurns_of_empty _ rfl _, by decide, by decide, readable_of_all _ rfl rfl _ _ (by decide)⟩

theorem witness_WideAgreesWithScalar :
    let s := idle 0x2001#32 64#32
    s.busy = false ∧ s.engineTurnsNext (beats .scalar s.regs.len.toNat + 1) ∧ s.regs.src.toNat + s.regs.len.toNat ≤ 2 ^ 32
      ∧ s.regs.len.toNat % 32 = 0 ∧ s.readableBuffer s.regs.src.toNat s.regs.len.toNat :=
  ⟨by decide, engineTurns_of_empty _ rfl _, by decide, by decide, readable_of_all _ rfl rfl _ _ (by decide)⟩

theorem witness_PopcntCommandResult :
    let s := idle 0xFFFFFFC0#32 64#32
    s.busy = false ∧ s.engineTurnsNext (beats .popcnt s.regs.len.toNat + 1) ∧ s.regs.src.toNat + s.regs.len.toNat ≤ 2 ^ 32
      ∧ s.regs.len.toNat % 64 = 0 ∧ s.readableBuffer s.regs.src.toNat s.regs.len.toNat :=
  ⟨by decide, engineTurns_of_empty _ rfl _, by decide, by decide, readable_of_all _ rfl rfl _ _ (by decide)⟩

/-- The hypotheses of CommandTakesItsBeats and NoLossGivesReferenceChecksum. -/
theorem witness_CommandTakesItsBeats :
    ∀ i ∈ [Instr.scalar, .wide, .narrow, .popcnt, .fold],
      let s := idle 0xFFFFFFC0#32 64#32
      s.busy = false ∧ s.engineTurnsNext (beats i s.regs.len.toNat + 1) ∧ validate (encode i) s.regs.src s.regs.len = none
        ∧ s.readableBuffer s.regs.src.toNat s.regs.len.toNat := by
  intro i _
  exact ⟨by decide, engineTurns_of_empty _ rfl _, by cases i <;> decide, readable_of_all _ rfl rfl _ _ (by decide)⟩

theorem witness_NoLossGivesReferenceChecksum :
    let s := idle 0xFFFFFFC0#32 64#32
    Instr.popcnt ≠ .fold ∧ s.busy = false ∧ s.engineTurnsNext (beats .popcnt s.regs.len.toNat + 1)
      ∧ validate (encode .popcnt) s.regs.src s.regs.len = none
      ∧ s.readableBuffer s.regs.src.toNat s.regs.len.toNat :=
  ⟨by decide, by decide, engineTurns_of_empty _ rfl _, by decide, readable_of_all _ rfl rfl _ _ (by decide)⟩

/-- An idle block after reset meets the control invariant. -/
theorem idle_inv (src len : Word) : (idle src len).Inv := by
  refine ⟨rfl, by simp [windowsWf, windowBaseWf, State.bases, idle, State.reset],
    ⟨by simp [idle, Block.reset, Regs.reset, Status.reset, Engine.reset], ?_, ?_, ?_⟩,
    ?_⟩
  · intro h; cases h
  · intro h; cases h
  · intro i hi; cases hi
  · intro o ho; cases ho

/-- A host write to LEN, two engine turns and another writer's write between acceptance and completion. -/
theorem witness_ResultIndependentOfInterleaving :
    let ts := [Turn.host, .engine 0, .writer, .engine 0]
    let s := { idle 0x1000#32 2#32 with
      sched := ts, program := [.wr 32 0x0C 9#32], writers := [⟨0x1002, 1, 7⟩] }
    s.Inv ∧ s.busy = false ∧ validate (encode .scalar) s.regs.src s.regs.len = none
      ∧ s.quiet s.regs.src.toNat s.regs.len.toNat ∧ s.sched = ts ++ [] ∧ Turn.reset 0 ∉ ts
      ∧ ts.count (.engine 0) = beats .scalar s.regs.len.toNat + 1 ∧ ts.getLast? = some (.engine 0)
      ∧ ∃ t u, exec .scalar s = .next t ∧ Host.Core.run core ts.length t = .next u := by
  obtain ⟨a, b, c, d⟩ := idle_inv 0x1000#32 2#32
  exact ⟨⟨a, b, c, d⟩, by decide, by decide, quiet_of_none _ rfl _ _, by decide, by decide, by decide, by decide,
    _, _, rfl, rfl⟩

/-- A running SCALAR meets both invariants. -/
theorem running_inv : (running .scalar 0x1000#32 4#32).Inv ∧ (running .scalar 0x1000#32 4#32).DataInv := by
  refine ⟨⟨by decide, by decide, ⟨by decide, by decide, by decide, ?_⟩, ?_⟩, ⟨fun _ => ?_, ?_⟩⟩
  · intro i hi
    obtain rfl : Instr.scalar = i := by simpa [running, acceptCommand, latch] using hi
    exact ⟨by decide, by decide, .inl (by decide)⟩
  · intro o ho; cases ho
  · exact ⟨by decide, by decide⟩
  · intro o ho; cases ho

/-- The hypotheses of StepKeepsControlInvariant and StepKeepsPartialSums: a running command's first beat. -/
theorem witness_StepKeepsPartialSums :
    (running .scalar 0x1000#32 4#32).Inv ∧ (running .scalar 0x1000#32 4#32).DataInv
      ∧ ∃ t, step (running .scalar 0x1000#32 4#32) = .next t := ⟨running_inv.1, running_inv.2, _, rfl⟩

theorem witness_StepKeepsControlInvariant :
    (running .scalar 0x1000#32 4#32).Inv ∧ ∃ t, step (running .scalar 0x1000#32 4#32) = .next t :=
  ⟨running_inv.1, _, rfl⟩

theorem witness_CompletionGivesReferenceChecksum :
    let s := running .scalar 0x1000#32 0#32
    s.Inv ∧ s.DataInv ∧ s.eng.op = some .scalar ∧ Instr.scalar ≠ .fold ∧ s.eng.pos = s.eng.len.toNat
      ∧ s.quiet s.eng.src.toNat s.eng.len.toNat ∧ ∃ t, engineStep s = .next t := by
  refine ⟨⟨by decide, by decide, ⟨by decide, by decide, by decide, ?_⟩, ?_⟩, ⟨fun _ => ?_, ?_⟩, rfl, by decide,
    by decide, quiet_of_none _ rfl _ _, _, rfl⟩
  · intro i hi
    obtain rfl : Instr.scalar = i := by simpa [running, acceptCommand, latch] using hi
    exact ⟨by decide, by decide, .inl (by decide)⟩
  · intro o ho; cases ho
  · exact ⟨by decide, by decide⟩
  · intro o ho; cases ho

theorem witness_ResetAbandonsCommand :
    ((running .wide 0#32 32#32).withSched [.reset 0]).sched = .reset 0 :: [] := by decide

theorem witness_ResetAbandonsCommand_other :
    let s := { twoInstances with sched := [.reset 1] }
    s.sched = .reset (0 + 1) :: [] ∧ s.others[0]? = some ⟨0x100, Block.reset⟩ := by decide

theorem witness_EngineNeverWritesMemory :
    ∃ t, takeTurn (.engine 0) (running .scalar 0x1000#32 4#32) = .next t := ⟨_, rfl⟩

/-- A completion that changes RESULT. -/
theorem witness_ResultsChangeOnlyAtCompletion :
    ∃ t, step (running .scalar 0#32 0#32) = .next t
      ∧ t.regs.result ≠ (running .scalar 0#32 0#32).regs.result := ⟨_, rfl, by decide⟩

theorem witness_BusyChanges_set :
    ∃ t, step (State.reset.withFetchWord 32 1) = .next t
      ∧ (State.reset.withFetchWord 32 1).busy = false ∧ t.busy = true := ⟨_, rfl, by decide, by decide⟩
theorem witness_BusyChanges_cleared :
    ∃ t, step (running .wide 0#32 0#32) = .next t ∧ (running .wide 0#32 0#32).busy = true ∧ t.busy = false :=
  ⟨_, rfl, by decide, by decide⟩

theorem witness_DropIsSticky :
    let s := { dropCommand (running .scalar 0#32 4#32) with sched := [.host], program := [.wr 32 4 0xA#32] }
    ∃ t, step s = .next t ∧ s.regs.status.drop = true ∧ t.regs.status.drop = false :=
  ⟨_, rfl, by decide, by decide⟩

/-- A completion sets DONE. -/
theorem witness_DoneOvfErr_done_set :
    ∃ t, step (running .wide 0#32 0#32) = .next t ∧ (running .wide 0#32 0#32).regs.status.done = false
      ∧ t.regs.status.done = true := ⟨_, rfl, by decide, by decide⟩
/-- A write of 1 to bit 1 of STATUS clears it. -/
theorem witness_DoneOvfErr_done_cleared :
    let s := { rejectCommand .range State.reset with sched := [.host], program := [.wr 32 4 2#32] }
    ∃ t, step s = .next t ∧ s.regs.status.done = true ∧ t.regs.status.done = false :=
  ⟨_, rfl, by decide, by decide⟩
/-- A rejection changes ERR, and an OVF that stood from an earlier completion. -/
theorem witness_DoneOvfErr_ovf_err :
    let s := { (State.reset.withStatus ⟨false, true, true, false, none⟩) with
      sched := [.host], program := [.wr 32 0 6#32] }
    ∃ t, step s = .next t ∧ t.regs.status.ovf ≠ s.regs.status.ovf ∧ t.regs.status.err ≠ s.regs.status.err :=
  ⟨_, rfl, by decide, by decide⟩

theorem witness_HostRegistersWrittenByHostOnly :
    ∀ off ∈ [0x08, 0x0C, 0x10],
      ∃ t, step { State.reset with sched := [.host], program := [.wr 32 off 9#32] } = .next t
        ∧ t.regs ≠ State.reset.regs := by
  intro off h
  fin_cases h <;> exact ⟨_, rfl, by decide⟩

/-- The last byte of the buffer, and the byte after it. -/
theorem witness_BufferWriteWhileBusyFaults :
    let s := running .scalar 0x1000#32 4#32
    s.mem.wf = true ∧ 0x1003 + 1 ≤ 2 ^ 32
      ∧ (∃ a, 0x1003 ≤ a ∧ a < 0x1003 + 1 ∧ s.bufferHolds a = true)
      ∧ ∀ a, 0x1004 ≤ a → a < 0x1004 + 1 → s.bufferHolds a = false := by
  refine ⟨by decide, by decide, ⟨0x1003, by decide, by decide, by decide⟩, fun a h1 h2 => ?_⟩
  obtain rfl : a = 0x1004 := by omega
  decide
theorem witness_BufferWriteWhileBusyFaults_turns :
    let s := { running .scalar 0x1000#32 4#32 with
      sched := [.writer], writers := [⟨0x1000, 1, 7⟩], program := [.store 0x1003 1 7] }
    s.busy = true ∧ s.sched = .writer :: [] ∧ s.writers = ⟨0x1000, 1, 7⟩ :: []
      ∧ (s.withSched [.host]).sched = .host :: [] ∧ s.program = .store 0x1003 1 7 :: [] := by decide

theorem witness_InstancesShareNothing :
    (∃ t, takeTurn (.engine 1) twoInstances = .next t) ∧ (∃ t, takeTurn (.reset 1) twoInstances = .next t)
      ∧ (∃ t, takeTurn (.engine 0) twoInstances = .next t)
      ∧ ∃ t, engineStep (running .scalar 0x1000#32 4#32) = .next t := ⟨⟨_, rfl⟩, ⟨_, rfl⟩, ⟨_, rfl⟩, ⟨_, rfl⟩⟩

/-- The second instance runs a command and has the turn, by the schedule and by the default order. -/
theorem witness_InstancesShareNothing_engine :
    let s := { State.reset with others := [⟨0x100, (running .scalar 0x1000#32 4#32).blk⟩], sched := [.engine 1] }
    s.sched = .engine (0 + 1) :: [] ∧ s.others[0]? = some ⟨0x100, (running .scalar 0x1000#32 4#32).blk⟩
      ∧ nextTurn s = .engine 1 ∧ nextTurn (s.withSched []) = .engine 1 ∧ s.hasInstance 1 = true := by decide
/-- A completion of FOLD (vector P4) on the second instance reaches that instance's RESULT. -/
theorem test_other_engine_completes :
    let b := (acceptCommand .fold (State.reset.withBlk
      { Block.reset with regs := { Regs.reset with sumIn := 0x12345678#32 } })).blk
    let s := { State.reset with others := [⟨0x100, b⟩], sched := [.engine 1] }
    ((after State.reset (step s)).others.map fun o => o.blk.regs.result) = [0x9753#16] := by decide

/-- A host's register write to the second instance, and a read and a poll of it. -/
theorem witness_InstancesShareNothing_host :
    (∃ t, takeTurn .host { twoInstances with program := [.wr 32 0x108 7#32] } = .next t)
      ∧ twoInstances.instanceAt 0x108 = some (0 + 1) ∧ twoInstances.instanceAt 0x08 = some 0
      ∧ (∃ t, takeTurn .host { twoInstances with program := [.wr 32 0x08 7#32] } = .next t)
      ∧ (∃ t, takeTurn .host { twoInstances with program := [.rd 32 0x108] } = .next t)
      ∧ ∃ t, takeTurn .host { twoInstances with program := [.poll 0x104 3#32 2#32] } = .next t :=
  ⟨⟨_, rfl⟩, by decide, by decide, ⟨_, rfl⟩, ⟨_, rfl⟩, ⟨_, rfl⟩⟩

end Sys2Proof.Tests
end

section
/-! PROOFS. The state after reset (R32): what CMD reads, the STATUS word, the vectors of `E`, and O47. -/

namespace Sys2Proof.Machine

/-- CMD stores nothing, so it reads 0 in every state (R16). -/
@[simp] theorem regRead_cmd (s : State) : regRead 0x00 s = 0 := rfl

/-- With every flag down and no error code, the STATUS word has no bit set (R17, R32). -/
@[simp] theorem statusWord_reset : statusWord Status.reset = 0x00000000#32 := by decide

/-- Every 32-bit lane of the wide accumulator is 0 (R32). -/
theorem Engine.reset_v_get (i : Fin 8) : Engine.reset.v[i] = 0 :=
  Vector.getElem_replicate i.isLt

/-- Every 16-bit lane of the narrow vectors is 0 (R32). -/
theorem Engine.reset_narrow_get (i : Fin 16) :
    Engine.reset.a[i] = 0 ∧ Engine.reset.b[i] = 0 ∧ Engine.reset.c[i] = 0 :=
  ⟨Vector.getElem_replicate i.isLt, Vector.getElem_replicate i.isLt, Vector.getElem_replicate i.isLt⟩

/-- Settles O47: the scalar registers and fields hold their value by definition of the reset state; STATUS,
CMD and the lanes of `E` by the lemmas above. -/
theorem resetValues : Obligations.ResetValues :=
  ⟨statusWord_reset, rfl, rfl, rfl, rfl, rfl, rfl, regRead_cmd State.reset,
    rfl, rfl, rfl, rfl, rfl, rfl, Engine.reset_v_get, Engine.reset_narrow_get, rfl, rfl⟩

end Sys2Proof.Machine
end

section
/-! PROOFS. The engine and memory: a beat that meets an unreadable byte faults (R36, O36), and no engine's
turn writes memory (R35, O53). -/

namespace Sys2Proof.Machine

/-! ### An unreadable byte -/

/-- An address in the range has the property, so the search stops at one. -/
theorem firstAddr_isSome {p : Nat → Bool} {addr n a : Nat} (h1 : addr ≤ a) (h2 : a < addr + n)
    (hp : p a = true) : ∃ b, firstAddr p addr n = some b := by
  refine Option.ne_none_iff_exists'.1 fun hn => ?_
  have hfalse : p a = false := (firstAddr_eq_none_iff p addr n).1 hn a h1 h2
  simp [hp] at hfalse

/-- The counterpart of `readingBeat_of_readable`: a reading beat over an unreadable byte faults with such a
byte. -/
theorem readingBeat_of_unreadable {n : Nat} (f : State → Engine) {s : State}
    (h : ∃ a, s.readAddr ≤ a ∧ a < s.readAddr + n ∧ s.isReadable a = false) :
    ∃ a, s.readAddr ≤ a ∧ a < s.readAddr + n ∧ s.isReadable a = false
      ∧ readingBeat n f s = .fault (.bufferNotReadable a) := by
  obtain ⟨a, h1, h2, hr⟩ := h
  obtain ⟨b, hb⟩ := firstAddr_isSome (p := fun a => !s.isReadable a) h1 h2 (by simp [hr])
  obtain ⟨hb1, hb2, hbr, -⟩ := firstAddr_some _ _ _ _ hb
  refine ⟨b, hb1, hb2, by simpa using hbr, ?_⟩
  rw [readingBeat, State.firstUnreadable, hb]

/-- With bytes left, a busy engine's step is the beat of its command (R70). -/
theorem engineStep_eq_beat {s : State} {i : Instr} (hb : s.busy = true) (hop : s.eng.op = some i)
    (hlt : s.eng.pos < s.eng.len.toNat) : engineStep s = beat i s := by
  simp [engineStep, hb, hop, hlt]

/-- Settles O36: the engine step is the command's beat, every beat is a reading beat, and a reading beat over
an unreadable byte faults with such a byte. -/
theorem unreadableByteFaults : Obligations.UnreadableByteFaults := by
  intro s i hb hop hi hlt hbad
  rw [engineStep_eq_beat hb hop hlt, beat_eq i hi]
  exact readingBeat_of_unreadable (beatEngine i) hbad

/-! ### Memory under an engine's turn -/

/-- Completion writes registers and the engine, not memory (R35, R71). -/
@[simp] theorem complete_mem (i : Instr) (s : State) : (complete i s).mem = s.mem := rfl

/-- Idle, a beat or a completion: none of the three writes memory. -/
theorem engineStep_mem {s t : State} (h : engineStep s = .next t) : t.mem = s.mem := by
  rcases engineStep_cases s t h with ⟨-, rfl⟩ | ⟨-, i, -, -, -, -, rfl⟩ | ⟨-, i, -, -, rfl⟩
  · rfl
  · simp
  · simp

/-- Done on any instance, what keeps memory keeps it, since memory is no instance's (R33, R34). -/
theorem onInstance_mem {k : Nat} {f : State → Host.Outcome State Fault Refusal} {s t : State}
    (hf : ∀ r u, f r = .next u → u.mem = r.mem) (h : onInstance k f s = .next t) : t.mem = s.mem := by
  obtain ⟨u, hu, rfl⟩ := onInstance_next k f s t h
  calc (u.focus k).mem = u.mem := State.focus_mem u k
    _ = (s.focus k).mem := hf _ _ hu
    _ = s.mem := State.focus_mem s k

/-- An engine's turn is its step on an existing instance; on any other it passes (log 25). -/
theorem takeTurn_engine_mem {k : Nat} {s t : State} (h : takeTurn (.engine k) s = .next t) :
    t.mem = s.mem := by
  rw [takeTurn] at h
  split at h
  · exact onInstance_mem (fun _ _ => engineStep_mem) h
  · cases h; rfl

/-- Settles O53: memory is the same list of cells, so every byte reads the same. -/
theorem engineNeverWritesMemory : Obligations.EngineNeverWritesMemory := by
  intro s t k h
  have hmem : t.mem = s.mem := takeTurn_engine_mem h
  exact ⟨hmem, fun a => by rw [hmem]⟩

end Sys2Proof.Machine
end

section
/-! PROOFS. Command words (R53 to R55): the decoder reads a command from exactly one word, and every other word
is rejected with ILLEGAL_CMD (O4). -/

namespace Sys2Proof

/-- A command word is its reserved bits above its opcode (R53). -/
theorem rsvField_append_opcField (w : Word) : rsvField w ++ opcField w = w := by
  rw [rsvField, opcField, BitVec.extractLsb'_append_extractLsb'_eq_extractLsb' (by rfl)]
  exact BitVec.extractLsb'_eq_self

/-- No command word has a reserved bit set (R54). -/
@[simp] theorem rsvField_encode (i : Instr) : rsvField (encode i) = 0 := by
  cases i <;> decide

/-- The operation selector gives each command for the opcode of its word (R54). -/
@[simp] theorem decodeOpc_opcField_encode (i : Instr) : decodeOpc (opcField (encode i)) = some i := by
  cases i <;> decide

/-- The operation selector gives a command for no other opcode (R54, R55). -/
theorem opc_eq_of_decodeOpc {opc : BitVec 4} {i : Instr} (h : decodeOpc opc = some i) :
    opc = opcField (encode i) := by
  unfold decodeOpc at h
  repeat' split at h
  all_goals cases h
  all_goals assumption

/-- A word decodes as a command exactly when it is that command's word (R54): its fields are then those of the
command's word. -/
theorem decodeWord_eq_instr_iff {w : Word} {i : Instr} : decodeWord w = .instr i ↔ w = encode i := by
  constructor
  · intro h
    unfold decodeWord at h
    split at h
    next hrsv =>
      split at h
      next j hopc =>
        cases h
        calc w = rsvField w ++ opcField w := (rsvField_append_opcField w).symm
          _ = rsvField (encode i) ++ opcField (encode i) := by
            rw [hrsv, rsvField_encode, opc_eq_of_decodeOpc hopc]
          _ = encode i := rsvField_append_opcField (encode i)
      next => cases h
    next => cases h
  · rintro rfl
    simp [decodeWord]

namespace Machine

/-- An illegal word presented to an idle block is rejected with ILLEGAL_CMD (R55, R68). -/
theorem presentIllegal_rejects {s : State} (hb : s.busy = false) :
    presentIllegal s = .next (rejectCommand .illegalCmd s) := by
  simp [presentIllegal, hb]

/-- A word that is no command's word is presented as illegal (R55). -/
theorem presentCommand_illegal {w : Word} (hw : ∀ i, w ≠ encode i) (s : State) :
    presentCommand w s = presentIllegal s := by
  unfold presentCommand
  split
  next i hi => exact absurd (decodeWord_eq_instr_iff.1 hi) (hw i)
  next => rfl

/-- Settles O4: the five excluded words are the words of the five commands, so the word is presented as
illegal, and rejection writes ERR, DONE and OVF only. -/
theorem illegalWordRejected : Obligations.IllegalWordRejected := by
  intro w s hb hscalar hwide hnarrow hpopcnt hfold
  have hw : ∀ i, w ≠ encode i
    | .scalar => hscalar
    | .wide => hwide
    | .narrow => hnarrow
    | .popcnt => hpopcnt
    | .fold => hfold
  calc presentCommand w s = presentIllegal s := presentCommand_illegal hw s
    _ = .next (rejectCommand .illegalCmd s) := presentIllegal_rejects hb

end Machine

end Sys2Proof
end

section
/-! PROOFS. Presenting a command word (R66 to R69): what a CMD write answers while the block is busy (O10), and
how it follows R67's `Validate` on an idle block (O8, O9, O11). -/

namespace Sys2Proof

/-- The operation selector knows every opcode from 1 to 5 (R54). -/
theorem decodeOpc_isSome : ∀ opc : BitVec 4, 1 ≤ opc.toNat → opc.toNat ≤ 5 → (decodeOpc opc).isSome = true := by
  decide

/-- A word with no reserved bit set and an opcode from 1 to 5 is some command's word (R54). -/
theorem exists_eq_encode {w : Word} (hrsv : rsvField w = 0) (h1 : 1 ≤ (opcField w).toNat)
    (h5 : (opcField w).toNat ≤ 5) : ∃ i, w = encode i := by
  obtain ⟨i, hi⟩ := Option.isSome_iff_exists.1 (decodeOpc_isSome _ h1 h5)
  exact ⟨i, decodeWord_eq_instr_iff.1 (by simp [decodeWord, hrsv, hi])⟩

namespace Machine

/-- `Validate` answers ILLEGAL_CMD for every word that is no command's word (R55, R67). -/
theorem validate_illegal {w : Word} (hw : ∀ i, w ≠ encode i) (src len : Word) :
    validate w src len = some .illegalCmd := by
  rw [validate, if_pos]
  by_contra hlegal
  obtain ⟨hrsv, h1, h5⟩ := not_or.1 hlegal |>.imp not_not.1 not_not.1
  obtain ⟨i, hi⟩ := exists_eq_encode hrsv h1 h5
  exact hw i hi

/-- A CMD write of a command's word is exec of the command (R67). -/
@[simp] theorem presentCommand_encode (i : Instr) (s : State) : presentCommand (encode i) s = exec i s := by
  rw [presentCommand, decodeWord_eq_instr_iff.2 rfl]

/-- While busy a CMD write of any word is dropped (R66). -/
theorem presentCommand_busy {w : Word} {s : State} (hb : s.busy = true) :
    presentCommand w s = .next (dropCommand s) := by
  unfold presentCommand
  split
  · exact exec_drops _ s hb
  · simp [presentIllegal, hb]

/-- An idle block rejects a word with the code `Validate` gives (R67, R68). -/
theorem presentCommand_rejects {w : Word} {s : State} {e : Reject} (hb : s.busy = false)
    (hv : validate w s.regs.src s.regs.len = some e) : presentCommand w s = .next (rejectCommand e s) := by
  by_cases hw : ∃ i, w = encode i
  · obtain ⟨i, rfl⟩ := hw
    rw [validate_encode] at hv
    rw [presentCommand_encode, exec_rejects i s hb e hv]
  · have hw' := not_exists.1 hw
    obtain rfl : Reject.illegalCmd = e := Option.some.inj ((validate_illegal hw' _ _).symm.trans hv)
    rw [presentCommand_illegal hw' s, presentIllegal_rejects hb]

/-- A word `Validate` passes is a command's word, and an idle block accepts that command (R67, R69). -/
theorem presentCommand_accepts {w : Word} {s : State} (hb : s.busy = false)
    (hv : validate w s.regs.src s.regs.len = none) :
    ∃ i, decodeWord w = .instr i ∧ presentCommand w s = .next (acceptCommand i s) := by
  by_cases hw : ∃ i, w = encode i
  · obtain ⟨i, rfl⟩ := hw
    rw [validate_encode] at hv
    exact ⟨i, decodeWord_eq_instr_iff.2 rfl, by rw [presentCommand_encode, exec_accepts i s hb hv]⟩
  · rw [validate_illegal (not_exists.1 hw)] at hv
    cases hv

/-- Settles O8. -/
theorem presentationFollowsValidate : Obligations.PresentationFollowsValidate :=
  fun _ _ hb => ⟨fun _ => presentCommand_rejects hb, presentCommand_accepts hb⟩

/-- Settles O9: the answer is `rejectCommand`, which writes STATUS alone; BUSY is 0 as it was. -/
theorem rejectionChangesStatusOnly : Obligations.RejectionChangesStatusOnly := by
  intro w s e hb hv
  refine ⟨rejectCommand e s, presentCommand_rejects hb hv, ?_, rfl, rfl, rfl, fun _ => rfl⟩
  simp [rejectCommand, statusRejected, hb]

/-- Settles O10: the answer is `dropCommand`, which sets DROP alone. -/
theorem busyCommandDropped : Obligations.BusyCommandDropped :=
  fun _ s hb => ⟨dropCommand s, presentCommand_busy hb, rfl, rfl, rfl, rfl⟩

/-- Acceptance clears every lane of the wide accumulator (R69). -/
theorem latch_v_get (i : Instr) (r : Regs) (j : Fin 8) : (latch i r).v[j] = 0 :=
  Vector.getElem_replicate j.isLt

/-- Acceptance clears every lane of the narrow accumulators and the carry accumulator (R69). -/
theorem latch_narrow_get (i : Instr) (r : Regs) (j : Fin 16) :
    (latch i r).a[j] = 0 ∧ (latch i r).b[j] = 0 ∧ (latch i r).c[j] = 0 :=
  ⟨Vector.getElem_replicate j.isLt, Vector.getElem_replicate j.isLt, Vector.getElem_replicate j.isLt⟩

/-- An idle block accepts every command whose word `Validate` passes (R67, R69). -/
theorem exec_accepts_of_validate {i : Instr} {s : State} (hb : s.busy = false)
    (hv : validate (encode i) s.regs.src s.regs.len = none) : exec i s = .next (acceptCommand i s) :=
  exec_accepts i s hb (validate_encode i _ _ ▸ hv)

/-- Settles O11: the answer is `acceptCommand`, whose engine is `latch`. -/
theorem acceptanceLatchesOperands : Obligations.AcceptanceLatchesOperands :=
  fun i s hb hv => ⟨acceptCommand i s, exec_accepts_of_validate hb hv, rfl, rfl, rfl, rfl, rfl, rfl, rfl, rfl,
    rfl, rfl, rfl, latch_v_get i s.regs, latch_narrow_get i s.regs⟩

end Machine

end Sys2Proof
end

section
/-! PROOFS. The host's register accesses (R62 to R65): the bits of STATUS and their write-1-to-clear (O15), reads
(O16), writes (O17) and refused accesses (O18) on the instance the address names. -/

namespace Sys2Proof.Machine

/-! ### STATUS, bit by bit -/

@[simp] theorem statusWord_busy (st : Status) : (statusWord st)[0] = st.busy := by
  simp only [statusWord, ← BitVec.getLsbD_eq_getElem, BitVec.getLsbD_append]
  simp

@[simp] theorem statusWord_done (st : Status) : (statusWord st)[1] = st.done := by
  simp only [statusWord, ← BitVec.getLsbD_eq_getElem, BitVec.getLsbD_append]
  simp

@[simp] theorem statusWord_ovf (st : Status) : (statusWord st)[2] = st.ovf := by
  simp only [statusWord, ← BitVec.getLsbD_eq_getElem, BitVec.getLsbD_append]
  simp

@[simp] theorem statusWord_drop (st : Status) : (statusWord st)[3] = st.drop := by
  simp only [statusWord, ← BitVec.getLsbD_eq_getElem, BitVec.getLsbD_append]
  simp

/-- From bit 4 on STATUS holds the error code and zeros (R17). -/
theorem statusWord_getLsbD_err (st : Status) (j : Nat) :
    (statusWord st).getLsbD (j + 4) = (0#24 ++ errCode st.err).getLsbD j := by
  rw [statusWord, BitVec.getLsbD_append, if_neg (by omega), Nat.add_sub_cancel]

/-- The write-1-to-clear of R64, bit by bit. -/
theorem statusW1C_getLsbD (v : Word) (st : Status) : ∀ j, (statusWord (statusW1C v st)).getLsbD j
    = ((statusWord st).getLsbD j && !((j == 1 || j == 3) && v.getLsbD j))
  | 0 => by simp [statusW1C]
  | 1 => by simp [statusW1C]
  | 2 => by simp [statusW1C]
  | 3 => by simp [statusW1C]
  | j + 4 => by simp [statusWord_getLsbD_err, statusW1C]

/-- Settles O15: the write is `statusW1C` on STATUS alone. -/
theorem statusWriteOneToClear : Obligations.StatusWriteOneToClear :=
  fun v s => ⟨s.withStatus (statusW1C v s.regs.status), rfl, statusW1C_getLsbD v s.regs.status, rfl, rfl, rfl⟩

/-! ### Which instance an address names -/

/-- A window holds its own addresses (R52). -/
theorem windowHolds_base_add {base off : Nat} (h : off < 0x100) : windowHolds base (base + off) = true := by
  simp [windowHolds, h]

/-- Legal windows that share an address have the same base: bases are 256 bytes apart, as windows are long
(R7, R52). -/
theorem base_eq_of_windowHolds {b b' addr : Nat} (hb : windowBaseWf b = true) (hb' : windowBaseWf b' = true)
    (h : windowHolds b addr = true) (h' : windowHolds b' addr = true) : b = b' := by
  simp only [windowBaseWf, windowHolds, Config.windowAlign, Config.windowBytes, beq_iff_eq, Bool.and_eq_true, decide_eq_true_eq] at *
  omega

/-- Legal and distinct windows, split at the instance in focus (R7). -/
theorem windowsWf_bases {s : State} (h : windowsWf s.bases = true) :
    (windowBaseWf s.base = true ∧ ∀ o ∈ s.others, windowBaseWf o.base = true)
      ∧ (∀ o ∈ s.others, o.base ≠ s.base) ∧ (s.others.map (·.base)).Nodup := by
  simpa [windowsWf, State.bases, and_assoc] using h

/-- Under legal and distinct windows an address in the window of instance `k + 1` names that instance: neither
the window in focus nor any other slot's holds it. -/
theorem instanceAt_other {s : State} (hw : windowsWf s.bases = true) {k off : Nat} {o : Slot}
    (ho : s.others[k]? = some o) (h : off < 0x100) : s.instanceAt (o.base + off) = some (k + 1) := by
  obtain ⟨⟨hbase, hothers⟩, hfocus, hnodup⟩ := windowsWf_bases hw
  obtain ⟨hk, rfl⟩ := List.getElem?_eq_some_iff.1 ho
  have hmem := List.getElem_mem hk
  have hhere := windowHolds_base_add (base := s.others[k].base) h
  have hnot : ¬ windowHolds s.base (s.others[k].base + off) = true := fun hh =>
    hfocus _ hmem (base_eq_of_windowHolds (hothers _ hmem) hbase hhere hh)
  have hfind : s.others.findIdx? (fun o => windowHolds o.base (s.others[k].base + off)) = some k := by
    refine List.findIdx?_eq_some_iff_getElem.2 ⟨hk, hhere, fun j hj hh => ?_⟩
    have hbases := base_eq_of_windowHolds (hothers _ (List.getElem_mem (by omega))) (hothers _ hmem) hh hhere
    have hjk : j = k := (List.Nodup.getElem_inj_iff hnodup (i := j) (j := k)
      (hi := by simp; omega) (hj := by simpa using hk)).1 (by simpa using hbases)
    omega
  rw [State.instanceAt, if_neg hnot, hfind, Option.map_some]

/-- Under legal and distinct windows every address of an existing instance's window names that instance. -/
theorem instanceAt_window {s : State} (hw : windowsWf s.bases = true) {k off : Nat}
    (hk : s.hasInstance k = true) (h : off < 0x100) : s.instanceAt ((s.focus k).base + off) = some k := by
  cases k with
  | zero => exact instanceAt_focus s off h
  | succ k =>
    obtain ⟨o, ho⟩ := State.others_of_hasInstance s k hk
    rw [State.focus_succ_some s k o ho]
    exact instanceAt_other hw ho h

/-! ### The host's turn on that instance -/

/-- A scheduled host turn is the next operation of the host's program. -/
theorem step_scheduled_host {s : State} {op : HostOp} {p : List HostOp} {rest : List Turn}
    (hs : s.sched = .host :: rest) (hp : s.program = op :: p) :
    step s = hostOp op ((s.withSched rest).withProgram p) := by
  rw [step_host s op p hp (nextTurn_sched s _ _ hs), hs, List.tail_cons]

/-- Reserved offsets read 0 (R62). -/
theorem regRead_reserved {off : Nat} (h : 0x20 ≤ off) (s : State) : regRead off s = 0 := by
  unfold regRead
  iterate 7 rw [if_neg (by omega)]

/-- A write to a read-only or reserved offset has no effect (R63). -/
theorem regWrite_ignored {off : Nat} (h : 0x14 ≤ off) (v : Word) (s : State) : regWrite off v s = .next s := by
  unfold regWrite
  iterate 5 rw [if_neg (by omega)]

/-- A register's value does not depend on the agents' own data. -/
@[simp] theorem regRead_withSched (off : Nat) (s : State) (ts : List Turn) :
    regRead off (s.withSched ts) = regRead off s := rfl
@[simp] theorem regRead_withProgram (off : Nat) (s : State) (p : List HostOp) :
    regRead off (s.withProgram p) = regRead off s := rfl

/-- Settles O16: the values by the offset, the naming by `instanceAt_window`, and a read's step by the access at
its offset on the instance named. -/
theorem registerReads : Obligations.RegisterReads := by
  refine ⟨fun s => ⟨rfl, rfl, rfl, rfl, rfl, rfl, rfl, rfl, fun off h => regRead_reserved h s⟩,
    fun s k off hw hk h => instanceAt_window hw hk h, ?_⟩
  intro s rest p addr k hk h4 hs hp
  rw [step_scheduled_host hs hp, hostOp, registerAccess_at _ addr k _ (by simpa using hk) (by simpa using h4)]
  simp [readOf]

/-- Settles O17: the registers by their offset, and a write's step by the access at its offset on the instance
named. -/
theorem registerWrites : Obligations.RegisterWrites := by
  refine ⟨fun v s => ⟨⟨_, rfl, rfl, rfl, rfl⟩, ⟨_, rfl, rfl, rfl, rfl⟩, ⟨_, rfl, rfl, rfl, rfl⟩, rfl, rfl,
    fun off h => regWrite_ignored h v s⟩, ?_⟩
  intro s rest p addr k v hk h4 hs hp
  obtain ⟨t, ht⟩ := regWrite_next (addr - (s.focus k).base) v
    ((((s.withSched rest).withProgram p).note (.regWrite addr v)).focus k)
  refine ⟨t, ht, ?_⟩
  rw [step_scheduled_host hs hp, hostOp, registerAccess_at _ addr k _ (by simpa using hk) (by simpa using h4)]
  simp only [State.focus_withProgram, State.focus_withSched, State.withProgram_base, State.withSched_base]
  rw [onInstance, ht, outcomeMap]

/-- Settles O18: a read, a write and a poll are one access each, and an access R65 does not define is refused at
every instance's window. -/
theorem undefinedAccessRefused : Obligations.UndefinedAccessRefused := by
  intro s rest p width addr k hs hk hbad hp
  have hrefused : ∀ f, registerAccess width addr f ((s.withSched rest).withProgram p)
      = .refused (.undefinedAccess width addr) := fun f =>
    registerAccess_refused _ width addr k f (by simpa using hk) (by simpa using hbad)
  rcases hp with hp | ⟨v, hp⟩ | ⟨rfl, mask, val, hp⟩
  all_goals
    rw [step_scheduled_host hs hp, hostOp]
    exact hrefused _

end Sys2Proof.Machine
end

section
/-! PROOFS. Completion (R71) writes the four results and STATUS in one step (O37), and nothing else but a reset
changes RESULT, SUM and CARRY (R72, O54). -/

namespace Sys2Proof.Machine

/-! ### The completion step -/

/-- What completion leaves of the registers: the results may be new, STATUS is as R71 says. -/
theorem complete_regs (i : Instr) (s : State) :
    (complete i s).regs = { s.regs with
      sum := (complete i s).regs.sum, carry := (complete i s).regs.carry,
      result := (complete i s).regs.result,
      status := statusCompleted (complete i s).regs.status.ovf s.regs.status } := by
  simp only [complete, State.tick_regs, State.withBlk_regs]
  split <;> rfl

/-- On a buffer whose reads have no side effects the results are the command's final values (R71). -/
theorem complete_regs_quiet (i : Instr) {s : State} (hq : s.quiet s.eng.src.toNat s.eng.len.toNat) :
    (complete i s).regs = completedRegs (finalOf i s.eng).sum (finalOf i s.eng).carry
      (fold (finalOf i s.eng).sum) (s.eng.ovf || (finalOf i s.eng).loss) s.regs := by
  simp [complete, State.bufferVolatile_quiet s hq]

/-- Settles O37: the step is `complete`; the statement's S, K and f are `finalOf`, command by command. -/
theorem completionWritesResults : Obligations.CompletionWritesResults := by
  intro s i hb hop hle ra rb rc f
  have hf : f = ((finalOf i s.eng).sum, (finalOf i s.eng).carry, (finalOf i s.eng).loss) := by
    cases i <;> rfl
  refine ⟨complete i s, engineStep_complete s i hb hop hle, complete_regs i s, fun hq => ?_, rfl, rfl,
    fun _ => rfl⟩
  rw [complete_regs_quiet i hq, hf]
  exact ⟨rfl, rfl, rfl, rfl⟩

/-! ### The results between completions -/

/-- RESULT, SUM and CARRY are the same in both register files (R72). -/
structure SameResults (r u : Regs) : Prop where
  result : u.result = r.result
  sum : u.sum = r.sum
  carry : u.carry = r.carry

theorem SameResults.refl (r : Regs) : SameResults r r := ⟨rfl, rfl, rfl⟩

/-- No CMD write changes a result: dropping, rejecting and accepting write STATUS and the engine. -/
theorem presentCommand_sameResults {w : Word} {s t : State} (h : presentCommand w s = .next t) :
    SameResults s.regs t.regs := by
  rcases presentCommand_cases w s t h with ⟨-, rfl⟩ | ⟨-, r, rfl⟩ | ⟨-, i, -, -, rfl⟩ <;> exact ⟨rfl, rfl, rfl⟩

/-- No register write changes a result (R63, R72). -/
theorem regWrite_sameResults {off : Nat} {v : Word} {s t : State} (h : regWrite off v s = .next t) :
    SameResults s.regs t.regs := by
  rcases regWrite_cases off v s t h with ⟨-, h⟩ | ⟨-, rfl⟩ | ⟨-, rfl⟩ | ⟨-, rfl⟩ | ⟨-, rfl⟩ | rfl
  · exact presentCommand_sameResults h
  all_goals exact ⟨rfl, rfl, rfl⟩

/-- An engine step that is no completion changes no register; a completion leaves the block idle (R71, R72). -/
theorem engineStep_regs {s t : State} (h : engineStep s = .next t) :
    t.regs = s.regs ∨ (s.busy = true ∧ s.eng.len.toNat ≤ s.eng.pos ∧ t.busy = false) := by
  rcases engineStep_cases s t h with ⟨-, rfl⟩ | ⟨-, i, -, -, -, -, rfl⟩ | ⟨hb, i, -, hle, rfl⟩
  · exact .inl rfl
  · exact .inl rfl
  · exact .inr ⟨hb, hle, congrArg (·.status.busy) (complete_regs i s)⟩

/-- Settles O54: of the moves of the block in focus, a host's write keeps the results, and an engine step does
unless it is a completion. -/
theorem resultsChangeOnlyAtCompletion : Obligations.ResultsChangeOnlyAtCompletion := by
  intro s t h hne
  have hchanged : ¬ SameResults s.regs t.regs := fun ⟨hr, hs, hc⟩ => by simp_all
  have regs_eq : ∀ {r r' : State}, r.blk = r'.blk → r.regs = r'.regs := congrArg Block.regs
  rcases step_block s t h with hblk | ⟨hn, -⟩ | ⟨hn, r, hr, he⟩ | ⟨-, off, v, p, r, -, -, -, hr, hw⟩
  · exact absurd (regs_eq hblk ▸ SameResults.refl _) hchanged
  · exact .inl hn
  · rcases engineStep_regs he with hregs | ⟨hb, hle, hidle⟩
    · exact absurd (hregs.trans (regs_eq hr) ▸ SameResults.refl _) hchanged
    · exact .inr ⟨hn, by simpa only [State.busy, hr] using hb, by simpa only [State.eng, hr] using hle, hidle⟩
  · exact absurd (regs_eq hr ▸ regWrite_sameResults hw) hchanged

end Sys2Proof.Machine
end

section
/-! PROOFS. The datapath as naturals: lane overflow (R78), the carry lanes (R84), the halved population count
(R83) and the horizontal reduction (R100, R101). -/

namespace Sys2Proof.Machine

/-! ### Overflow events -/

/-- A lane's addition overflowed exactly when the exact sum reaches 2^16 (R78). -/
theorem laneOverflowed_add (x y : Half) :
    laneOverflowed x (x + y) = true ↔ 2 ^ 16 ≤ x.toNat + y.toNat := by
  have hx := x.isLt
  have hy := y.isLt
  rw [laneOverflowed_iff, BitVec.toNat_add]
  omega

/-- The overflow bit as the carry of the exact sum (R78). -/
theorem ovfv_vadd16_get (x y : Lanes16) (i : Fin 16) :
    ((ovfv x (vadd16 x y))[i]).toNat = ((x[i]).toNat + (y[i]).toNat) / 2 ^ 16 := by
  have hx := (x[i]).isLt
  have hy := (y[i]).isLt
  have hbit : (ovfv x (vadd16 x y))[i] = laneOverflowed x[i] (x[i] + y[i]) := by simp
  rw [hbit]
  by_cases h : 2 ^ 16 ≤ (x[i]).toNat + (y[i]).toNat
  · rw [(laneOverflowed_add _ _).2 h, Bool.toNat_true]; omega
  · rw [Bool.eq_false_iff.2 (mt (laneOverflowed_add _ _).1 h), Bool.toNat_false]; omega

/-- Over positions, what depends on half the position counts twice. -/
theorem sum_range_halves (f : Nat → Nat) (n : Nat) :
    ∑ j ∈ Finset.range (2 * n), f (j / 2) = 2 * ∑ i ∈ Finset.range n, f i := by
  induction n with
  | zero => rfl
  | succ n ih =>
    rw [Nat.mul_succ, Finset.sum_range_succ, Finset.sum_range_succ, ih, Finset.sum_range_succ,
      show (2 * n + 1) / 2 = n by omega, show 2 * n / 2 = n by omega]
    omega

/-- Adding over the bits of a mask counts every lane's bit twice (R81). -/
theorem sum_movmask (o : LaneBits) :
    ∑ j : Fin 32, ((movmask o).getLsbD j).toNat = 2 * ∑ i : Fin 16, (o[i]).toNat := by
  have hbit : ∀ j : Fin 32, ((movmask o).getLsbD j).toNat = (o[j.val / 2]?.getD false).toNat := fun j => by
    rw [movmask_getLsbD o j j.isLt, Vector.getElem?_eq_getElem, Option.getD_some]
  have hlane : ∀ i : Fin 16, (o[i]).toNat = (o[i.val]?.getD false).toNat := fun i => by simp
  rw [Finset.sum_congr rfl fun j _ => hbit j, Finset.sum_congr rfl fun i _ => hlane i,
    Fin.sum_univ_eq_sum_range fun j => (o[j / 2]?.getD false).toNat,
    Fin.sum_univ_eq_sum_range fun i => (o[i]?.getD false).toNat]
  exact sum_range_halves (fun i => (o[i]?.getD false).toNat) 16

/-- The population count as a sum over bit positions (R82). -/
theorem popcount64_eq_sum (m : BitVec 64) : popcount64 m = ∑ j : Fin 64, (m.getLsbD j).toNat := by
  rw [popcount64, Fin.sum_univ_eq_sum_range fun j => (m.getLsbD j).toNat]
  rfl

/-- The population count of two masks counts both halves (R82). -/
theorem popcount64_append (m1 m0 : Word) : popcount64 (m1 ++ m0)
    = (∑ j : Fin 32, (m0.getLsbD j).toNat) + ∑ j : Fin 32, (m1.getLsbD j).toNat := by
  have hlo : ∀ j : Fin 32, (m1 ++ m0).getLsbD (Fin.castAdd 32 j).val = m0.getLsbD j := fun j => by
    rw [BitVec.getLsbD_append, Fin.val_castAdd, if_pos j.isLt]
  have hhi : ∀ j : Fin 32, (m1 ++ m0).getLsbD (Fin.natAdd 32 j).val = m1.getLsbD j := fun j => by
    rw [BitVec.getLsbD_append, Fin.val_natAdd, if_neg (by omega), Nat.add_sub_cancel_left]
  rw [popcount64_eq_sum, Fin.sum_univ_add (a := 32) (b := 32)]
  simp only [hlo, hhi]

/-- Half the population count of two masks is the number of overflowed lanes (R83). -/
theorem half_popcount64_movmask (o1 o0 : LaneBits) : half (popcount64 (movmask o1 ++ movmask o0))
    = (∑ i : Fin 16, (o0[i]).toNat) + ∑ i : Fin 16, (o1[i]).toNat := by
  rw [half, popcount64_append, sum_movmask, sum_movmask]
  omega

/-! ### Sums with their loss -/

/-- A 32-bit word and a loss condition account for an exact sum: the word is the sum modulo 2^32, and something
was lost exactly when the sum reached 2^32 (R74, R100). -/
structure SumsTo (w : Word) (loss : Prop) (total : Nat) : Prop where
  value : w.toNat = total % 2 ^ 32
  loss_iff : loss ↔ 2 ^ 32 ≤ total

/-- A word accounts for itself. -/
theorem SumsTo.word (w : Word) : SumsTo w False w.toNat :=
  ⟨(Nat.mod_eq_of_lt w.isLt).symm, by simp [w.isLt]⟩

/-- Adding two words adds what they account for; the addition's carry is one more loss. -/
theorem SumsTo.add {w1 w2 : Word} {l1 l2 : Prop} {t1 t2 : Nat} (h1 : SumsTo w1 l1 t1) (h2 : SumsTo w2 l2 t2) :
    SumsTo (w1 + w2) ((l1 ∨ l2) ∨ (add32 w1 w2).2 = true) (t1 + t2) := by
  refine ⟨?_, ?_⟩
  · rw [BitVec.toNat_add, h1.value, h2.value, ← Nat.add_mod]
  · rw [add32_snd, h1.loss_iff, h2.loss_iff, h1.value, h2.value]
    omega

/-- Below 2^32 nothing is lost, and the word is the sum. -/
theorem SumsTo.exact {w : Word} {loss : Prop} {total : Nat} (h : SumsTo w loss total) (hlt : total < 2 ^ 32) :
    w.toNat = total ∧ ¬ loss :=
  ⟨h.value.trans (Nat.mod_eq_of_lt hlt), fun hl => Nat.not_lt.2 (h.loss_iff.1 hl) hlt⟩

/-! ### Horizontal reduction -/

/-- The three stages of the eight-lane reduction as one sum (R98). -/
theorem hr8_fst (v : Lanes32) :
    (hr8 v).1 = v[0] + v[4] + (v[2] + v[6]) + (v[1] + v[5] + (v[3] + v[7])) := by
  simp [hr8, hr8Halves, hr8Quarters]

/-- The loss bit is set when one of the seven additions carried (R98). -/
theorem hr8_snd (v : Lanes32) : (hr8 v).2 = true ↔
    (((add32 v[0] v[4]).2 = true ∨ (add32 v[1] v[5]).2 = true ∨ (add32 v[2] v[6]).2 = true
      ∨ (add32 v[3] v[7]).2 = true)
    ∨ ((add32 (v[0] + v[4]) (v[2] + v[6])).2 = true ∨ (add32 (v[1] + v[5]) (v[3] + v[7])).2 = true))
    ∨ (add32 (v[0] + v[4] + (v[2] + v[6])) (v[1] + v[5] + (v[3] + v[7]))).2 = true := by
  simp [hr8, hr8Halves, hr8Quarters, Fin.exists_fin_succ]

/-- The eight-lane reduction accounts for the sum of its lanes (R100). -/
theorem hr8_sumsTo (v : Lanes32) : SumsTo (hr8 v).1 ((hr8 v).2 = true) (∑ i : Fin 8, (v[i]).toNat) := by
  have pair (i j : Fin 8) := (SumsTo.word v[i]).add (.word v[j])
  have tree := ((pair 0 4).add (pair 2 6)).add ((pair 1 5).add (pair 3 7))
  refine ⟨?_, ?_⟩
  · rw [hr8_fst, Fin.sum_univ_eight]
    refine tree.value.trans ?_
    congr 1
    omega
  · rw [hr8_snd, Fin.sum_univ_eight]
    refine Iff.trans ?_ (tree.loss_iff.trans ?_)
    · simp only [false_or, Fin.getElem_fin]
      tauto
    · omega

/-- Zero extension keeps a half's value (R80). -/
theorem zeroExtend_toNat (x : Half) : (x.zeroExtend 32).toNat = x.toNat :=
  BitVec.toNat_setWidth_of_le (by decide)

/-- Lane `i` of the low half, widened (R80). -/
theorem widenLo_toNat (x : Lanes16) (i : Fin 8) : ((widenLo x)[i]).toNat = (x[i.val]).toNat := by
  rw [Fin.getElem_fin, widenLo_get, zeroExtend_toNat]

/-- Lane `i + 8`, widened (R80). -/
theorem widenHi_toNat (x : Lanes16) (i : Fin 8) : ((widenHi x)[i]).toNat = (x[i.val + 8]).toNat := by
  rw [Fin.getElem_fin, widenHi_get, zeroExtend_toNat]

/-- The sixteen-lane reduction adds the reductions of its two widened halves (R99). -/
theorem hr16_sumsTo (x : Lanes16) : SumsTo (hr16 x).1 ((hr16 x).2 = true) (∑ i : Fin 16, (x[i]).toNat) := by
  have h := (hr8_sumsTo (widenLo x)).add (hr8_sumsTo (widenHi x))
  have hsum : ∑ i : Fin 16, (x[i]).toNat
      = (∑ i : Fin 8, ((widenLo x)[i]).toNat) + ∑ i : Fin 8, ((widenHi x)[i]).toNat := by
    rw [Fin.sum_univ_add (a := 8) (b := 8)]
    simp only [widenLo_toNat, widenHi_toNat, Nat.add_comm _ 8]
    rfl
  rw [hsum]
  exact ⟨h.value, by simpa [hr16] using h.loss_iff⟩

/-- Sixteen 16-bit lanes add up to far less than 2^32 (R101). -/
theorem sum_lanes_le (x : Lanes16) : ∑ i : Fin 16, (x[i]).toNat ≤ 0x000FFFF0 := by
  simpa using Finset.sum_le_card_nsmul Finset.univ (fun i : Fin 16 => (x[i]).toNat) 0xFFFF
    fun i _ => Nat.le_of_lt_succ (x[i]).isLt

end Sys2Proof.Machine
end

section
/-! PROOFS. The partial sums (R91, R106, R111, R118): how the reference sums grow, and every beat keeps the
accumulators equal to what the bytes read so far give. -/

namespace Sys2Proof.Machine

/-! ### How the reference sums grow -/

/-- One more block adds its word `i` to lane `i`. -/
theorem laneSum_succ (m : Memory) (src stride n i : Nat) :
    laneSum m src stride (n + 1) i = laneSum m src stride n i + bufWord m (src + stride * n + 2 * i) :=
  Finset.sum_range_succ _ n

/-- A beat that consumes one block more. -/
theorem laneSum_block (m : Memory) {stride pos : Nat} (src i : Nat) (hs : 0 < stride) (hp : pos % stride = 0) :
    laneSum m src stride ((pos + stride) / stride) i
      = laneSum m src stride (pos / stride) i + bufWord m (src + pos + 2 * i) := by
  rw [Nat.add_div_right pos hs, laneSum_succ, Nat.mul_div_cancel' (Nat.dvd_of_mod_eq_zero hp)]

/-- A lane of `n` 16-bit words carries at most `n` times. -/
theorem laneSum_div_le (m : Memory) (src stride n i : Nat) : laneSum m src stride n i / 2 ^ 16 ≤ n := by
  induction n with
  | zero => simp [laneSum]
  | succ n ih =>
    have hw := bufWord_lt m (src + stride * n + 2 * i)
    rw [laneSum_succ]
    omega

/-- From an even position on, `k` words add their values (R14, R38). -/
theorem exactSum_words (m : Memory) (src : Nat) {pos : Nat} (hp : pos % 2 = 0) (k : Nat) :
    exactSum m src (pos + 2 * k)
      = exactSum m src pos + ∑ i ∈ Finset.range k, bufWord m (src + pos + 2 * i) := by
  unfold exactSum
  rw [if_neg (by omega), if_neg (by omega), show (pos + 2 * k) / 2 = pos / 2 + k by omega,
    Finset.sum_range_add]
  simp only [Nat.add_zero, Nat.mul_add, ← Nat.add_assoc, show 2 * (pos / 2) = pos by omega]

/-- One word more (R88). -/
theorem exactSum_word (m : Memory) (src : Nat) {pos : Nat} (hp : pos % 2 = 0) :
    exactSum m src (pos + 2) = exactSum m src pos + bufWord m (src + pos) := by
  simpa using exactSum_words m src hp 1

/-- The trailing byte (R89). -/
theorem exactSum_byte (m : Memory) (src : Nat) {pos : Nat} (hp : pos % 2 = 0) :
    exactSum m src (pos + 1) = exactSum m src pos + bufByte m (src + pos) := by
  unfold exactSum
  rw [if_pos (by omega), if_neg (by omega), show (pos + 1) / 2 = pos / 2 by omega, ← Nat.add_assoc,
    Nat.add_sub_cancel, Nat.add_zero]

/-- Over whole chunks the exact sum is the sum of the sixteen lanes (R39). -/
theorem exactSum_chunks (m : Memory) (src n : Nat) :
    exactSum m src (32 * n) = ∑ i : Fin 16, laneSum m src 32 n i := by
  induction n with
  | zero => simp [exactSum, laneSum]
  | succ n ih =>
    rw [Nat.mul_succ, exactSum_words m src (by omega) 16, ih,
      ← Fin.sum_univ_eq_sum_range fun i => bufWord m (src + 32 * n + 2 * i), ← Finset.sum_add_distrib]
    simp only [laneSum_succ]

/-! ### Reads of a known buffer -/

/-- Engine reads of `[addr, addr + n)` return the bytes of `m`: the addresses have no side effects, and memory
holds those bytes (R41, R46). -/
structure State.ReadsFrom (s : State) (m : Memory) (addr n : Nat) : Prop where
  quiet : s.quiet addr n
  same : ∀ a, addr ≤ a → a < addr + n → s.mem.read a = m.read a

theorem State.ReadsFrom.mono {s : State} {m : Memory} {addr n addr' n' : Nat} (h : s.ReadsFrom m addr n)
    (h1 : addr ≤ addr') (h2 : addr' + n' ≤ addr + n) : s.ReadsFrom m addr' n' :=
  ⟨fun a ha hb => h.quiet a (by omega) (by omega), fun a ha hb => h.same a (by omega) (by omega)⟩

theorem State.ReadsFrom.byteAt_toNat {s : State} {m : Memory} {addr : Nat} (h : s.ReadsFrom m addr 1) :
    (s.byteAt addr).toNat = bufByte m addr := by
  rw [s.byteAt_quiet addr (h.quiet addr le_rfl (by omega)), h.same addr le_rfl (by omega), bufByte]

theorem State.ReadsFrom.bufWord_eq {s : State} {m : Memory} {addr : Nat} (h : s.ReadsFrom m addr 2) :
    bufWord s.mem addr = bufWord m addr := by
  simp only [bufWord, bufByte, h.same addr le_rfl (by omega), h.same (addr + 1) (by omega) (by omega)]

theorem State.ReadsFrom.halfAt_toNat {s : State} {m : Memory} {addr : Nat} (h : s.ReadsFrom m addr 2) :
    (s.halfAt addr).toNat = bufWord m addr := by
  rw [s.halfAt_toNat addr (h.quiet addr le_rfl (by omega)) (h.quiet (addr + 1) (by omega) (by omega)), h.bufWord_eq]

/-- The lanes of `l` are the words of the chunk at `addr` (R39). -/
def IsChunk (l : Lanes16) (m : Memory) (addr : Nat) : Prop :=
  ∀ i : Fin 16, (l[i]).toNat = bufWord m (addr + 2 * i)

theorem State.ReadsFrom.isChunk {s : State} {m : Memory} {addr : Nat} (h : s.ReadsFrom m addr 32) :
    IsChunk (s.chunkAt addr) m addr := fun i => by
  rw [Fin.getElem_fin, s.chunkAt_get addr h.quiet i i.isLt, (h.mono (by omega) (by omega)).bufWord_eq]

/-! ### SCALAR -/

/-- SCALAR's accumulator accounts for the exact sum of the bytes read (R91). -/
theorem partialSums_scalar_iff {m : Memory} {e : Engine} (hop : e.op = some .scalar) :
    e.partialSums m ↔ SumsTo e.acc (e.ovf = true) (exactSum m e.src.toNat e.pos) := by
  simp only [Engine.partialSums, hop]
  exact ⟨fun ⟨hv, hl⟩ => ⟨hv, hl⟩, fun ⟨hv, hl⟩ => ⟨hv, hl⟩⟩

/-- A SCALAR beat adds the value by which the exact sum grows (R88, R89). -/
theorem scalarAdd_partialSums {m : Memory} {e : Engine} {n : Nat} {w : Word} (hop : e.op = some .scalar)
    (h : e.partialSums m)
    (hw : exactSum m e.src.toNat (e.pos + n) = exactSum m e.src.toNat e.pos + w.toNat) :
    (scalarAdd n w e).partialSums m := by
  have hsum := ((partialSums_scalar_iff hop).1 h).add (.word w)
  refine (partialSums_scalar_iff (by exact hop)).2 ⟨?_, ?_⟩
  · exact (hw ▸ hsum.value :)
  · have hl := hw ▸ hsum.loss_iff
    simpa [scalarAdd] using hl

/-! ### WIDE -/

/-- Eight lanes and one loss condition account for eight exact sums (R104). -/
structure LanesSumTo (v : Lanes32) (loss : Prop) (total : Fin 8 → Nat) : Prop where
  value : ∀ i : Fin 8, (v[i]).toNat = total i % 2 ^ 32
  loss_iff : loss ↔ ∃ i, 2 ^ 32 ≤ total i

/-- A lane-wise addition adds to each lane's sum; its loss bit is one more loss (R77). -/
theorem LanesSumTo.add_lanes {v : Lanes32} {loss : Prop} {total : Fin 8 → Nat} (h : LanesSumTo v loss total)
    (x : Lanes32) : LanesSumTo (vadd32 v x).1 (loss ∨ (vadd32 v x).2 = true)
      fun i => total i + (x[i]).toNat := by
  refine ⟨fun i => ?_, ?_⟩
  · rw [Fin.getElem_fin, vadd32_get, BitVec.toNat_add, ← Fin.getElem_fin, h.value i]
    exact Nat.mod_add_mod _ _ _
  · rw [h.loss_iff, vadd32_loss, ← exists_or]
    refine exists_congr fun i => ?_
    rw [h.value i]
    omega

/-- WIDE's accumulator accounts for its lanes' exact sums (R106). -/
theorem partialSums_wide_iff {m : Memory} {e : Engine} (hop : e.op = some .wide) :
    e.partialSums m ↔ LanesSumTo e.v (e.ovf = true) fun i => wideLane m e.src.toNat (e.pos / 32) i := by
  simp only [Engine.partialSums, hop]
  exact ⟨fun ⟨hv, hl⟩ => ⟨hv, hl⟩, fun ⟨hv, hl⟩ => ⟨hv, hl⟩⟩

/-- WIDE's beat: words i and i + 8 of the chunk go to lane i (R104). -/
theorem wideAdd_partialSums {m : Memory} {e : Engine} {l : Lanes16} (hop : e.op = some .wide)
    (h : e.partialSums m) (hp : e.pos % 32 = 0) (hl : IsChunk l m (e.src.toNat + e.pos)) :
    (wideAdd l e).partialSums m := by
  have hsum := (((partialSums_wide_iff hop).1 h).add_lanes (widenLo l)).add_lanes (widenHi l)
  have hlane : ∀ i : Fin 8, wideLane m e.src.toNat ((e.pos + 32) / 32) i
      = wideLane m e.src.toNat (e.pos / 32) i + ((widenLo l)[i]).toNat + ((widenHi l)[i]).toNat := by
    intro i
    have hlo := hl (i.castAdd 8)
    have hhi := hl (i.natAdd 8)
    simp only [Fin.getElem_fin, Fin.val_castAdd, Fin.val_natAdd, Nat.add_comm 8] at hlo hhi
    rw [widenLo_toNat, widenHi_toNat, wideLane, wideLane, laneSum_block m _ _ (by decide) hp,
      laneSum_block m _ _ (by decide) hp]
    omega
  rw [← funext hlane] at hsum
  exact (partialSums_wide_iff (by exact hop)).2 ⟨hsum.value, Iff.trans (by simp [wideAdd]) hsum.loss_iff⟩

/-! ### NARROW -/

/-- NARROW's lanes hold each exact lane sum in 32 bits: the low half in `a`, the carries in `c` (R111). -/
theorem partialSums_narrow_iff {m : Memory} {e : Engine} (hop : e.op = some .narrow) :
    e.partialSums m ↔ (∀ i : Fin 16, (e.a[i]).toNat = laneSum m e.src.toNat 32 (e.pos / 32) i % 2 ^ 16
      ∧ (e.c[i]).toNat = laneSum m e.src.toNat 32 (e.pos / 32) i / 2 ^ 16 % 2 ^ 16)
      ∧ (e.ovf = true ↔ ∃ i : Fin 16, 2 ^ 32 ≤ laneSum m e.src.toNat 32 (e.pos / 32) i) := by
  simp only [Engine.partialSums, hop]

/-- A carry lane counts its lane's event (R84). -/
theorem cinc_toNat (cs : Lanes16) (o : LaneBits) (i : Fin 16) :
    ((cinc cs o).1[i]).toNat = ((cs[i]).toNat + (o[i]).toNat) % 2 ^ 16 := by
  rw [Fin.getElem_fin, cinc_get]
  cases o[i.val] with
  | false => exact (Nat.mod_eq_of_lt (cs[i]).isLt).symm
  | true => simp [BitVec.toNat_add]

/-- A carry lane is lost exactly when it wraps from 0xFFFF (R84). -/
theorem cinc_wraps (cs : Lanes16) (o : LaneBits) :
    (cinc cs o).2 = true ↔ ∃ i : Fin 16, 2 ^ 16 ≤ (cs[i]).toNat + (o[i]).toNat := by
  rw [cinc_loss]
  refine exists_congr fun i => ?_
  have hlt := (cs[i]).isLt
  rw [BitVec.toNat_eq, BitVec.toNat_add]
  cases o[i] <;> simp <;> omega

/-- NARROW's beat: each word goes to its lane, each overflow to its carry lane (R109). -/
theorem narrowAdd_partialSums {m : Memory} {e : Engine} {l : Lanes16} (hop : e.op = some .narrow)
    (h : e.partialSums m) (hp : e.pos % 32 = 0) (hl : IsChunk l m (e.src.toNat + e.pos)) :
    (narrowAdd l e).partialSums m := by
  obtain ⟨hlanes, hloss⟩ := (partialSums_narrow_iff hop).1 h
  have hlane : ∀ i : Fin 16, laneSum m e.src.toNat 32 ((e.pos + 32) / 32) i
      = laneSum m e.src.toNat 32 (e.pos / 32) i + (l[i]).toNat := fun i => by
    rw [laneSum_block m _ _ (by decide) hp, hl i]
  refine (partialSums_narrow_iff (by exact hop)).2 ⟨fun i => ?_, ?_⟩
  · obtain ⟨ha, hc⟩ := hlanes i
    have hnew : ((narrowAdd l e).c[i]).toNat
        = ((e.c[i]).toNat + ((e.a[i]).toNat + (l[i]).toNat) / 2 ^ 16) % 2 ^ 16 := by
      rw [← ovfv_vadd16_get, ← cinc_toNat]; rfl
    have hsum : ((narrowAdd l e).a[i]).toNat = ((e.a[i]).toNat + (l[i]).toNat) % 2 ^ 16 := by
      simp [narrowAdd]
    rw [hnew, hsum]
    simp only [narrowAdd, Config.chunkBytes, hlane i]
    omega
  · have hwrap : ∀ i : Fin 16, 2 ^ 32 ≤ laneSum m e.src.toNat 32 (e.pos / 32) i + (l[i]).toNat
        ↔ 2 ^ 32 ≤ laneSum m e.src.toNat 32 (e.pos / 32) i
          ∨ 2 ^ 16 ≤ (e.c[i]).toNat + ((e.a[i]).toNat + (l[i]).toNat) / 2 ^ 16 := fun i => by
      obtain ⟨ha, hc⟩ := hlanes i
      have hlt := (l[i]).isLt
      omega
    simp only [narrowAdd, Config.chunkBytes, Bool.or_eq_true, hloss, cinc_wraps, ovfv_vadd16_get, hlane, hwrap,
      exists_or]

/-! ### POPCNT -/

/-- The carries of both accumulators of POPCNT over the first `n` pairs of chunks (R116). -/
def pairCarries (m : Memory) (src n : Nat) : Nat :=
  ∑ i : Fin 16, (laneSum m src 64 n i / 2 ^ 16 + laneSum m (src + 32) 64 n i / 2 ^ 16)

/-- POPCNT's lanes hold the low halves of the lane sums, E.T all their carries (R118). -/
theorem partialSums_popcnt_iff {m : Memory} {e : Engine} (hop : e.op = some .popcnt) :
    e.partialSums m ↔ (∀ i : Fin 16, (e.a[i]).toNat = laneSum m e.src.toNat 64 (e.pos / 64) i % 2 ^ 16
      ∧ (e.b[i]).toNat = laneSum m (e.src.toNat + 32) 64 (e.pos / 64) i % 2 ^ 16)
      ∧ e.t.toNat = pairCarries m e.src.toNat (e.pos / 64) ∧ e.ovf = false := by
  simp only [Engine.partialSums, hop, pairCarries]

/-- Each pair of chunks carries at most 32 times (R118). -/
theorem pairCarries_le (m : Memory) (src n : Nat) : pairCarries m src n ≤ 32 * n := by
  have hle := Finset.sum_le_card_nsmul (Finset.univ : Finset (Fin 16))
    (fun i => laneSum m src 64 n i / 2 ^ 16 + laneSum m (src + 32) 64 n i / 2 ^ 16) (2 * n) fun i _ => by
      have h1 := laneSum_div_le m src 64 n i
      have h2 := laneSum_div_le m (src + 32) 64 n i
      omega
  simp only [Finset.card_univ, Fintype.card_fin, smul_eq_mul] at hle
  unfold pairCarries
  omega

/-- What POPCNT's beat adds to E.T: half the population count of both overflow masks (R116). -/
def pairEvents (l0 l1 : Lanes16) (e : Engine) : Nat :=
  half (popcount64 (movmask (ovfv e.b (vadd16 e.b l1)) ++ movmask (ovfv e.a (vadd16 e.a l0))))

theorem popcntAdd_t (l0 l1 : Lanes16) (e : Engine) :
    (popcntAdd l0 l1 e).t = e.t + BitVec.ofNat 32 (pairEvents l0 l1 e) := rfl

theorem popcntAdd_ovf (l0 l1 : Lanes16) (e : Engine) :
    (popcntAdd l0 l1 e).ovf = (e.ovf || (add32 e.t (BitVec.ofNat 32 (pairEvents l0 l1 e))).2) := rfl

/-- It is the number of lanes of both accumulators that overflow (R83, R116). -/
theorem pairEvents_eq_sum (l0 l1 : Lanes16) (e : Engine) : pairEvents l0 l1 e
    = ∑ i : Fin 16, (((e.a[i]).toNat + (l0[i]).toNat) / 2 ^ 16 + ((e.b[i]).toNat + (l1[i]).toNat) / 2 ^ 16) := by
  rw [pairEvents, half_popcount64_movmask, ← Finset.sum_add_distrib]
  exact Finset.sum_congr rfl fun i _ => by rw [ovfv_vadd16_get, ovfv_vadd16_get]

/-- POPCNT's beat: the lower chunk goes to `a`, the higher to `b`, and E.T counts the overflows of both, which
a buffer is too short to make overflow (R116, R118). -/
theorem popcntAdd_partialSums {m : Memory} {e : Engine} {l0 l1 : Lanes16} (hop : e.op = some .popcnt)
    (h : e.partialSums m) (hp : e.pos % 64 = 0) (hlt : e.pos + 64 < 2 ^ 32)
    (hl0 : IsChunk l0 m (e.src.toNat + e.pos)) (hl1 : IsChunk l1 m (e.src.toNat + e.pos + 32)) :
    (popcntAdd l0 l1 e).partialSums m := by
  obtain ⟨hlanes, ht, hovf⟩ := (partialSums_popcnt_iff hop).1 h
  have hlane0 : ∀ i : Fin 16, laneSum m e.src.toNat 64 ((e.pos + 64) / 64) i
      = laneSum m e.src.toNat 64 (e.pos / 64) i + (l0[i]).toNat := fun i => by
    rw [laneSum_block m _ _ (by decide) hp, hl0 i]
  have hlane1 : ∀ i : Fin 16, laneSum m (e.src.toNat + 32) 64 ((e.pos + 64) / 64) i
      = laneSum m (e.src.toNat + 32) 64 (e.pos / 64) i + (l1[i]).toNat := fun i => by
    rw [laneSum_block m _ _ (by decide) hp, hl1 i, Nat.add_right_comm e.src.toNat 32]
  have hcount : pairCarries m e.src.toNat (e.pos / 64) + pairEvents l0 l1 e
      = pairCarries m e.src.toNat ((e.pos + 64) / 64) := by
    rw [pairEvents_eq_sum, pairCarries, pairCarries, ← Finset.sum_add_distrib]
    refine Finset.sum_congr rfl fun i _ => ?_
    obtain ⟨ha, hb⟩ := hlanes i
    rw [hlane0, hlane1]
    omega
  have hbound := pairCarries_le m e.src.toNat ((e.pos + 64) / 64)
  have hsum := (SumsTo.word e.t).add (.word (BitVec.ofNat 32 (pairEvents l0 l1 e)))
  rw [BitVec.toNat_ofNat, Nat.mod_eq_of_lt (by omega), ht, hcount] at hsum
  obtain ⟨hvalue, hnoloss⟩ := hsum.exact (by omega)
  refine (partialSums_popcnt_iff (by exact hop)).2 ⟨fun i => ?_, hvalue, ?_⟩
  · obtain ⟨ha, hb⟩ := hlanes i
    simp only [popcntAdd, Config.pairBytes, hlane0, hlane1, Fin.getElem_fin, vadd16_get, BitVec.toNat_add]
    simp only [Fin.getElem_fin] at ha hb
    omega
  · simpa [popcntAdd_ovf, hovf] using hnoloss

end Sys2Proof.Machine
end

section
/-! PROOFS. From the partial sums to the result: every beat of a command keeps them, and with all bytes consumed
the completion values are `commandResult` (R73, R90, R105, R110, R117). -/

namespace Sys2Proof.Machine

/-- A beat keeps the partial sums of the buffer it reads (R88, R89, R104, R109, R116). -/
theorem beatEngine_partialSums {m : Memory} {s : State} {i : Instr} (hop : s.eng.op = some i)
    (h : s.eng.partialSums m) (hprogress : progressOk i s.eng.len.toNat s.eng.pos)
    (hlt : s.eng.pos < s.eng.len.toNat)
    (hread : s.ReadsFrom m s.readAddr (beatSize i s.eng.len.toNat s.eng.pos)) :
    (beatEngine i s).partialSums m := by
  cases i with
  | scalar =>
    have heven : s.eng.pos % 2 = 0 := hprogress.resolve_right (Nat.ne_of_lt hlt)
    by_cases h2 : s.eng.pos + 2 ≤ s.eng.len.toNat
    · simp only [beatSize, beatEngine, if_pos h2] at hread ⊢
      refine scalarAdd_partialSums hop h ?_
      rw [zeroExtend_toNat, hread.halfAt_toNat]
      exact exactSum_word m _ heven
    · simp only [beatSize, beatEngine, if_neg h2] at hread ⊢
      refine scalarAdd_partialSums hop h ?_
      rw [BitVec.toNat_setWidth_of_le (by decide), hread.byteAt_toNat]
      exact exactSum_byte m _ heven
  | wide => exact wideAdd_partialSums hop h hprogress.2 hread.isChunk
  | narrow => exact narrowAdd_partialSums hop h hprogress.2 hread.isChunk
  | popcnt =>
    obtain ⟨hlen, hpos⟩ := hprogress
    have hmax := s.eng.len.isLt
    have hlo := hread.mono (n' := 32) le_rfl (by simp only [beatSize]; omega)
    have hhi := hread.mono (addr' := s.readAddr + 32) (n' := 32) (by omega) (by simp only [beatSize]; omega)
    exact popcntAdd_partialSums hop h hpos (by omega) hlo.isChunk hhi.isChunk
  | fold => exact h

/-! ### The result of each command -/

theorem SumsTo.eq_ofNat {w : Word} {loss : Prop} {total : Nat} (h : SumsTo w loss total) :
    w = BitVec.ofNat 32 total :=
  BitVec.eq_of_toNat_eq (by rw [h.value, BitVec.toNat_ofNat])

theorem SumsTo.loss_eq {w : Word} {b : Bool} {total : Nat} (h : SumsTo w (b = true) total) :
    b = decide (2 ^ 32 ≤ total) :=
  Bool.eq_iff_iff.2 (h.loss_iff.trans decide_eq_true_iff.symm)

/-- Reducing the eight lanes accounts for all they account for (R105, R106). -/
theorem LanesSumTo.reduce {v : Lanes32} {loss : Prop} {total : Fin 8 → Nat} (h : LanesSumTo v loss total) :
    SumsTo (hr8 v).1 (loss ∨ (hr8 v).2 = true) (∑ i, total i) := by
  have hr := hr8_sumsTo v
  simp only [h.value] at hr
  refine ⟨by rw [hr.value, ← Finset.sum_nat_mod], ?_⟩
  rw [h.loss_iff, hr.loss_iff]
  by_cases hbig : ∃ i, 2 ^ 32 ≤ total i
  · obtain ⟨i, hi⟩ := hbig
    have hle : total i ≤ ∑ i, total i := Finset.single_le_sum (fun _ _ => Nat.zero_le _) (Finset.mem_univ i)
    exact iff_of_true (.inl ⟨i, hi⟩) (hi.trans hle)
  · have hsmall : ∀ i, total i % 2 ^ 32 = total i := fun i =>
      Nat.mod_eq_of_lt (Nat.not_le.1 fun hi => hbig ⟨i, hi⟩)
    simp only [hsmall, hbig, false_or]

/-- Over whole chunks the eight wide lanes add up to the exact sum (R106). -/
theorem sum_wideLane (m : Memory) (src n : Nat) :
    ∑ i : Fin 8, wideLane m src n i = exactSum m src (32 * n) := by
  rw [exactSum_chunks, Fin.sum_univ_add (a := 8) (b := 8), ← Finset.sum_add_distrib]
  simp only [wideLane, Fin.val_castAdd, Fin.val_natAdd, Nat.add_comm 8]

/-- The values completion writes: S, K, and OVF as the command's own losses or the final stage's (R71). -/
def Engine.outcome (i : Instr) (e : Engine) : Final :=
  { finalOf i e with loss := e.ovf || (finalOf i e).loss }

theorem outcome_scalar {m : Memory} {e : Engine} (hop : e.op = some .scalar) (h : e.partialSums m)
    (hend : e.pos = e.len.toNat) :
    e.outcome .scalar = commandResult .scalar m e.src.toNat e.len.toNat e.sumIn := by
  have hsum := (partialSums_scalar_iff hop).1 h
  rw [hend] at hsum
  simp only [Engine.outcome, finalOf, scalarFinal, commandResult, Bool.or_false]
  rw [← hsum.eq_ofNat, hsum.loss_eq]

theorem outcome_wide {m : Memory} {e : Engine} (hop : e.op = some .wide) (h : e.partialSums m)
    (hend : e.pos = e.len.toNat) (hlen : e.len.toNat % 32 = 0) :
    e.outcome .wide = commandResult .wide m e.src.toNat e.len.toNat e.sumIn := by
  have hsum := ((partialSums_wide_iff hop).1 h).reduce
  rw [hend, sum_wideLane, Nat.mul_div_cancel' (Nat.dvd_of_mod_eq_zero hlen), ← Bool.or_eq_true] at hsum
  simp only [Engine.outcome, finalOf, wideFinal, commandResult]
  rw [← hsum.eq_ofNat, hsum.loss_eq]

/-- NARROW's final stage loses nothing; a lane's own loss is the only one (R110, R113). -/
theorem outcome_narrow {m : Memory} {e : Engine} (hop : e.op = some .narrow) (h : e.partialSums m)
    (hend : e.pos = e.len.toNat) :
    e.outcome .narrow = commandResult .narrow m e.src.toNat e.len.toNat e.sumIn := by
  obtain ⟨hlanes, hloss⟩ := (partialSums_narrow_iff hop).1 h
  have hsum := (hr16_sumsTo e.a).add (hr16_sumsTo e.c)
  have hle := Nat.add_le_add (sum_lanes_le e.a) (sum_lanes_le e.c)
  have hfinal := (hsum.exact (by omega)).2
  have hcarry := (hr16_sumsTo e.c).eq_ofNat
  have hvalue := hsum.eq_ofNat
  simp only [hlanes, hend] at hcarry hvalue
  have hovf : e.ovf = decide (∃ i : Fin 16, 2 ^ 32 ≤ laneSum m e.src.toNat 32 (e.len.toNat / 32) i) :=
    Bool.eq_iff_iff.2 (by rw [hloss, hend, decide_eq_true_iff])
  simp only [not_or, Bool.not_eq_true] at hfinal
  obtain ⟨⟨hla, hlc⟩, hadd⟩ := hfinal
  simp only [Engine.outcome, finalOf, narrowFinal, commandResult, hla, hlc, hadd, add32_fst, Bool.or_false]
  rw [hvalue, hcarry, hovf]

/-- POPCNT loses nothing at all: its buffer is too short to fill E.T (R117, R118). -/
theorem outcome_popcnt {m : Memory} {e : Engine} (hop : e.op = some .popcnt) (h : e.partialSums m)
    (hend : e.pos = e.len.toNat) :
    e.outcome .popcnt = commandResult .popcnt m e.src.toNat e.len.toNat e.sumIn := by
  obtain ⟨hlanes, ht, hovf⟩ := (partialSums_popcnt_iff hop).1 h
  have hsum := ((hr16_sumsTo e.a).add (hr16_sumsTo e.b)).add (.word e.t)
  have hle := Nat.add_le_add (sum_lanes_le e.a) (sum_lanes_le e.b)
  have hcarries := pairCarries_le m e.src.toNat (e.pos / 64)
  have hmax := e.len.isLt
  have hfinal := (hsum.exact (by omega)).2
  have hvalue := hsum.eq_ofNat
  have hcarry := (SumsTo.word e.t).eq_ofNat
  simp only [hlanes, ht, hend, pairCarries] at hcarry hvalue
  simp only [not_or, Bool.not_eq_true, not_false_eq_true, and_true] at hfinal
  obtain ⟨⟨⟨hla, hlb⟩, hadd⟩, hadd'⟩ := hfinal
  simp only [Engine.outcome, finalOf, popcntFinal, commandResult, hla, hlb, hadd, hadd', add32_fst, hovf,
    Bool.or_false]
  rw [hvalue, hcarry]
  simp only [Finset.sum_add_distrib]

/-- With all bytes consumed the values completion writes are the command's result (R73). FOLD's length does not
matter, since its result is SUM_IN alone (R97). -/
theorem outcome_eq_commandResult {m : Memory} {e : Engine} {i : Instr} (hop : e.op = some i)
    (h : e.partialSums m) (hend : e.pos = e.len.toNat) (hprogress : progressOk i e.len.toNat e.pos) :
    e.outcome i = commandResult i m e.src.toNat e.len.toNat e.sumIn := by
  cases i with
  | scalar => exact outcome_scalar hop h hend
  | wide => exact outcome_wide hop h hend hprogress.1
  | narrow => exact outcome_narrow hop h hend
  | popcnt => exact outcome_popcnt hop h hend
  | fold =>
    have hovf : e.ovf = false := by simpa only [Engine.partialSums, hop] using h
    simp [Engine.outcome, finalOf, foldFinal, commandResult, hovf]

end Sys2Proof.Machine
end

section
/-! PROOFS. What every step leaves of the platform (R46, R140): the schedule moves on by one turn, the addresses
with side effects stay, and no agent writes into the buffer of a running command (R142). -/

namespace Sys2Proof.Machine

/-! ### The schedule -/

/-- An instance's own move takes no turn off the schedule. -/
theorem BlockMove.sched {s t : State} (h : BlockMove s t) : t.sched = s.sched := by
  rcases BlockMove.outside s t h with h | h <;> exact (congrArg State.sched h).trans rfl

/-- Nor does it when done on another instance. -/
theorem BlockMove.sched_focus {s u : State} {k : Nat} (h : BlockMove (s.focus k) u) :
    (u.focus k).sched = s.sched := by
  rw [State.focus_sched, h.sched, State.focus_sched]

/-- A host operation takes no turn off the schedule. -/
theorem hostOp_sched {op : HostOp} {s t : State} (h : hostOp op s = .next t) : t.sched = s.sched := by
  cases op with
  | rd width addr =>
    rw [hostOp] at h
    obtain ⟨k, -, -, ht⟩ := registerAccess_next _ _ _ _ _ h
    cases ht; rfl
  | wr width addr v =>
    rw [hostOp] at h
    obtain ⟨k, -, -, ht⟩ := registerAccess_next _ _ _ _ _ h
    obtain ⟨u, hu, rfl⟩ := onInstance_next _ _ _ _ ht
    have hm : BlockMove ((s.note (.regWrite addr v)).focus k) u := .inl ⟨_, _, hu⟩
    exact (hm.sched_focus :)
  | poll addr mask val =>
    rw [hostOp] at h
    obtain ⟨k, -, -, ht⟩ := registerAccess_next _ _ _ _ _ h
    dsimp only at ht
    split at ht <;> cases ht <;> rfl
  | load addr n =>
    simp only [hostOp] at h
    split at h <;> cases h
    rfl
  | store addr n v =>
    obtain ⟨-, -, rfl⟩ := memWrite_next _ _ _ _ _ h
    rfl

/-- No agent's turn takes another turn off the schedule. -/
theorem takeTurn_sched {tn : Turn} {s t : State} (h : takeTurn tn s = .next t) : t.sched = s.sched := by
  cases tn with
  | host =>
    simp only [takeTurn, hostStep] at h
    split at h
    · cases h; rfl
    · exact (hostOp_sched h :)
  | engine k =>
    simp only [takeTurn] at h
    split at h
    · obtain ⟨u, hu, rfl⟩ := onInstance_next _ _ _ _ h
      exact BlockMove.sched_focus (.inr (.inl hu))
    · cases h; rfl
  | writer =>
    simp only [takeTurn, writerStep] at h
    split at h
    · cases h; rfl
    · obtain ⟨-, -, rfl⟩ := memWrite_next _ _ _ _ _ h
      rfl
  | reset k =>
    simp only [takeTurn] at h
    split at h
    · obtain ⟨u, hu, rfl⟩ := onInstance_next _ _ _ _ h
      cases hu
      exact BlockMove.sched_focus (.inr (.inr rfl))
    · cases h; rfl

/-- A step takes its own turn off the schedule (R140). -/
theorem step_sched {s t : State} (h : step s = .next t) : t.sched = s.sched.tail :=
  takeTurn_sched h

/-! ### Memory and the platform -/

/-- An instance's own move changes neither memory nor the platform. -/
theorem BlockMove.platform {s t : State} (h : BlockMove s t) :
    t.mem = s.mem ∧ t.volatileRegions = s.volatileRegions := by
  rcases BlockMove.outside s t h with h | h <;>
    exact ⟨(congrArg State.mem h).trans rfl, (congrArg State.volatileRegions h).trans rfl⟩

/-- The platform's map of side effects stays, and memory changes at most by one write inside the buffer space
and outside the buffers of all running commands (R46, R142). -/
theorem step_platform {s t : State} (h : step s = .next t) : t.volatileRegions = s.volatileRegions
    ∧ (t.mem = s.mem ∨ ∃ addr n v, addr + n ≤ Config.addressSpace
      ∧ (∀ a, addr ≤ a → a < addr + n → s.bufferHolds a = false) ∧ t.mem = s.mem.writeBytes addr n v) := by
  rcases step_effect s t h with hc | ⟨r, addr, n, v, hc, hw⟩ | ⟨r, k, u, hc, -, hm, rfl⟩
  · exact ⟨hc.volatileRegions, .inl hc.mem⟩
  · obtain ⟨hin, hout, rfl⟩ := memWrite_next _ _ _ _ _ hw
    refine ⟨hc.volatileRegions, .inr ⟨addr, n, v, hin, ?_, by rw [State.withMem_mem, hc.mem]⟩⟩
    simpa only [State.bufferHolds, hc.blk, hc.others] using hout
  · obtain ⟨hmem, hvol⟩ := hm.platform
    rw [State.focus_mem] at hmem
    rw [State.focus_volatileRegions] at hvol
    exact ⟨by rw [State.focus_volatileRegions, hvol, hc.volatileRegions],
      .inl (by rw [State.focus_mem, hmem, hc.mem])⟩

/-- Every step keeps memory in canonical form (log 7). -/
theorem step_mem_wf {s t : State} (h : step s = .next t) (hm : s.mem.wf = true) : t.mem.wf = true := by
  obtain ⟨-, hmem | ⟨addr, n, v, hin, -, hmem⟩⟩ := step_platform h
  · rwa [hmem]
  · rw [hmem]
    exact Memory.wf_writeBytes _ hm _ _ _ hin

/-- A running command's buffer holds its addresses (R142). -/
theorem State.bufferHolds_focus {s : State} {a : Nat} (hb : s.busy = true) (h1 : s.eng.src.toNat ≤ a)
    (h2 : a < s.eng.src.toNat + s.eng.len.toNat) : s.bufferHolds a = true := by
  simp [State.bufferHolds, Block.bufferHolds, hb, h1, h2]

/-- Whatever step is taken, the buffer of the running command keeps its bytes (R46, R142). -/
theorem step_readsFrom {m : Memory} {s t : State} (h : step s = .next t) (hm : s.mem.wf = true)
    (hb : s.busy = true) (hr : s.ReadsFrom m s.eng.src.toNat s.eng.len.toNat) :
    t.ReadsFrom m s.eng.src.toNat s.eng.len.toNat := by
  obtain ⟨hvol, hmem⟩ := step_platform h
  refine ⟨fun a h1 h2 => by rw [State.isVolatile, hvol]; exact hr.quiet a h1 h2, fun a h1 h2 => ?_⟩
  rcases hmem with hmem | ⟨addr, n, v, hin, hout, hmem⟩
  · rw [hmem, hr.same a h1 h2]
  · have hnot : ¬ (addr ≤ a ∧ a < addr + n) := fun ⟨h3, h4⟩ => by
      simpa [State.bufferHolds_focus hb h1 h2] using hout a h3 h4
    rw [hmem, Memory.read_writeBytes _ hm _ _ _ hin, if_neg hnot, hr.same a h1 h2]

end Sys2Proof.Machine
end

section
/-! PROOFS. How far a command has come after `n` beats (R70), from its acceptance (R67, R69) on. -/

namespace Sys2Proof.Machine

/-- The bytes a full beat of each command consumes (R70). -/
def beatStride : Instr → Nat
  | .scalar => 2
  | .wide => 32
  | .narrow => 32
  | .popcnt => 64
  | .fold => 0

/-- The bytes `n` beats have consumed of `len`. -/
def consumed (i : Instr) (len n : Nat) : Nat := min (beatStride i * n) len

@[simp] theorem consumed_zero (i : Instr) (len : Nat) : consumed i len 0 = 0 := by
  simp [consumed]

theorem consumed_le (i : Instr) (len n : Nat) : consumed i len n ≤ len := Nat.min_le_right _ _

/-- Before its last beat a command has bytes left (R70). -/
theorem consumed_lt {i : Instr} {len n : Nat} (h : n < beats i len) : consumed i len n < len := by
  cases i <;> simp only [beats, consumed, beatStride] at * <;> omega

/-- A legal length is consumed by the command's beats (R70). -/
theorem consumed_beats {i : Instr} {len : Nat} (hl : progressOk i len 0) :
    consumed i len (beats i len) = len := by
  cases i <;> simp only [progressOk, beats, consumed, beatStride] at * <;> omega

/-- A beat consumes the bytes it reads (R70). -/
theorem consumed_succ {i : Instr} {len n : Nat} (hl : progressOk i len 0) (h : n < beats i len) :
    consumed i len n + beatSize i len (consumed i len n) = consumed i len (n + 1) := by
  cases i with
  | scalar =>
    by_cases h2 : consumed .scalar len n + 2 ≤ len
    · rw [beatSize, if_pos h2]
      simp only [beats, consumed, beatStride] at *
      omega
    · rw [beatSize, if_neg h2]
      simp only [beats, consumed, beatStride] at *
      omega
  | _ => simp only [progressOk, beats, consumed, beatStride, beatSize] at *; omega

/-- The bytes consumed are always those of whole beats (R29). -/
theorem progressOk_consumed {i : Instr} {len : Nat} (hl : progressOk i len 0) (n : Nat) :
    progressOk i len (consumed i len n) := by
  cases i <;> simp only [progressOk, consumed, beatStride] at * <;> omega

/-- What the checks of R67 leave of an accepted command's length (R29, R69). -/
theorem progressOk_latch {i : Instr} {r : Regs} (hc : checkOf i r.src r.len = none) :
    progressOk i (latch i r).len.toNat 0 := by
  cases i <;> simp [checkOf, alignCheck, pairCheck, Option.or_eq_none_iff, progressOk, latch] at hc ⊢ <;> omega

/-- FOLD's length is latched as 0 and has no beats; every other length is latched as it is (R69). -/
theorem beats_latch (i : Instr) (r : Regs) : beats i (latch i r).len.toNat = beats i r.len.toNat := by
  cases i <;> rfl

/-- The latched length gives the same result, since FOLD's does not depend on it (R73, R97). -/
theorem commandResult_latch (i : Instr) (r : Regs) (m : Memory) (src : Nat) (sumIn : Word) :
    commandResult i m src (latch i r).len.toNat sumIn = commandResult i m src r.len.toNat sumIn := by
  cases i <;> rfl

/-- With nothing consumed every accumulator is 0, as acceptance leaves it (R69). -/
theorem latch_partialSums (i : Instr) (r : Regs) (m : Memory) : (latch i r).partialSums m := by
  cases i <;> simp [Engine.partialSums, latch, exactSum, laneSum, wideLane]

end Sys2Proof.Machine
end

section
/-! PROOFS. A command under any interleaving (R73, O46): the invariant of a running command, kept by every step
that is no reset of its instance, and the result at its completion. -/

namespace Sys2Proof.Machine

/-! ### The invariant -/

/-- The block runs command `i`, accepted over registers `r0` and memory `m`, and has taken `n` beats: the engine
holds the latched operands and the partial sums of `m`, and no result has changed (R29, R70, R72, R73). -/
structure Block.Runs (i : Instr) (r0 : Regs) (m : Memory) (n : Nat) (b : Block) : Prop where
  busy : b.regs.status.busy = true
  not_done : b.regs.status.done = false
  no_err : b.regs.status.err = none
  results : SameResults r0 b.regs
  op : b.eng.op = some i
  src : b.eng.src = r0.src
  len : b.eng.len = (latch i r0).len
  sumIn : b.eng.sumIn = r0.sumIn
  legal : progressOk i b.eng.len.toNat 0
  pos : b.eng.pos = consumed i b.eng.len.toNat n
  sums : b.eng.partialSums m

/-- The same of the block in focus, with memory's buffer as it was at acceptance (R46). -/
structure State.Runs (i : Instr) (r0 : Regs) (m : Memory) (n : Nat) (s : State) : Prop where
  block : s.blk.Runs i r0 m n
  reads : s.ReadsFrom m s.eng.src.toNat s.eng.len.toNat
  mem_wf : s.mem.wf = true

/-- Acceptance starts the command (R69). -/
theorem acceptCommand_runs {i : Instr} {s : State} (hm : s.mem.wf = true)
    (hc : checkOf i s.regs.src s.regs.len = none)
    (hq : i ≠ .fold → s.quiet s.regs.src.toNat s.regs.len.toNat) :
    (acceptCommand i s).Runs i s.regs s.mem 0 := by
  refine ⟨⟨rfl, rfl, rfl, ⟨rfl, rfl, rfl⟩, rfl, rfl, rfl, rfl, progressOk_latch hc,
    (consumed_zero _ _).symm, latch_partialSums _ _ _⟩, ⟨?_, fun _ _ _ => rfl⟩, hm⟩
  by_cases hi : i = .fold
  · subst hi
    exact fun a h1 h2 => absurd h2 (by simpa [acceptCommand, latch] using h1)
  · have hlen : (acceptCommand i s).eng.len = s.regs.len := if_neg hi
    rw [hlen]
    exact hq hi

/-! ### The host's writes -/

/-- A register write to a busy block changes no field of E, keeps BUSY and ERR, and cannot set DONE (R63, R64,
R66). -/
theorem regWrite_busy {off : Nat} {v : Word} {s t : State} (hb : s.busy = true)
    (h : regWrite off v s = .next t) : t.eng = s.eng ∧ t.busy = true
      ∧ t.regs.status.err = s.regs.status.err ∧ (s.regs.status.done = false → t.regs.status.done = false) := by
  rcases regWrite_cases off v s t h with ⟨-, h⟩ | ⟨-, rfl⟩ | ⟨-, rfl⟩ | ⟨-, rfl⟩ | ⟨-, rfl⟩ | rfl
  · obtain rfl : dropCommand s = t := Host.Outcome.next.inj ((presentCommand_busy hb).symm.trans h)
    exact ⟨rfl, hb, rfl, id⟩
  · exact ⟨rfl, hb, rfl, fun hd => by simp [statusW1C, hd]⟩
  all_goals exact ⟨rfl, hb, rfl, id⟩

theorem SameResults.trans {r u w : Regs} (h : SameResults r u) (g : SameResults u w) : SameResults r w :=
  ⟨g.result.trans h.result, g.sum.trans h.sum, g.carry.trans h.carry⟩

theorem Block.Runs.of_regWrite {i : Instr} {r0 : Regs} {m : Memory} {n off : Nat} {v : Word} {s t : State}
    (hr : s.blk.Runs i r0 m n) (h : regWrite off v s = .next t) : t.blk.Runs i r0 m n := by
  obtain ⟨heng, hbusy, herr, hdone⟩ := regWrite_busy hr.busy h
  have hsame := regWrite_sameResults h
  change t.blk.eng = s.blk.eng at heng
  exact ⟨hbusy, hdone hr.not_done, herr.trans hr.no_err, hr.results.trans hsame, heng ▸ hr.op, heng ▸ hr.src,
    heng ▸ hr.len, heng ▸ hr.sumIn, heng ▸ hr.legal, heng ▸ hr.pos, heng ▸ hr.sums⟩

/-! ### The engine's turns -/

@[simp] theorem beatEngine_sumIn (i : Instr) (s : State) : (beatEngine i s).sumIn = s.eng.sumIn := by
  cases i <;> simp only [beatEngine, scalarAdd, wideAdd, narrowAdd, popcntAdd]
  split <;> rfl

section
variable {i : Instr} {r0 : Regs} {m : Memory} {n : Nat} {s t : State}

/-- Before its last beat a running command has bytes left (R70). -/
theorem Block.Runs.pos_lt {b : Block} (hr : b.Runs i r0 m n) (hn : n < beats i b.eng.len.toNat) :
    b.eng.pos < b.eng.len.toNat := by
  rw [hr.pos]; exact consumed_lt hn

/-- After its last beat it has none (R70). -/
theorem Block.Runs.pos_eq {b : Block} (hr : b.Runs i r0 m n) (hn : n = beats i b.eng.len.toNat) :
    b.eng.pos = b.eng.len.toNat := by
  rw [hr.pos, hn, consumed_beats hr.legal]

theorem Block.Runs.progress {b : Block} (hr : b.Runs i r0 m n) :
    progressOk i b.eng.len.toNat b.eng.pos := by
  rw [hr.pos]; exact progressOk_consumed hr.legal n

/-- A running command's beat consumes what it reads (R70). -/
theorem Block.Runs.pos_beat {b : Block} (hr : b.Runs i r0 m n) (hn : n < beats i b.eng.len.toNat) :
    b.eng.pos + beatSize i b.eng.len.toNat b.eng.pos = consumed i b.eng.len.toNat (n + 1) := by
  rw [hr.pos]; exact consumed_succ hr.legal hn

/-- The beat of a running command reads inside its buffer (R29). -/
theorem beat_readsFrom (hr : s.blk.Runs i r0 m n) (hread : s.ReadsFrom m s.eng.src.toNat s.eng.len.toNat)
    (hn : n < beats i s.eng.len.toNat) :
    s.ReadsFrom m s.readAddr (beatSize i s.eng.len.toNat s.eng.pos) := by
  have hend : s.eng.pos + beatSize i s.eng.len.toNat s.eng.pos ≤ s.eng.len.toNat :=
    (hr.pos_beat hn).le.trans (consumed_le _ _ _)
  exact hread.mono (Nat.le_add_right _ _) (by simp only [State.readAddr]; omega)

/-- An engine turn with beats left takes the next beat (R70). -/
theorem Block.Runs.of_beat (hr : s.blk.Runs i r0 m n) (hread : s.ReadsFrom m s.eng.src.toNat s.eng.len.toNat)
    (hn : n < beats i s.eng.len.toNat) (h : engineStep s = .next t) : t.blk.Runs i r0 m (n + 1) := by
  have hlt : s.eng.pos < s.eng.len.toNat := hr.pos_lt hn
  rcases engineStep_cases s t h with ⟨hb, -⟩ | ⟨-, j, hop, -, -, -, rfl⟩ | ⟨-, j, -, hle, -⟩
  · simp [hr.busy] at hb
  · obtain rfl : j = i := Option.some.inj (hop.symm.trans hr.op)
    have hsums := beatEngine_partialSums hr.op hr.sums hr.progress hlt (beat_readsFrom hr hread hn)
    have hpos := (beatEngine_pos j s).trans (hr.pos_beat hn)
    exact ⟨hr.busy, hr.not_done, hr.no_err, hr.results, (beatEngine_op j s).trans hr.op,
      (beatEngine_src j s).trans hr.src, (beatEngine_len j s).trans hr.len, (beatEngine_sumIn j s).trans hr.sumIn,
      by simpa using hr.legal, by simpa using hpos, hsums⟩
  · omega

/-- An engine turn after the last beat completes the command with its result (R71, R73). -/
theorem Block.Runs.completes (hr : s.blk.Runs i r0 m n)
    (hread : s.ReadsFrom m s.eng.src.toNat s.eng.len.toNat) (hn : n = beats i s.eng.len.toNat)
    (h : engineStep s = .next t) :
    let r := commandResult i m r0.src.toNat r0.len.toNat r0.sumIn
    t.regs = completedRegs r.sum r.carry (fold r.sum) r.loss s.regs := by
  have hend := hr.pos_eq hn
  have hstep := engineStep_complete s i hr.busy hr.op hend.ge
  obtain rfl : complete i s = t := Host.Outcome.next.inj (hstep.symm.trans h)
  have hresult := outcome_eq_commandResult hr.op hr.sums hend hr.progress
  rw [hr.src, hr.len, hr.sumIn, commandResult_latch] at hresult
  rw [complete_regs_quiet i hread.quiet, ← hresult]
  rfl

/-! ### Every turn -/

/-- A step that is neither the instance's own engine turn nor its reset keeps a running command as it is. -/
theorem State.Runs.step_other (hr : s.Runs i r0 m n) (h : step s = .next t) (hreset : nextTurn s ≠ .reset 0)
    (hengine : nextTurn s ≠ .engine 0) : t.Runs i r0 m n := by
  have hblk : t.blk.Runs i r0 m n := by
    rcases step_block s t h with hblk | ⟨hn, -⟩ | ⟨hn, -⟩ | ⟨-, off, v, p, r, -, -, -, hrs, hw⟩
    · exact hblk ▸ hr.block
    · exact absurd hn hreset
    · exact absurd hn hengine
    · exact Block.Runs.of_regWrite (hrs ▸ hr.block) hw
  refine ⟨hblk, ?_, step_mem_wf h hr.mem_wf⟩
  have hread := step_readsFrom h hr.mem_wf hr.block.busy hr.reads
  rwa [State.eng, hblk.src, hblk.len, ← hr.block.src, ← hr.block.len]

theorem State.ReadsFrom.withSched {addr k : Nat} (h : s.ReadsFrom m addr k) (ts : List Turn) :
    (s.withSched ts).ReadsFrom m addr k := ⟨h.quiet, h.same⟩

/-- The instance's own engine turn with beats left takes the next beat. -/
theorem State.Runs.step_beat (hr : s.Runs i r0 m n) (h : step s = .next t) (hengine : nextTurn s = .engine 0)
    (hn : n < beats i s.eng.len.toNat) : t.Runs i r0 m (n + 1) := by
  have hblk : t.blk.Runs i r0 m (n + 1) :=
    Block.Runs.of_beat (s := s.withSched s.sched.tail) hr.block (hr.reads.withSched _) hn
      ((step_engine s hengine).symm.trans h)
  refine ⟨hblk, ?_, step_mem_wf h hr.mem_wf⟩
  have hread := step_readsFrom h hr.mem_wf hr.block.busy hr.reads
  rwa [State.eng, hblk.src, hblk.len, ← hr.block.src, ← hr.block.len]

/-- The instance's own engine turn after the last beat completes the command. -/
theorem State.Runs.step_complete (hr : s.Runs i r0 m n) (h : step s = .next t)
    (hengine : nextTurn s = .engine 0) (hn : n = beats i s.eng.len.toNat) :
    let r := commandResult i m r0.src.toNat r0.len.toNat r0.sumIn
    t.regs = completedRegs r.sum r.carry (fold r.sum) r.loss s.regs :=
  Block.Runs.completes (s := s.withSched s.sched.tail) hr.block (hr.reads.withSched _) hn
    ((step_engine s hengine).symm.trans h)

/-- A running command has the beats of the LEN it was accepted with. -/
theorem State.Runs.beats_eq (hr : s.Runs i r0 m n) : beats i s.eng.len.toNat = beats i r0.len.toNat := by
  rw [State.eng, hr.block.len, beats_latch]

end

/-! ### Runs -/

/-- A run of `k + 1` steps whose first goes on is a run of `k` from there. -/
theorem run_of_step {M : Host.Core} {k : Nat} {s t : M.State} (h : M.step s = .next t) :
    M.run (k + 1) s = M.run k t := by
  rw [Host.Core.run, h]

/-- A run of `k + 1` steps that goes on is a step and a run of `k`. -/
theorem run_succ {M : Host.Core} {k : Nat} {s u : M.State} (h : M.run (k + 1) s = .next u) :
    ∃ t, M.step s = .next t ∧ M.run k t = .next u := by
  cases hstep : M.step s with
  | next t => exact ⟨t, rfl, (run_of_step hstep).symm.trans h⟩
  | fault r => simp [Host.Core.run, hstep] at h
  | refused r => simp [Host.Core.run, hstep] at h

/-- It is also a run of `k` and a last step. -/
theorem run_succ_last {M : Host.Core} {k : Nat} {s u : M.State} (h : M.run (k + 1) s = .next u) :
    ∃ t, M.run k s = .next t ∧ M.step t = .next u := by
  induction k generalizing s with
  | zero =>
    obtain ⟨t, hstep, hrun⟩ := run_succ h
    cases hrun
    exact ⟨s, rfl, hstep⟩
  | succ k ih =>
    obtain ⟨t, hstep, hrun⟩ := run_succ h
    obtain ⟨r, hr, hlast⟩ := ih hrun
    exact ⟨r, (run_of_step hstep).trans hr, hlast⟩

/-- A run of `k` steps takes `k` turns off the schedule (R140). -/
theorem run_sched {k : Nat} {s u : State} (h : Host.Core.run core k s = .next u) :
    u.sched = s.sched.drop k := by
  induction k generalizing s with
  | zero => cases h; rfl
  | succ k ih =>
    obtain ⟨t, hstep, hrun⟩ := run_succ (M := core) h
    rw [ih hrun, step_sched hstep, List.drop_tail]

/-- Over any turns without a reset of the instance, and with no more engine turns of it than beats are left, the
command stays running, one beat further for each of those engine turns (R73). -/
theorem State.Runs.of_run {i : Instr} {r0 : Regs} {m : Memory} {n : Nat} {s u : State} {ts rest : List Turn}
    (hr : s.Runs i r0 m n) (hs : s.sched = ts ++ rest) (hreset : Turn.reset 0 ∉ ts)
    (hn : n + ts.count (.engine 0) ≤ beats i r0.len.toNat)
    (h : Host.Core.run core ts.length s = .next u) : u.Runs i r0 m (n + ts.count (.engine 0)) := by
  induction ts generalizing s n with
  | nil => cases h; exact hr
  | cons tn ts ih =>
    obtain ⟨t, hstep, hrun⟩ := run_succ (M := core) h
    have hnext : nextTurn s = tn := nextTurn_sched s tn _ hs
    have hsched : t.sched = ts ++ rest := by rw [step_sched hstep, hs]; rfl
    obtain ⟨hne, hreset⟩ := not_or.1 (mt List.mem_cons.2 hreset)
    by_cases htn : tn = .engine 0
    · rw [htn, List.count_cons_self] at hn ⊢
      have hbeat := hr.step_beat hstep (hnext.trans htn) (by rw [hr.beats_eq]; omega)
      have hu := ih hbeat hsched hreset (by omega) hrun
      rwa [Nat.add_right_comm, Nat.add_assoc] at hu
    · rw [List.count_cons_of_ne htn] at hn ⊢
      exact ih (hr.step_other hstep (by rw [hnext]; exact Ne.symm hne) (by rwa [hnext])) hsched hreset hn hrun

/-- Settles O46: acceptance starts the command, it runs through every turn before the last engine turn, and that
turn completes it with the result of the memory and the operands at acceptance. -/
theorem resultIndependentOfInterleaving : Obligations.ResultIndependentOfInterleaving := by
  intro i s t u ts rest hinv hb hv hq hexec hs hreset hrun n r
  obtain rfl : acceptCommand i s = t :=
    Host.Outcome.next.inj ((exec_accepts_of_validate hb hv).symm.trans hexec)
  have hstart := acceptCommand_runs hinv.mem_wf (validate_encode i _ _ ▸ hv) hq
  refine ⟨fun hn => ?_, fun hn hlast => ?_⟩
  · obtain ⟨hruns, -, -⟩ := hstart.of_run hs hreset (by simpa using hn) hrun
    exact ⟨hruns.busy, hruns.not_done, hruns.results.result, hruns.results.sum, hruns.results.carry⟩
  · obtain ⟨front, rfl⟩ := List.getLast?_eq_some_iff.1 hlast
    have hcount : front.count (.engine 0) = beats i s.regs.len.toNat := by
      simpa [n] using hn
    rw [List.length_append, List.length_singleton] at hrun
    obtain ⟨w, hfront, hstep⟩ := run_succ_last (M := core) hrun
    have hruns := hstart.of_run (hs.trans (List.append_assoc _ _ _)) (fun hmem => hreset (by simp [hmem]))
      (by omega) hfront
    have hnext : nextTurn w = .engine 0 := nextTurn_sched w _ rest (by
      rw [run_sched hfront]
      change s.sched.drop _ = _
      rw [hs]; simp)
    have hregs := hruns.step_complete hstep hnext (by rw [hruns.beats_eq, Nat.zero_add, hcount])
    have hbusy : State.busy u = false := congrArg (·.status.busy) hregs
    simp only [hregs]
    exact ⟨hbusy, rfl, hruns.block.no_err, rfl, rfl, rfl, rfl⟩

end Sys2Proof.Machine
end

section
/-! PROOFS. The lane primitives: modular addition (R74), overflow detection and its biased comparison (R78, R79), the
mask (R81), the halved population count (R83) and the carry lanes (R84). -/

namespace Sys2Proof.Machine

/-- Flipping the sign bit and reading signed subtracts 2^15 (R79). -/
theorem toInt_xor_signBit (p : Half) : (p ^^^ 0x8000#16).toInt = p.toNat - 2 ^ 15 := by
  obtain ⟨b, l, rfl⟩ : ∃ (b : Bool) (l : BitVec 15), p = .cons b l :=
    ⟨p.msb, p.setWidth 15, (BitVec.cons_msb_setWidth p).symm⟩
  have hflip : BitVec.cons b l ^^^ 0x8000#16 = .cons (!b) l := by
    rw [show 0x8000#16 = .cons true 0#15 by decide, BitVec.cons_xor_cons, Bool.xor_true, BitVec.xor_zero]
  rw [hflip, BitVec.toInt_eq_msb_cond, BitVec.msb_cons, BitVec.toNat_cons', BitVec.toNat_cons']
  cases b with
  | false => simp; omega
  | true => simp

/-- Settles O22: both signed values are the unsigned ones less 2^15. -/
theorem biasedComparisonIsUnsigned : Obligations.BiasedComparisonIsUnsigned := by
  intro p q
  rw [biasedGreater, laneOverflowed, toInt_xor_signBit, toInt_xor_signBit]
  exact decide_eq_decide.2 (by omega)

/-- Settles O20: both adders are word addition with the carry of `add32_snd` and `add16_snd`. -/
theorem modularAddition : Obligations.ModularAddition :=
  ⟨fun x y => ⟨BitVec.toNat_add x y, add32_snd x y⟩, fun x y => ⟨BitVec.toNat_add x y, add16_snd x y⟩⟩

/-- Settles O21: the bit is the comparison with the old lane, and the sum wraps below an operand exactly when it
reaches 2^16. -/
theorem laneOverflowDetection : Obligations.LaneOverflowDetection := by
  intro x y i
  have hlane : (vadd16 x y)[i] = x[i] + y[i] := vadd16_get x y i i.isLt
  have hbit : (ovfv x (vadd16 x y))[i] = laneOverflowed x[i] (x[i] + y[i]) := by simp
  rw [hbit, hlane]
  refine ⟨laneOverflowed_iff _ _, laneOverflowed_add _ _, ?_⟩
  rw [laneOverflowed_add, BitVec.toNat_add]
  have hx := x[i].isLt
  have hy := y[i].isLt
  omega

/-- Settles O23: mask positions `2 i` and `2 i + 1` both halve to `i`. -/
theorem maskReplicatesLaneBits : Obligations.MaskReplicatesLaneBits := by
  intro o i
  have heven : 2 * i.val / 2 = i := by omega
  have hodd : (2 * i.val + 1) / 2 = i := by omega
  rw [movmask_getLsbD o _ (by omega), movmask_getLsbD o _ (by omega)]
  simp only [heven, hodd, Fin.getElem_fin, and_self]

/-- Sixteen lanes with a bounded value each. -/
theorem sum_fin16_le {f : Fin 16 → Nat} {b : Nat} (h : ∀ i, f i ≤ b) : ∑ i, f i ≤ 16 * b := by
  simpa using Finset.sum_le_card_nsmul Finset.univ f b fun i _ => h i

/-- Settles O24: each mask counts its lanes twice, and there are sixteen lanes in each. -/
theorem halvedCountIsExact : Obligations.HalvedCountIsExact := by
  intro o0 o1
  have hcount := half_popcount64_movmask o1 o0
  have h0 := sum_fin16_le fun i : Fin 16 => Bool.toNat_le (c := o0[i])
  have h1 := sum_fin16_le fun i : Fin 16 => Bool.toNat_le (c := o1[i])
  refine ⟨?_, hcount, by omega⟩
  rw [hcount, popcount64_append, sum_movmask, sum_movmask, Nat.mul_add]

/-- Settles O25: an incremented lane is 0 exactly when it held 0xFFFF. -/
theorem carryLanesCount : Obligations.CarryLanesCount := by
  intro cs o
  refine ⟨cinc_toNat cs o, (cinc_loss cs o).trans (exists_congr fun i => and_congr_right fun _ => ?_)⟩
  have hlt := cs[i].isLt
  rw [BitVec.toNat_eq, BitVec.toNat_add]
  change (cs[i].toNat + 1) % 2 ^ 16 = 0 ↔ _
  omega

end Sys2Proof.Machine
end

section
/-! PROOFS. The fold's loop (R93 to R95): how many rounds it takes, and what it depends on of a value. -/

namespace Sys2Proof.Machine

/-! ### The rounds of the fold -/

/-- Below 2^16 the loop has nothing to do (R93). -/
theorem foldLoop_of_lt {n : Nat} (k : Nat) (h : n < 2 ^ 16) : foldLoop k n = n := by
  cases k with
  | zero => rfl
  | succ k => exact if_pos h

/-- From 2^16 on it takes a round (R93). -/
theorem foldLoop_of_le {n : Nat} (k : Nat) (h : 2 ^ 16 ≤ n) : foldLoop (k + 1) n = foldLoop k (foldStep n) :=
  if_neg (Nat.not_lt.2 h)

/-- As many rounds as the value itself are enough, since each makes it smaller (R93, R95). -/
theorem foldLoop_lt {k n : Nat} (hk : n ≤ k) : foldLoop k n < 2 ^ 16 := by
  induction k generalizing n with
  | zero => rw [Nat.le_zero.1 hk]; decide
  | succ k ih =>
    rcases Nat.lt_or_ge n (2 ^ 16) with h | h
    · rwa [foldLoop_of_lt _ h]
    · rw [foldLoop_of_le _ h]
      exact ih (by unfold foldStep; omega)

/-- On 32 bits two rounds are enough (R94). -/
theorem foldLoop_two_lt (x : Word) : foldLoop 2 x.toNat < 2 ^ 16 := by
  have hx := x.isLt
  rcases Nat.lt_or_ge x.toNat (2 ^ 16) with h | h
  · rwa [foldLoop_of_lt _ h]
  · rw [foldLoop_of_le _ h]
    rcases Nat.lt_or_ge (foldStep x.toNat) (2 ^ 16) with h' | h'
    · rwa [foldLoop_of_lt _ h']
    · rw [foldLoop_of_le _ h', foldLoop]
      unfold foldStep at h' ⊢
      omega

/-! ### Values with the same fold -/

/-- Equal modulo 2^16 - 1, and both zero or neither: what a fold step keeps of a value, and all that its fold
depends on (R95). -/
structure FoldEquiv (a b : Nat) : Prop where
  residue : a ≡ b [MOD 0xFFFF]
  zero_iff : a = 0 ↔ b = 0

theorem FoldEquiv.refl (a : Nat) : FoldEquiv a a := ⟨Nat.ModEq.refl a, Iff.rfl⟩

theorem FoldEquiv.symm {a b : Nat} (h : FoldEquiv a b) : FoldEquiv b a := ⟨h.residue.symm, h.zero_iff.symm⟩

theorem FoldEquiv.trans {a b c : Nat} (h : FoldEquiv a b) (g : FoldEquiv b c) : FoldEquiv a c :=
  ⟨h.residue.trans g.residue, h.zero_iff.trans g.zero_iff⟩

theorem FoldEquiv.add {a b c d : Nat} (h : FoldEquiv a b) (g : FoldEquiv c d) : FoldEquiv (a + c) (b + d) :=
  ⟨h.residue.add g.residue, by rw [Nat.add_eq_zero_iff, Nat.add_eq_zero_iff, h.zero_iff, g.zero_iff]⟩

theorem FoldEquiv.sum {ι : Type} {s : Finset ι} {f g : ι → Nat} (h : ∀ i, FoldEquiv (f i) (g i)) :
    FoldEquiv (∑ i ∈ s, f i) (∑ i ∈ s, g i) :=
  Finset.sum_hom_rel (.refl 0) fun i _ _ => (h i).add

/-- Of all values with the same fold at most one is below 2^16. -/
theorem FoldEquiv.eq_of_lt {a b : Nat} (h : FoldEquiv a b) (ha : a < 2 ^ 16) (hb : b < 2 ^ 16) : a = b := by
  obtain ⟨hresidue, hzero⟩ := h
  unfold Nat.ModEq at hresidue
  omega

/-- A sum that fits in 32 bits folds as its word does. -/
theorem FoldEquiv.ofNat {a b : Nat} (h : FoldEquiv a b) (ha : a < 2 ^ 32) :
    FoldEquiv (BitVec.ofNat 32 a).toNat b := by
  rwa [BitVec.toNat_ofNat, Nat.mod_eq_of_lt ha]

/-- A round counts 2^16 as 1, which is the same modulo 2^16 - 1 (R95). -/
theorem foldStep_equiv (n : Nat) : FoldEquiv (foldStep n) n := by
  refine ⟨?_, ?_⟩
  · unfold Nat.ModEq foldStep; omega
  · unfold foldStep; omega

/-- The loop keeps the fold of its value, however many rounds it takes (R95). -/
theorem foldLoop_equiv (k n : Nat) : FoldEquiv (foldLoop k n) n := by
  induction k generalizing n with
  | zero => exact .refl n
  | succ k ih =>
    rcases Nat.lt_or_ge n (2 ^ 16) with h | h
    · rw [foldLoop_of_lt _ h]; exact .refl n
    · rw [foldLoop_of_le _ h]; exact (ih _).trans (foldStep_equiv n)

/-- Values with the same fold: the block's two rounds on the one give what the loop gives on the other. -/
theorem fold_eq_of_equiv {x : Word} {n : Nat} (h : FoldEquiv x.toNat n) :
    fold x = ~~~ (BitVec.ofNat 16 (foldS n)) := by
  have hequiv := (foldLoop_equiv 2 x.toNat).trans (h.trans (foldLoop_equiv n n).symm)
  rw [fold, foldS, hequiv.eq_of_lt (foldLoop_two_lt x) (foldLoop_lt le_rfl)]

end Sys2Proof.Machine
end

section
/-! PROOFS. A completion without loss leaves the reference checksum (R86, O51): the SUM of each strategy has the same
fold as the exact sum of its buffer. -/

namespace Sys2Proof.Machine

/-- Over whole pairs of chunks the exact sum is the sum of both accumulators' lanes (R39, R116). -/
theorem exactSum_pairs (m : Memory) (src n : Nat) : exactSum m src (64 * n)
    = (∑ i : Fin 16, laneSum m src 64 n i) + ∑ i : Fin 16, laneSum m (src + 32) 64 n i := by
  induction n with
  | zero => simp [exactSum, laneSum]
  | succ n ih =>
    have hlo := exactSum_words m src (pos := 64 * n) (by omega) 16
    have hhi := exactSum_words m src (pos := 64 * n + 2 * 16) (by omega) 16
    rw [show src + (64 * n + 2 * 16) = src + 32 + 64 * n by omega, hlo, ih,
      ← Fin.sum_univ_eq_sum_range fun i => bufWord m (src + 64 * n + 2 * i),
      ← Fin.sum_univ_eq_sum_range fun i => bufWord m (src + 32 + 64 * n + 2 * i)] at hhi
    rw [show 64 * (n + 1) = 64 * n + 2 * 16 + 2 * 16 by omega, hhi]
    simp only [laneSum_succ, Finset.sum_add_distrib]
    omega

/-- Splitting each of sixteen lane sums into its low half and its carries keeps the fold of their total: it is
one round of the fold, lane by lane. -/
theorem lowsAndCarries_equiv (e : Fin 16 → Nat) :
    FoldEquiv ((∑ i, e i % 2 ^ 16) + ∑ i, e i / 2 ^ 16) (∑ i, e i) := by
  rw [← Finset.sum_add_distrib]
  exact .sum fun i => foldStep_equiv (e i)

/-- Without loss NARROW adds the lane sums' low halves and all their carries (R111, R113). -/
theorem narrow_sum_equiv {m : Memory} {src len : Nat} {sumIn : Word} (hlen : len % 32 = 0)
    (hloss : (commandResult .narrow m src len sumIn).loss = false) :
    FoldEquiv (commandResult .narrow m src len sumIn).sum.toNat (exactSum m src len) := by
  have hsmall : ∀ i : Fin 16, laneSum m src 32 (len / 32) i < 2 ^ 32 := by
    simpa [commandResult] using hloss
  have hcarry : ∀ i : Fin 16, laneSum m src 32 (len / 32) i / 2 ^ 16 < 2 ^ 16 := fun i => by
    have hi := hsmall i
    omega
  have hlows := sum_fin16_le fun i : Fin 16 =>
    (Nat.mod_lt (laneSum m src 32 (len / 32) i) (Nat.two_pow_pos 16)).le
  have hcarries := sum_fin16_le fun i => (hcarry i).le
  have hequiv := lowsAndCarries_equiv fun i => laneSum m src 32 (len / 32) i
  rw [← exactSum_chunks, Nat.mul_div_cancel' (Nat.dvd_of_mod_eq_zero hlen)] at hequiv
  simp only [commandResult, Nat.mod_eq_of_lt (hcarry _)]
  exact hequiv.ofNat (by omega)

/-- POPCNT adds the low halves of both accumulators' lane sums and all their carries, and cannot lose any
(R118). -/
theorem popcnt_sum_equiv {m : Memory} {src len : Nat} {sumIn : Word} (hlen : len % 64 = 0)
    (hmax : len < 2 ^ 32) :
    FoldEquiv (commandResult .popcnt m src len sumIn).sum.toNat (exactSum m src len) := by
  have hlows := sum_fin16_le fun i : Fin 16 => Nat.add_le_add
    (Nat.mod_lt (laneSum m src 64 (len / 64) i) (Nat.two_pow_pos 16)).le
    (Nat.mod_lt (laneSum m (src + 32) 64 (len / 64) i) (Nat.two_pow_pos 16)).le
  have hcarries := pairCarries_le m src (len / 64)
  have hequiv := (lowsAndCarries_equiv fun i => laneSum m src 64 (len / 64) i).add
    (lowsAndCarries_equiv fun i => laneSum m (src + 32) 64 (len / 64) i)
  rw [Nat.add_add_add_comm, ← Finset.sum_add_distrib, ← Finset.sum_add_distrib, ← exactSum_pairs,
    Nat.mul_div_cancel' (Nat.dvd_of_mod_eq_zero hlen)] at hequiv
  exact hequiv.ofNat (by unfold pairCarries at hcarries; omega)

/-- Without loss the SUM of a strategy folds as the exact sum of its buffer (R86). -/
theorem commandResult_sum_equiv {i : Instr} {m : Memory} {src len pos : Nat} {sumIn : Word} (hi : i ≠ .fold)
    (hlen : progressOk i len pos) (hmax : len < 2 ^ 32)
    (hloss : (commandResult i m src len sumIn).loss = false) :
    FoldEquiv (commandResult i m src len sumIn).sum.toNat (exactSum m src len) := by
  cases i with
  | scalar => exact (FoldEquiv.refl _).ofNat (Nat.not_le.1 (of_decide_eq_false hloss))
  | wide => exact (FoldEquiv.refl _).ofNat (Nat.not_le.1 (of_decide_eq_false hloss))
  | narrow => exact narrow_sum_equiv hlen.1 hloss
  | popcnt => exact popcnt_sum_equiv hlen.1 hmax
  | fold => exact absurd rfl hi

/-- Without loss the fold of a strategy's SUM is the reference checksum of its buffer (R86). -/
theorem fold_commandResult {i : Instr} {m : Memory} {src len pos : Nat} {sumIn : Word} (hi : i ≠ .fold)
    (hlen : progressOk i len pos) (hmax : len < 2 ^ 32)
    (hloss : (commandResult i m src len sumIn).loss = false) :
    fold (commandResult i m src len sumIn).sum = rfc m src len :=
  fold_eq_of_equiv (commandResult_sum_equiv hi hlen hmax hloss)

/-- On a buffer whose reads have no side effects completion writes the engine's outcome (R71). -/
theorem complete_regs_outcome (i : Instr) {s : State} (hq : s.quiet s.eng.src.toNat s.eng.len.toNat) :
    (complete i s).regs = completedRegs (s.eng.outcome i).sum (s.eng.outcome i).carry
      (fold (s.eng.outcome i).sum) (s.eng.outcome i).loss s.regs :=
  complete_regs_quiet i hq

/-- Settles O51: by the data invariant the engine's outcome is the command's result on the buffer, whose SUM folds
as the exact sum does unless something was lost. -/
theorem completionGivesReferenceChecksum : Obligations.CompletionGivesReferenceChecksum := by
  intro s t i hinv hdata hop hi hend hq h
  have hbusy : s.busy = true := hinv.focus_inv.busy_iff.2 (by rw [hop]; rfl)
  obtain ⟨-, -, hprogress⟩ := hinv.focus_inv.running i hop
  have hsums := hdata.focus_data hq
  obtain rfl : complete i s = t :=
    Host.Outcome.next.inj ((engineStep_complete s i hbusy hop hend.ge).symm.trans h)
  have hresult := outcome_eq_commandResult hop hsums hend hprogress
  rw [complete_regs_outcome i hq, hresult]
  exact ⟨rfl, fold_commandResult hi hprogress s.eng.len.isLt⟩

end Sys2Proof.Machine
end

section
/-! PROOFS. SCALAR's beats (R88, R89): what a beat leaves alone, and what it adds to the accumulator. -/

namespace Sys2Proof.Machine

/-! ### A beat and its frame -/

/-- On readable bytes the engine step is the beat: the engine becomes the family's, and nothing outside it
changes (R35, R70, R72). -/
theorem engineStep_takesBeat {s : State} {i : Instr} (hb : s.busy = true) (hop : s.eng.op = some i)
    (hi : i ≠ .fold) (hlt : s.eng.pos < s.eng.len.toNat)
    (hread : s.canRead s.readAddr (beatSize i s.eng.len.toNat s.eng.pos)) :
    ∃ t, engineStep s = .next t ∧ SameOutsideEngine s t ∧ t.eng = beatEngine i s :=
  ⟨_, engineStep_beat s i hb hop hi hlt hread, rfl, rfl⟩

/-! ### What SCALAR adds -/

/-- What a SCALAR beat of `n` bytes with value `v` makes of the engine: only `acc`, `pos` and `ovf` move, a loss
is kept, and where the value is what was read (`p`) the sum and its carry are the exact ones (R88, R89). -/
structure ScalarAdds (n v : Nat) (p : Prop) (e e' : Engine) : Prop where
  frame : e' = { e with acc := e'.acc, pos := e.pos + n, ovf := e'.ovf }
  loss_kept : e.ovf = true → e'.ovf = true
  sum : p → e'.acc = e.acc + BitVec.ofNat 32 v ∧ e'.ovf = (e.ovf || decide (2 ^ 32 ≤ e.acc.toNat + v))

/-- Adding a word adds its value. -/
theorem scalarAdd_adds {n v : Nat} {p : Prop} {w : Word} (e : Engine) (hw : p → w.toNat = v) :
    ScalarAdds n v p e (scalarAdd n w e) := by
  refine ⟨rfl, fun hloss => Bool.or_eq_true_iff.2 (.inl hloss), fun hp => ?_⟩
  obtain rfl : w.toNat = v := hw hp
  rw [BitVec.ofNat_toNat, BitVec.setWidth_eq]
  exact ⟨rfl, rfl⟩

/-- With two bytes left SCALAR's beat adds the little-endian word (R88). -/
theorem scalarWord_adds {s : State} (h2 : s.eng.pos + 2 ≤ s.eng.len.toNat) :
    ScalarAdds 2 (bufWord s.mem s.readAddr) (s.quiet s.readAddr 2) s.eng (beatEngine .scalar s) := by
  simp only [beatEngine, if_pos h2]
  refine scalarAdd_adds s.eng fun hq => ?_
  rw [zeroExtend_toNat, s.halfAt_toNat _ (hq _ le_rfl (by omega)) (hq _ (by omega) (by omega))]

/-- With one byte left it adds the byte, unshifted (R89). -/
theorem scalarByte_adds {s : State} (h1 : s.eng.pos + 1 = s.eng.len.toNat) :
    ScalarAdds 1 (bufByte s.mem s.readAddr) (s.quiet s.readAddr 1) s.eng (beatEngine .scalar s) := by
  simp only [beatEngine, if_neg (show ¬ s.eng.pos + 2 ≤ s.eng.len.toNat by omega)]
  refine scalarAdd_adds s.eng fun hq => ?_
  rw [BitVec.toNat_setWidth_of_le (by decide), s.byteAt_quiet _ (hq _ le_rfl (by omega)), bufByte]

/-- SCALAR's engine step on `n` readable bytes: it goes on, only the engine moves, and the engine takes up what
the beat adds. -/
theorem engineStep_scalarAdds {s : State} {n v : Nat} {p : Prop} (hb : s.busy = true)
    (hop : s.eng.op = some .scalar) (hlt : s.eng.pos < s.eng.len.toNat)
    (hsize : beatSize .scalar s.eng.len.toNat s.eng.pos = n) (hread : s.canRead s.readAddr n)
    (hadds : ScalarAdds n v p s.eng (beatEngine .scalar s)) :
    ∃ t, engineStep s = .next t ∧ SameOutsideEngine s t ∧ ScalarAdds n v p s.eng t.eng := by
  obtain ⟨t, hstep, hframe, heng⟩ := engineStep_takesBeat hb hop (by decide) hlt (hsize ▸ hread)
  exact ⟨t, hstep, hframe, heng ▸ hadds⟩

/-- Settles O31: with two bytes left the step is the two-byte beat, which adds the word. (`scalarWordBeat` is the
model's beat itself.) -/
theorem scalarWordBeat_holds : Obligations.ScalarWordBeat := by
  intro s hb hop h2 hread
  obtain ⟨t, hstep, hframe, heng, hloss, hsum⟩ :=
    engineStep_scalarAdds hb hop (by omega) (if_pos h2) hread (scalarWord_adds h2)
  exact ⟨t, hstep, hframe, heng, hloss, hsum⟩

/-- Settles O32: with one byte left the step is the one-byte beat, which adds the byte's value. -/
theorem scalarTrailingByteBeat : Obligations.ScalarTrailingByteBeat := by
  intro s hb hop h1 hread
  obtain ⟨t, hstep, hframe, heng, hloss, hsum⟩ :=
    engineStep_scalarAdds hb hop (by omega) (if_neg (by omega)) hread (scalarByte_adds h1)
  exact ⟨t, hstep, hframe, heng, hloss, hsum⟩

end Sys2Proof.Machine
end

section
/-! PROOFS. The fold on 32 bits: its two rounds and the two-stage form (R94, O28), its law (R95, O29), and the command
CSUM.FOLD from its acceptance to its completion (R97, O38). -/

namespace Sys2Proof.Machine

/-! ### Two rounds -/

/-- Below 2^16 a step changes nothing, so whether the loop tests for that first makes no difference (R93). -/
theorem foldLoop_succ (k n : Nat) : foldLoop (k + 1) n = foldLoop k (foldStep n) := by
  rcases Nat.lt_or_ge n (2 ^ 16) with h | h
  · have hstep : foldStep n = n := by unfold foldStep; omega
    rw [hstep, foldLoop_of_lt _ h, foldLoop_of_lt _ h]
  · exact foldLoop_of_le k h

/-- The low and the high half of a word add up to one step of the loop (R93, R94). -/
theorem halves_add_eq_foldStep (x : Word) :
    (x.extractLsb' 0 16).toNat + (x.extractLsb' 16 16).toNat = foldStep x.toNat := by
  have hx := x.isLt
  simp only [BitVec.extractLsb'_toNat, Nat.shiftRight_eq_div_pow]
  unfold foldStep
  omega

/-- One step of the loop takes a word below 2^17 (R94). -/
theorem foldStep_word_lt (x : Word) : foldStep x.toNat < 2 ^ 17 := by
  have hx := x.isLt
  unfold foldStep
  omega

/-- The second stage's one carry bit is all that is left above the low half: the two stages are the loop's two
rounds (R94). -/
theorem foldTwoStage_eq_fold (x : Word) : foldTwoStage x = fold x := by
  have hlt := foldStep_word_lt x
  have hcarry : foldStep x.toNat / 2 ^ 16 % 2 = foldStep x.toNat / 2 ^ 16 := by omega
  rw [foldTwoStage, halves_add_eq_foldStep, hcarry, fold, foldLoop_succ, foldLoop_succ]
  rfl

theorem foldS_lt (n : Nat) : foldS n < 2 ^ 16 := foldLoop_lt le_rfl

theorem foldS_equiv (n : Nat) : FoldEquiv (foldS n) n := foldLoop_equiv n n

/-- Settles O28: both loops end below 2^16 with the fold of `x`, where there is only one such value. -/
theorem foldTwoRounds : Obligations.FoldTwoRounds := fun x =>
  have hequiv := (foldLoop_equiv 2 x.toNat).trans (foldS_equiv x.toNat).symm
  ⟨foldLoop_two_lt x, hequiv.eq_of_lt (foldLoop_two_lt x) (foldS_lt _), foldTwoStage_eq_fold x,
    fold_eq_of_equiv (.refl _)⟩

/-! ### The fold's law -/

/-- From 1 on the fold is the residue in 1..0xFFFF (R95). -/
theorem foldS_of_pos {n : Nat} (h : 1 ≤ n) : foldS n = 1 + (n - 1) % 0xFFFF := by
  have hresidue : FoldEquiv n (1 + (n - 1) % 0xFFFF) := ⟨by unfold Nat.ModEq; omega, by omega⟩
  exact ((foldS_equiv n).trans hresidue).eq_of_lt (foldS_lt n) (by omega)

/-- `FoldEquiv` is exactly what the loop's value depends on (R95). -/
theorem foldS_eq_iff {a b : Nat} : foldS a = foldS b ↔ FoldEquiv a b := by
  constructor
  · intro h
    have ha := (foldS_equiv a).symm
    rw [h] at ha
    exact ha.trans (foldS_equiv b)
  · intro h
    exact ((foldS_equiv a).trans (h.trans (foldS_equiv b).symm)).eq_of_lt (foldS_lt a) (foldS_lt b)

/-- Complementing 16 bits loses nothing, so two words fold alike exactly when the loop ends alike (R93). -/
theorem fold_eq_iff_foldS {x y : Word} : fold x = fold y ↔ foldS x.toNat = foldS y.toNat := by
  rw [fold_eq_of_equiv (.refl x.toNat), fold_eq_of_equiv (.refl y.toNat), BitVec.not_inj, BitVec.toNat_eq,
    BitVec.toNat_ofNat, BitVec.toNat_ofNat, Nat.mod_eq_of_lt (foldS_lt _), Nat.mod_eq_of_lt (foldS_lt _)]

theorem fold_eq_iff {x y : Word} : fold x = fold y ↔
    (x = 0 ∧ y = 0) ∨ (x ≠ 0 ∧ y ≠ 0 ∧ x.toNat % 0xFFFF = y.toNat % 0xFFFF) := by
  rw [fold_eq_iff_foldS, foldS_eq_iff]
  have hzero : ∀ w : Word, w = 0 ↔ w.toNat = 0 := fun w => BitVec.toNat_eq
  rw [ne_eq, ne_eq, hzero x, hzero y]
  constructor
  · rintro ⟨hresidue, hiff⟩
    unfold Nat.ModEq at hresidue
    omega
  · rintro (⟨hx, hy⟩ | ⟨hx, hy, hresidue⟩)
    · rw [hx, hy]; exact .refl 0
    · exact ⟨hresidue, iff_of_false hx hy⟩

/-- 0xFFFF is the fold of 0 (R95, R96). -/
theorem fold_eq_ones_iff (x : Word) : fold x = 0xFFFF ↔ x = 0 := by
  have hzero : fold 0 = 0xFFFF := by decide
  rw [← hzero, fold_eq_iff]
  simp

/-- 0x0000 is the fold of 0xFFFF (R95, R96). -/
theorem fold_eq_zero_iff (x : Word) : fold x = 0x0000 ↔ x ≠ 0 ∧ x.toNat % 0xFFFF = 0 := by
  have hones : fold 0xFFFF = 0x0000 := by decide
  rw [← hones, fold_eq_iff]
  simp

/-- Settles O29: the loop's value is the one below 2^16 in its `FoldEquiv` class, and the consequences compare
classes. -/
theorem foldLaw : Obligations.FoldLaw :=
  ⟨rfl, fun _ => foldS_of_pos, fun _ _ => fold_eq_iff, fold_eq_ones_iff, fold_eq_zero_iff⟩

/-! ### The command -/

/-- No address lies in an empty buffer, so reading it has no side effects (R69, R97). -/
theorem State.quiet_zero (s : State) (src : Nat) : s.quiet src 0 :=
  fun _ h1 h2 => absurd h2 (Nat.not_lt.2 h1)

/-- Accepted, FOLD completes with SUM_IN as its sum, and it cannot lose anything (R71, R97). -/
theorem complete_acceptCommand_fold_regs (s : State) :
    (complete .fold (acceptCommand .fold s)).regs
      = completedRegs s.regs.sumIn 0 (fold s.regs.sumIn) false (acceptCommand .fold s).regs :=
  complete_regs_quiet .fold ((acceptCommand .fold s).quiet_zero _)

/-- Settles O38: FOLD has no check to fail, and with the length latched as 0 its first engine step is the
completion. -/
theorem foldCommandResult : Obligations.FoldCommandResult := fun s hb =>
  ⟨acceptCommand .fold s, complete .fold (acceptCommand .fold s), exec_accepts .fold s hb rfl,
    engineStep_complete _ .fold rfl rfl le_rfl, complete_acceptCommand_fold_regs s, rfl, rfl, fun _ => rfl⟩

end Sys2Proof.Machine
end

section
/-! PROOFS. The horizontal reduction's law (R100) and the exactness of its sixteen-lane form (R101): both are
readings of the exact sum that `SumsTo` says the reduction accounts for. -/

namespace Sys2Proof.Machine

/-- Settles O26: each reduction accounts for the exact sum of its lanes, `HR8` over its seven additions and `HR16`
over its two widened halves. -/
theorem reductionLaw : Obligations.ReductionLaw :=
  ⟨fun v => ⟨(hr8_sumsTo v).value, (hr8_sumsTo v).loss_iff⟩,
    fun x => ⟨(hr16_sumsTo x).value, (hr16_sumsTo x).loss_iff⟩⟩

/-- Settles O27: sixteen 16-bit lanes add up to at most 0x000FFFF0, and a sum below 2^32 is accounted for without
loss. -/
theorem narrowReductionIsExact : Obligations.NarrowReductionIsExact := by
  intro x
  have hle := sum_lanes_le x
  obtain ⟨hvalue, hloss⟩ := (hr16_sumsTo x).exact (hle.trans_lt (by decide))
  exact ⟨hvalue, hvalue.trans_le hle, Bool.eq_false_iff.2 hloss⟩

end Sys2Proof.Machine
end

section
/-! PROOFS. WIDE's beat (R104): what each lane receives from a chunk, and when the beat loses information. -/

namespace Sys2Proof.Machine

/-- Lanes account for themselves. -/
theorem LanesSumTo.lanes (v : Lanes32) : LanesSumTo v False fun i => (v[i]).toNat :=
  ⟨fun i => (SumsTo.word v[i]).value, iff_of_false id fun ⟨i, hi⟩ => Nat.not_lt.2 hi (v[i]).isLt⟩

/-- Lane `i` of a chunk's low half is chunk word `i` (R39, R80). -/
theorem IsChunk.widenLo_toNat {l : Lanes16} {m : Memory} {addr : Nat} (h : IsChunk l m addr) (i : Fin 8) :
    ((widenLo l)[i]).toNat = bufWord m (addr + 2 * i) :=
  (Machine.widenLo_toNat l i).trans (h (i.castAdd 8))

/-- Lane `i` of its high half is chunk word `i + 8` (R39, R80). -/
theorem IsChunk.widenHi_toNat {l : Lanes16} {m : Memory} {addr : Nat} (h : IsChunk l m addr) (i : Fin 8) :
    ((widenHi l)[i]).toNat = bufWord m (addr + 2 * (i + 8)) :=
  (Machine.widenHi_toNat l i).trans (h (i.addNat 8))

/-- A loss already in `E.ovf` stays there (R104). -/
theorem wideAdd_ovf_kept (l : Lanes16) {e : Engine} (h : e.ovf = true) : (wideAdd l e).ovf = true := by
  simp [wideAdd, h]

/-- A chunk's two halves added to WIDE's lanes one after the other: each lane is the exact sum of its three values
modulo 2^32, and one of the two additions loses information exactly when one of these sums reaches 2^32 (R104). -/
theorem wideAdd_chunk {l : Lanes16} {m : Memory} {addr : Nat} (h : IsChunk l m addr) (e : Engine) :
    let total := fun i : Fin 8 => (e.v[i]).toNat + bufWord m (addr + 2 * i) + bufWord m (addr + 2 * (i + 8))
    (∀ i, ((wideAdd l e).v[i]).toNat = total i % 2 ^ 32)
      ∧ ((wideAdd l e).ovf = true ↔ e.ovf = true ∨ ∃ i, 2 ^ 32 ≤ total i) := by
  have hsum := ((LanesSumTo.lanes e.v).add_lanes (widenLo l)).add_lanes (widenHi l)
  simp only [h.widenLo_toNat, h.widenHi_toNat] at hsum
  refine ⟨hsum.value, ?_⟩
  rw [← hsum.loss_iff]
  simp [wideAdd, or_assoc]

/-- Settles O33: the step is WIDE's beat, and where its reads are memory the lanes it adds are the chunk's
words. (`wideBeat` is the model's beat itself.) -/
theorem wideBeat_holds : Obligations.WideBeat := by
  intro s hb hop hlt hread
  obtain ⟨t, hstep, hframe, heng⟩ := engineStep_takesBeat hb hop (by decide) hlt hread
  replace heng : t.eng = wideAdd (s.chunkAt s.readAddr) s.eng := heng
  refine ⟨t, hstep, hframe, ?_⟩
  rw [heng]
  exact ⟨rfl, wideAdd_ovf_kept _, fun hquiet =>
    wideAdd_chunk (State.ReadsFrom.isChunk ⟨hquiet, fun _ _ _ => rfl⟩) s.eng⟩

end Sys2Proof.Machine
end

section
/-! PROOFS. NARROW's beat (R109): what each lane and its carry counter receive from a chunk, and when a counter is
lost. -/

namespace Sys2Proof.Machine

/-- Adding a chunk overflows lane `i` exactly when the lane and chunk word `i` reach 2^16 (R78, R109). -/
theorem IsChunk.lane_overflowed {l : Lanes16} {m : Memory} {addr : Nat} (h : IsChunk l m addr) (x : Lanes16)
    (i : Fin 16) :
    (ovfv x (vadd16 x l))[i] = true ↔ 2 ^ 16 ≤ (x[i]).toNat + bufWord m (addr + 2 * i) := by
  rw [← h i]
  exact (laneOverflowDetection x l i).2.1

/-- An overflowed lane's counter goes up by one modulo 2^16, and the others stay (R84). -/
theorem cinc_toNat_ite (cs : Lanes16) (o : LaneBits) (i : Fin 16) :
    ((cinc cs o).1[i]).toNat = if o[i] = true then ((cs[i]).toNat + 1) % 2 ^ 16 else (cs[i]).toNat := by
  rw [cinc_toNat]
  cases o[i] with
  | false => exact Nat.mod_eq_of_lt (cs[i]).isLt
  | true => rfl

/-- A loss already in `E.ovf` stays there (R109). -/
theorem narrowAdd_ovf_kept (l : Lanes16) {e : Engine} (h : e.ovf = true) : (narrowAdd l e).ovf = true :=
  Bool.or_eq_true_iff.2 (.inl h)

/-- A chunk added to NARROW's lanes: each lane is the exact sum modulo 2^16, its counter goes up where that sum
reaches 2^16, and the beat loses information exactly when such a counter held 0xFFFF (R109). -/
theorem narrowAdd_chunk {l : Lanes16} {m : Memory} {addr : Nat} (h : IsChunk l m addr) (e : Engine) :
    let total := fun i : Fin 16 => (e.a[i]).toNat + bufWord m (addr + 2 * i)
    (∀ i, ((narrowAdd l e).a[i]).toNat = total i % 2 ^ 16
        ∧ ((narrowAdd l e).c[i]).toNat
          = if 2 ^ 16 ≤ total i then ((e.c[i]).toNat + 1) % 2 ^ 16 else (e.c[i]).toNat)
      ∧ ((narrowAdd l e).ovf = true ↔ e.ovf = true ∨ ∃ i, 2 ^ 16 ≤ total i ∧ (e.c[i]).toNat = 0xFFFF) := by
  refine ⟨fun i => ⟨?_, ?_⟩, ?_⟩
  · simp [narrowAdd, ← h i]
  · simp only [← h.lane_overflowed]
    exact cinc_toNat_ite _ _ i
  · simp only [← h.lane_overflowed, ← (carryLanesCount e.c _).2]
    exact Bool.or_eq_true_iff

/-- Settles O34: the step is NARROW's beat, and where its reads are memory the lanes it adds are the chunk's
words. (`narrowBeat` is the model's beat itself.) -/
theorem narrowBeat_holds : Obligations.NarrowBeat := by
  intro s hb hop hlt hread
  obtain ⟨t, hstep, hframe, heng⟩ := engineStep_takesBeat hb hop (by decide) hlt hread
  replace heng : t.eng = narrowAdd (s.chunkAt s.readAddr) s.eng := heng
  refine ⟨t, hstep, hframe, ?_⟩
  rw [heng]
  exact ⟨rfl, narrowAdd_ovf_kept _, fun hquiet =>
    narrowAdd_chunk (State.ReadsFrom.isChunk ⟨hquiet, fun _ _ _ => rfl⟩) s.eng⟩

end Sys2Proof.Machine
end

section
/-! PROOFS. POPCNT's beat (R116): what each lane of `a` and `b` receives from a pair of chunks, and how `t` counts
the lanes of both that overflow. -/

namespace Sys2Proof.Machine

/-- A pair of chunks makes at most 32 overflow events, two per lane (R83, R116). -/
theorem pairEvents_le (l0 l1 : Lanes16) (e : Engine) : pairEvents l0 l1 e ≤ 32 :=
  (halvedCountIsExact _ _).2.2

/-- The carry out of `t` is decided on the count itself, which is too small for the 32-bit operand to cut it off
(R74, R116). -/
theorem popcntAdd_ovf_eq (l0 l1 : Lanes16) (e : Engine) :
    (popcntAdd l0 l1 e).ovf = (e.ovf || decide (2 ^ 32 ≤ e.t.toNat + pairEvents l0 l1 e)) := by
  have hle := pairEvents_le l0 l1 e
  have hcount : (BitVec.ofNat 32 (pairEvents l0 l1 e)).toNat = pairEvents l0 l1 e :=
    (BitVec.toNat_ofNat _ _).trans (Nat.mod_eq_of_lt (by omega))
  rw [popcntAdd_ovf]
  congr 1
  rw [Bool.eq_iff_iff, add32_snd, hcount, decide_eq_true_iff]

/-- A pair of chunks is a chunk and the one 32 bytes above it (R39, R116). -/
theorem State.ReadsFrom.isChunk_pair {s : State} {m : Memory} {addr : Nat} (h : s.ReadsFrom m addr 64) :
    IsChunk (s.chunkAt addr) m addr ∧ IsChunk (s.chunkAt (addr + 32)) m (addr + 32) :=
  ⟨(h.mono (by omega) (by omega)).isChunk, (h.mono (by omega) (by omega)).isChunk⟩

/-- A lane of `vadd16` with a chunk is the exact sum modulo 2^16 (R76, R116). -/
theorem IsChunk.vadd16_toNat {l : Lanes16} {m : Memory} {addr : Nat} (h : IsChunk l m addr) (x : Lanes16)
    (i : Fin 16) : ((vadd16 x l)[i]).toNat = ((x[i]).toNat + bufWord m (addr + 2 * i)) % 2 ^ 16 := by
  rw [← h i]
  simp only [Fin.getElem_fin, vadd16_get, BitVec.toNat_add]

/-- Where the lanes added are chunks, the events are the carries of the exact lane sums (R83, R116). -/
theorem pairEvents_chunks {l0 l1 : Lanes16} {m : Memory} {addr0 addr1 : Nat} (h0 : IsChunk l0 m addr0)
    (h1 : IsChunk l1 m addr1) (e : Engine) : pairEvents l0 l1 e
    = ∑ i : Fin 16, (((e.a[i]).toNat + bufWord m (addr0 + 2 * i)) / 2 ^ 16
        + ((e.b[i]).toNat + bufWord m (addr1 + 2 * i)) / 2 ^ 16) := by
  simp only [pairEvents_eq_sum, h0 _, h1 _]

/-- Settles O35: the step is POPCNT's beat; `t` and its carry take up the count of the overflow masks, and where
the reads are memory the two chunks' words give the lanes and the count. (`popcntBeat` is the model's beat itself.) -/
theorem popcntBeat_holds : Obligations.PopcntBeat := by
  intro s hb hop hlt hread
  obtain ⟨t, hstep, hframe, heng⟩ := engineStep_takesBeat hb hop (by decide) hlt hread
  replace heng : t.eng = popcntAdd (s.chunkAt s.readAddr) (s.chunkAt (s.readAddr + 32)) s.eng := heng
  have hchunks (hquiet : s.quiet s.readAddr 64) :=
    State.ReadsFrom.isChunk_pair (s := s) (m := s.mem) ⟨hquiet, fun _ _ _ => rfl⟩
  refine ⟨t, hstep, hframe, ?_⟩
  rw [heng]
  refine ⟨rfl, ⟨popcntAdd_t _ _ _, popcntAdd_ovf_eq _ _ _, fun hquiet => ?_⟩, fun hquiet i => ?_⟩
  · obtain ⟨hlow, hhigh⟩ := hchunks hquiet
    exact pairEvents_chunks hlow hhigh s.eng
  · obtain ⟨hlow, hhigh⟩ := hchunks hquiet
    exact ⟨hlow.vadd16_toNat s.eng.a i, hhigh.vadd16_toNat s.eng.b i⟩

end Sys2Proof.Machine
end

section
/-! PROOFS. All blocks of the machine under a step (R33, R140): every block is one there was before, or such a block
after its own register write, engine step or reset; and the windows stay where they are (R7). -/

namespace Sys2Proof.Machine

/-- The blocks of all instances, the one in focus first. -/
def State.blocks (s : State) : List Block := s.blk :: s.others.map (·.blk)

theorem State.mem_blocks {s : State} {b : Block} :
    b ∈ s.blocks ↔ b = s.blk ∨ ∃ o ∈ s.others, o.blk = b := by
  simp [State.blocks]

theorem State.blk_mem_blocks (s : State) : s.blk ∈ s.blocks := State.mem_blocks.2 (.inl rfl)

theorem State.slot_mem_blocks {s : State} {o : Slot} (h : o ∈ s.others) : o.blk ∈ s.blocks :=
  State.mem_blocks.2 (.inr ⟨o, h, rfl⟩)

theorem SameCore.blocks {s r : State} (h : SameCore s r) : r.blocks = s.blocks := by
  rw [State.blocks, State.blocks, h.blk, h.others]

theorem SameCore.bases {s r : State} (h : SameCore s r) : r.bases = s.bases := by
  rw [State.bases, State.bases, h.base, h.others]

/-- The block that comes into focus is one of the machine's (R33). -/
theorem State.focus_blk_mem_blocks {s : State} {k : Nat} (h : s.hasInstance k = true) :
    (s.focus k).blk ∈ s.blocks := by
  cases k with
  | zero => exact s.blk_mem_blocks
  | succ k =>
    obtain ⟨o, ho⟩ := State.others_of_hasInstance s k h
    rw [State.focus_succ_some s k o ho]
    exact State.slot_mem_blocks (List.mem_of_getElem? ho)

/-- An instance's own move leaves the other instances and every window where they are (R33). -/
theorem BlockMove.others {s t : State} (h : BlockMove s t) : t.others = s.others ∧ t.base = s.base := by
  rcases BlockMove.outside s t h with h | h <;>
    exact ⟨(congrArg State.others h).trans rfl, (congrArg State.base h).trans rfl⟩

/-- Replacing a block in a slot keeps the bases of all slots. -/
theorem map_base_set {l : List Slot} {j : Nat} {o : Slot} (h : l[j]? = some o) (b : Block) :
    (l.set j ⟨o.base, b⟩).map (·.base) = l.map (·.base) := by
  obtain ⟨hj, rfl⟩ := List.getElem?_eq_some_iff.1 h
  have hself := List.set_getElem_self (as := l.map (·.base)) (i := j) (by simpa using hj)
  rw [List.map_set]
  simpa using hself

/-- A move of instance `k` keeps every window's base. -/
theorem BlockMove.bases_focus {s u : State} {k : Nat} (hk : s.hasInstance k = true)
    (h : BlockMove (s.focus k) u) : (u.focus k).bases = s.bases := by
  rcases move_of_instance s _ u k hk h rfl with ⟨rfl, -⟩ | ⟨j, o, rfl, ho, -, hbase, -, hothers, -⟩
  · obtain ⟨hothers, hbase⟩ := h.others
    simp only [State.focus_zero] at hothers hbase ⊢
    rw [State.bases, State.bases, hothers, hbase]
  · rw [State.bases, State.bases, hothers, hbase, map_base_set ho]

/-- A move of instance `k` gives the machine its new block, and no other. -/
theorem BlockMove.blocks_focus {s u : State} {k : Nat} {b : Block} (hk : s.hasInstance k = true)
    (h : BlockMove (s.focus k) u) (hb : b ∈ (u.focus k).blocks) : b ∈ s.blocks ∨ b = u.blk := by
  rcases move_of_instance s _ u k hk h rfl with ⟨rfl, -⟩ | ⟨j, o, rfl, ho, hblk, -, -, hothers, -⟩
  · rcases State.mem_blocks.1 hb with rfl | ⟨o, ho, rfl⟩
    · exact .inr rfl
    · exact .inl (State.slot_mem_blocks (by simpa [h.others.1] using ho))
  · rcases State.mem_blocks.1 hb with rfl | ⟨p, hp, rfl⟩
    · exact .inl (hblk ▸ s.blk_mem_blocks)
    · rw [hothers] at hp
      rcases List.mem_or_eq_of_mem_set hp with hp | rfl
      · exact .inl (State.slot_mem_blocks hp)
      · exact .inr rfl

/-- No step moves a window (R7). -/
theorem step_bases {s t : State} (h : step s = .next t) : t.bases = s.bases := by
  rcases step_effect s t h with hc | ⟨r, addr, n, v, hc, hw⟩ | ⟨r, k, u, hc, hk, hm, rfl⟩
  · exact hc.bases
  · obtain ⟨-, -, rfl⟩ := memWrite_next _ _ _ _ _ hw
    exact hc.bases
  · rw [hm.bases_focus hk, hc.bases]

/-- The block `b` comes from a block of `s` by its own move, over the memory and the platform of `s`. -/
def MovedFrom (s : State) (b : Block) : Prop :=
  ∃ r u, r.blk ∈ s.blocks ∧ r.mem = s.mem ∧ r.volatileRegions = s.volatileRegions ∧ BlockMove r u ∧ u.blk = b

/-- Every block after a step was there before or has made its own move, and then memory is as it was (R35, R140). -/
theorem step_blocks {s t : State} {b : Block} (h : step s = .next t) (hb : b ∈ t.blocks) :
    b ∈ s.blocks ∨ t.mem = s.mem ∧ MovedFrom s b := by
  rcases step_effect s t h with hc | ⟨r, addr, n, v, hc, hw⟩ | ⟨r, k, u, hc, hk, hm, rfl⟩
  · exact .inl (hc.blocks ▸ hb)
  · obtain ⟨-, -, rfl⟩ := memWrite_next _ _ _ _ _ hw
    exact .inl (hc.blocks ▸ hb)
  · rcases hm.blocks_focus hk hb with hb | rfl
    · exact .inl (hc.blocks ▸ hb)
    · refine .inr ⟨?_, r.focus k, u, hc.blocks ▸ State.focus_blk_mem_blocks hk, ?_, ?_, hm, rfl⟩
      · rw [State.focus_mem, hm.platform.1, State.focus_mem, hc.mem]
      · rw [State.focus_mem, hc.mem]
      · rw [State.focus_volatileRegions, hc.volatileRegions]

end Sys2Proof.Machine
end

section
/-! PROOFS. The control invariant (R17, R29, R30): each block's own move keeps it (O49), and the state after reset
meets it (O48). -/

namespace Sys2Proof.Machine

/-- The machine's invariant, block by block. -/
theorem State.inv_iff {s : State} :
    s.Inv ↔ s.mem.wf = true ∧ windowsWf s.bases = true ∧ ∀ b ∈ s.blocks, b.Inv := by
  constructor
  · rintro ⟨hmem, hwin, hfocus, hothers⟩
    refine ⟨hmem, hwin, fun b hb => ?_⟩
    rcases State.mem_blocks.1 hb with rfl | ⟨o, ho, rfl⟩
    · exact hfocus
    · exact hothers o ho
  · rintro ⟨hmem, hwin, hblocks⟩
    exact ⟨hmem, hwin, hblocks _ s.blk_mem_blocks, fun o ho => hblocks _ (State.slot_mem_blocks ho)⟩

/-- The invariant is about STATUS and the engine alone: one that holds for the same engine and STATUS with at most
DONE and DROP cleared or DROP set holds. -/
theorem Block.Inv.of_status {b c : Block} (h : b.Inv) (heng : c.eng = b.eng)
    (hbusy : c.regs.status.busy = b.regs.status.busy) (hovf : c.regs.status.ovf = b.regs.status.ovf)
    (herr : c.regs.status.err = b.regs.status.err)
    (hdone : b.regs.status.done = false → c.regs.status.done = false) : c.Inv := by
  refine ⟨by rw [hbusy, heng]; exact h.busy_iff, fun hb => ?_, by rw [herr, hovf]; exact h.err_no_ovf,
    by rw [heng]; exact h.running⟩
  obtain ⟨hd, ho, he⟩ := h.busy_clear (hbusy ▸ hb)
  exact ⟨hdone hd, hovf.trans ho, herr.trans he⟩

/-- An idle engine has nothing to keep. -/
theorem Block.Inv.idle {b : Block} (hop : b.eng.op = none) (hbusy : b.regs.status.busy = false)
    (herr : b.regs.status.err.isSome = true → b.regs.status.ovf = false) : b.Inv :=
  ⟨by simp [hop, hbusy], by simp [hbusy], herr, by simp [hop]⟩

theorem Block.reset_inv : Block.reset.Inv := .idle rfl rfl (fun _ => rfl)

/-- A buffer that RANGE passes does not wrap (R43, R67); FOLD's latched length is 0 (R69). -/
theorem latch_range {i : Instr} {r : Regs} (hc : checkOf i r.src r.len = none) :
    (latch i r).src.toNat + (latch i r).len.toNat ≤ 2 ^ 32 := by
  have hsrc := r.src.isLt
  cases i <;> simp [checkOf, rangeCheck, Option.or_eq_none_iff, latch, Config.addressSpace] at hc ⊢ <;> omega

/-- Acceptance of a checked command (R67, R69). -/
theorem acceptCommand_inv {i : Instr} {s : State} (hc : checkOf i s.regs.src s.regs.len = none) :
    (acceptCommand i s).blk.Inv := by
  refine ⟨by simp [acceptCommand, statusAccepted, latch], fun _ => ⟨rfl, rfl, rfl⟩, fun _ => rfl, fun j hj => ?_⟩
  obtain rfl : i = j := Option.some.inj hj
  exact ⟨latch_range hc, Nat.zero_le _, progressOk_latch hc⟩

/-- Rejection of a word by an idle block: it stays idle, and OVF is cleared beside the code (R68). -/
theorem rejectCommand_inv {e : Reject} {s : State} (h : s.blk.Inv) (hb : s.busy = false) :
    (rejectCommand e s).blk.Inv := by
  have hop : s.blk.eng.op = none := by
    rw [← Option.not_isSome_iff_eq_none, ← h.busy_iff]
    simpa using hb
  exact .idle hop hb fun _ => rfl

theorem presentCommand_inv {w : Word} {s t : State} (h : s.blk.Inv) (hp : presentCommand w s = .next t) :
    t.blk.Inv := by
  rcases presentCommand_cases w s t hp with ⟨-, rfl⟩ | ⟨hb, r, rfl⟩ | ⟨-, i, -, hc, rfl⟩
  · exact h.of_status rfl rfl rfl rfl id
  · exact rejectCommand_inv h hb
  · exact acceptCommand_inv hc

theorem regWrite_inv {off : Nat} {v : Word} {s t : State} (h : s.blk.Inv) (hw : regWrite off v s = .next t) :
    t.blk.Inv := by
  rcases regWrite_cases off v s t hw with ⟨-, hp⟩ | ⟨-, rfl⟩ | ⟨-, rfl⟩ | ⟨-, rfl⟩ | ⟨-, rfl⟩ | rfl
  · exact presentCommand_inv h hp
  · exact h.of_status rfl rfl rfl rfl fun hd => by simp [statusW1C, hd]
  · exact h.of_status rfl rfl rfl rfl id
  · exact h.of_status rfl rfl rfl rfl id
  · exact h.of_status rfl rfl rfl rfl id
  · exact h

/-- From a position between beats, a beat with bytes left ends inside the buffer, again between beats (R29, R70). -/
theorem progressOk_beat {i : Instr} {len pos : Nat} (hi : i ≠ .fold) (h : progressOk i len pos) (hlt : pos < len) :
    pos + beatSize i len pos ≤ len ∧ progressOk i len (pos + beatSize i len pos) := by
  cases i with
  | scalar => simp only [progressOk, beatSize] at *; split <;> omega
  | fold => exact absurd rfl hi
  | _ => simp only [progressOk, beatSize] at *; omega

/-- An idle step, a beat and a completion each keep it (R70, R71). -/
theorem engineStep_inv {s t : State} (h : s.blk.Inv) (hs : engineStep s = .next t) : t.blk.Inv := by
  rcases engineStep_cases s t hs with ⟨-, rfl⟩ | ⟨hb, i, hop, hi, hlt, -, rfl⟩ | ⟨hb, i, hop, -, rfl⟩
  · exact h
  · obtain ⟨hrange, -, hprogress⟩ := h.running i hop
    obtain ⟨hend, hnext⟩ := progressOk_beat hi hprogress hlt
    refine ⟨?_, h.busy_clear, h.err_no_ovf, fun j hj => ?_⟩
    · simpa [hop] using hb
    · obtain rfl : i = j := Option.some.inj (hop.symm.trans ((beatEngine_op i s).symm.trans hj))
      simpa using ⟨hrange, hend, hnext⟩
  · obtain ⟨-, -, herr⟩ := h.busy_clear hb
    have hregs := congrArg Regs.status (complete_regs i s)
    refine .idle rfl (congrArg Status.busy hregs) fun he => ?_
    rw [(congrArg Status.err hregs).trans herr] at he
    cases he

theorem BlockMove.inv {s t : State} (hm : BlockMove s t) (h : s.blk.Inv) : t.blk.Inv := by
  rcases hm with ⟨off, v, hw⟩ | hs | rfl
  · exact regWrite_inv h hw
  · exact engineStep_inv h hs
  · exact Block.reset_inv

/-- Settles O49: memory and the windows by what every step leaves of the platform, and each block by its own
move. -/
theorem stepKeepsControlInvariant : Obligations.StepKeepsControlInvariant := by
  intro s t hinv h
  obtain ⟨hmem, hwin, hblocks⟩ := State.inv_iff.1 hinv
  refine State.inv_iff.2 ⟨step_mem_wf h hmem, (step_bases h).symm ▸ hwin, fun b hb => ?_⟩
  rcases step_blocks h hb with hb | ⟨-, r, u, hr, -, -, hm, rfl⟩
  · exact hblocks b hb
  · exact hm.inv (hblocks _ hr)

/-- Settles O48: the one block is idle, memory is empty, and the one window is at 0. -/
theorem resetMeetsInvariants : Obligations.ResetMeetsInvariants :=
  ⟨⟨State.reset_mem_wf, by decide, Block.reset_inv, fun _ ho => absurd ho List.not_mem_nil⟩,
    ⟨fun _ => trivial, fun _ ho => absurd ho List.not_mem_nil⟩⟩

end Sys2Proof.Machine
end

section
/-! PROOFS. The data invariant (R46, R73): partial sums depend on the buffer's bytes alone, and each block's own move
keeps them (O50). -/

namespace Sys2Proof.Machine

/-- The machine's data invariant, block by block. -/
theorem State.dataInv_iff {s : State} : s.DataInv ↔
    ∀ b ∈ s.blocks, s.quiet b.eng.src.toNat b.eng.len.toNat → b.eng.partialSums s.mem := by
  constructor
  · rintro ⟨hfocus, hothers⟩ b hb
    rcases State.mem_blocks.1 hb with rfl | ⟨o, ho, rfl⟩
    · exact hfocus
    · exact hothers o ho
  · intro h
    exact ⟨h _ s.blk_mem_blocks, fun o ho => h _ (State.slot_mem_blocks ho)⟩

/-- An engine without a command has no sums to keep (R27). -/
theorem partialSums_none {m : Memory} {e : Engine} (hop : e.op = none) : e.partialSums m := by
  simp only [Engine.partialSums, hop]

/-! ### The bytes the sums depend on -/

section
variable {m m' : Memory} {src len : Nat}

/-- Two memories hold the same bytes in `[src, src + len)`. -/
def SameBytes (m m' : Memory) (src len : Nat) : Prop :=
  ∀ a, src ≤ a → a < src + len → m'.read a = m.read a

theorem SameBytes.bufWord_eq (h : SameBytes m m' src len) {a : Nat} (h1 : src ≤ a) (h2 : a + 2 ≤ src + len) :
    bufWord m' a = bufWord m a := by
  simp only [bufWord, bufByte, h a h1 (by omega), h (a + 1) (by omega) (by omega)]

/-- The exact sum of the first `n` bytes reads no other (R38). -/
theorem SameBytes.exactSum_eq (h : SameBytes m m' src len) {n : Nat} (hn : n ≤ len) :
    exactSum m' src n = exactSum m src n := by
  have hwords : ∀ k ∈ Finset.range (n / 2), bufWord m' (src + 2 * k) = bufWord m (src + 2 * k) :=
    fun k hk => by
      have hk := Finset.mem_range.1 hk
      exact h.bufWord_eq (by omega) (by omega)
  rw [exactSum, exactSum, Finset.sum_congr rfl hwords]
  by_cases hodd : n % 2 = 1
  · rw [if_pos hodd, if_pos hodd, bufByte, bufByte, h (src + n - 1) (by omega) (by omega)]
  · rw [if_neg hodd, if_neg hodd]

/-- A lane's sum over `n` blocks, from offset `d` on, reads inside those blocks (R39). -/
theorem SameBytes.laneSum_eq (h : SameBytes m m' src len) {stride n d i : Nat} (hi : d + 2 * i + 2 ≤ stride)
    (hn : stride * n ≤ len) : laneSum m' (src + d) stride n i = laneSum m (src + d) stride n i := by
  refine Finset.sum_congr rfl fun c hc => ?_
  have hblock : stride * (c + 1) ≤ stride * n := Nat.mul_le_mul_left _ (Finset.mem_range.1 hc)
  rw [Nat.mul_succ] at hblock
  exact h.bufWord_eq (by omega) (by omega)

end

/-- The partial sums depend on the buffer's bytes alone (R46, R73). -/
theorem partialSums_congr {m m' : Memory} {e : Engine} (h : SameBytes m m' e.src.toNat e.len.toNat)
    (hpos : e.pos ≤ e.len.toNat) : e.partialSums m' = e.partialSums m := by
  have hlane : ∀ {stride d : Nat}, ∀ i, d + 2 * i + 2 ≤ stride →
      laneSum m' (e.src.toNat + d) stride (e.pos / stride) i = laneSum m (e.src.toNat + d) stride (e.pos / stride) i :=
    fun i hi => h.laneSum_eq hi ((Nat.mul_div_le _ _).trans hpos)
  have hnarrow : ∀ i : Fin 16, laneSum m' e.src.toNat 32 (e.pos / 32) i = laneSum m e.src.toNat 32 (e.pos / 32) i :=
    fun i => hlane (d := 0) i (by omega)
  have hwide : ∀ i : Fin 8, wideLane m' e.src.toNat (e.pos / 32) i = wideLane m e.src.toNat (e.pos / 32) i :=
    fun i => congrArg₂ (· + ·) (hlane (d := 0) i (by omega)) (hlane (d := 0) (i + 8) (by omega))
  have hlow : ∀ i : Fin 16, laneSum m' e.src.toNat 64 (e.pos / 64) i = laneSum m e.src.toNat 64 (e.pos / 64) i :=
    fun i => hlane (d := 0) i (by omega)
  have hhigh : ∀ i : Fin 16, laneSum m' (e.src.toNat + 32) 64 (e.pos / 64) i
      = laneSum m (e.src.toNat + 32) 64 (e.pos / 64) i := fun i => hlane i (by omega)
  simp only [Engine.partialSums, h.exactSum_eq hpos, hnarrow, hwide, hlow, hhigh]

/-! ### Memory's own changes -/

/-- The buffer of a running command holds its addresses, whichever instance runs it (R142). -/
theorem State.bufferHolds_of_mem {s : State} {b : Block} {a : Nat} (hb : b ∈ s.blocks)
    (h : b.bufferHolds a = true) : s.bufferHolds a = true := by
  rcases State.mem_blocks.1 hb with rfl | ⟨o, ho, rfl⟩
  · rw [State.bufferHolds, h, Bool.true_or]
  · rw [State.bufferHolds, List.any_eq_true.2 ⟨o, ho, h⟩, Bool.or_true]

/-- Whatever step is taken, the buffer of every running command keeps its bytes (R46, R142). -/
theorem step_sameBytes {s t : State} {b : Block} (h : step s = .next t) (hm : s.mem.wf = true)
    (hb : b ∈ s.blocks) (hbusy : b.regs.status.busy = true) :
    SameBytes s.mem t.mem b.eng.src.toNat b.eng.len.toNat := by
  intro a h1 h2
  obtain ⟨-, hmem | ⟨addr, n, v, hin, hout, hmem⟩⟩ := step_platform h
  · rw [hmem]
  · have hholds : s.bufferHolds a = true :=
      State.bufferHolds_of_mem hb (by simp [Block.bufferHolds, hbusy, h1, h2])
    have hnot : ¬ (addr ≤ a ∧ a < addr + n) := fun ⟨h3, h4⟩ => by
      simpa [hholds] using hout a h3 h4
    rw [hmem, Memory.read_writeBytes _ hm _ _ _ hin, if_neg hnot]

/-- A block that does not move keeps its sums under any step. -/
theorem step_keeps_partialSums {s t : State} {b : Block} (h : step s = .next t) (hm : s.mem.wf = true)
    (hb : b ∈ s.blocks) (hinv : b.Inv) (hsums : b.eng.partialSums s.mem) : b.eng.partialSums t.mem := by
  cases hop : b.eng.op with
  | none => exact partialSums_none hop
  | some i =>
    have hbusy : b.regs.status.busy = true := hinv.busy_iff.2 (by rw [hop]; rfl)
    obtain ⟨-, hpos, -⟩ := hinv.running i hop
    rwa [partialSums_congr (step_sameBytes h hm hb hbusy) hpos]

/-! ### A block's own move -/

/-- Acceptance starts with empty sums; every other register write leaves the engine as it was (R63, R69). -/
theorem regWrite_eng {off : Nat} {v : Word} {s t : State} (h : regWrite off v s = .next t) :
    t.eng = s.eng ∨ ∃ i, t.eng = latch i s.regs := by
  rcases regWrite_cases off v s t h with ⟨-, hp⟩ | ⟨-, rfl⟩ | ⟨-, rfl⟩ | ⟨-, rfl⟩ | ⟨-, rfl⟩ | rfl
  · rcases presentCommand_cases v s t hp with ⟨-, rfl⟩ | ⟨-, r, rfl⟩ | ⟨-, i, -, -, rfl⟩
    · exact .inl rfl
    · exact .inl rfl
    · exact .inr ⟨i, rfl⟩
  all_goals exact .inl rfl

/-- A beat inside its buffer keeps the sums (R88, R89, R104, R109, R116). -/
theorem beat_keeps_partialSums {s : State} {i : Instr} (hinv : s.blk.Inv) (hop : s.eng.op = some i) (hi : i ≠ .fold)
    (hlt : s.eng.pos < s.eng.len.toNat) (hq : s.quiet s.eng.src.toNat s.eng.len.toNat)
    (hsums : s.eng.partialSums s.mem) : (beatEngine i s).partialSums s.mem := by
  obtain ⟨-, -, hprogress⟩ := hinv.running i hop
  have hend : s.eng.pos + beatSize i s.eng.len.toNat s.eng.pos ≤ s.eng.len.toNat :=
    (progressOk_beat hi hprogress hlt).1
  have hreads : s.ReadsFrom s.mem s.eng.src.toNat s.eng.len.toNat := ⟨hq, fun _ _ _ => rfl⟩
  exact beatEngine_partialSums hop hsums hprogress hlt
    (hreads.mono (Nat.le_add_right _ _) (by simp only [State.readAddr]; omega))

/-- A block's own move keeps its sums, if its buffer has no side effects. -/
theorem BlockMove.partialSums {s t : State} (hm : BlockMove s t) (hinv : s.blk.Inv)
    (h : s.quiet s.eng.src.toNat s.eng.len.toNat → s.eng.partialSums s.mem)
    (hq : s.quiet t.eng.src.toNat t.eng.len.toNat) : t.eng.partialSums s.mem := by
  rcases hm with ⟨off, v, hw⟩ | hs | rfl
  · rcases regWrite_eng hw with heng | ⟨i, heng⟩
    · rw [heng] at hq ⊢; exact h hq
    · rw [heng]; exact latch_partialSums i _ _
  · rcases engineStep_cases s t hs with ⟨-, rfl⟩ | ⟨-, i, hop, hi, hlt, -, rfl⟩ | ⟨-, i, -, -, rfl⟩
    · exact h hq
    · replace hq : s.quiet s.eng.src.toNat s.eng.len.toNat := by simpa using hq
      exact beat_keeps_partialSums hinv hop hi hlt hq (h hq)
    · exact partialSums_none rfl
  · exact partialSums_none rfl

/-- Settles O50: a block that stays keeps its buffer's bytes, and a block that moves does so over memory as it
was. -/
theorem stepKeepsPartialSums : Obligations.StepKeepsPartialSums := by
  intro s t hinv hdata h
  obtain ⟨hmem, -, hblocks⟩ := State.inv_iff.1 hinv
  have hdata := State.dataInv_iff.1 hdata
  have hquiet : ∀ {src len}, t.quiet src len → s.quiet src len := fun hq a h1 h2 => by
    have hv := hq a h1 h2
    rwa [State.isVolatile, (step_platform h).1] at hv
  refine State.dataInv_iff.2 fun b hb hq => ?_
  rcases step_blocks h hb with hb | ⟨hsame, r, u, hr, hrmem, hrvol, hm, rfl⟩
  · exact step_keeps_partialSums h hmem hb (hblocks b hb) (hdata b hb (hquiet hq))
  · have hquiet' : ∀ {src len}, s.quiet src len ↔ r.quiet src len := by
      simp only [State.quiet, State.isVolatile, hrvol, implies_true]
    rw [hsame, ← hrmem]
    exact hm.partialSums (hblocks _ hr) (fun hrq => hrmem ▸ hdata _ hr (hquiet'.2 hrq)) (hquiet'.1 (hquiet hq))

end Sys2Proof.Machine
end

section
/-! PROOFS. The opcode map (R53, R54): the decoder on the spec's words (O1), its round trip with the encoder (O2) and
the table of masks and matches (O3). -/

namespace Sys2Proof

/-- Settles O1: the decoder is run on the ten words. -/
theorem decodeOfSpecWords : Obligations.DecodeOfSpecWords := by
  unfold Obligations.DecodeOfSpecWords
  decide

/-- The table numbers a word's bits as the decoder does, so it reads each word back (R53). -/
theorem ofNat_encode_toNat (i : Instr) : BitVec.ofNat 32 ((encode i).toNat % 2 ^ 32) = encode i := by
  rw [Nat.mod_eq_of_lt (encode i).isLt, BitVec.ofNat_toNat, BitVec.setWidth_eq]

/-- Settles O2: a command's word decodes as that command, and the table's numbering does not change the word. -/
theorem encodeDecodeRoundTrip : Obligations.EncodeDecodeRoundTrip := by
  intro i
  have hdecode : decodeWord (encode i) = .instr i := decodeWord_eq_instr_iff.2 rfl
  refine ⟨hdecode, ?_⟩
  rw [decodeTableWord, ofNat_encode_toNat, hdecode, Decoded.instr?]

/-- Every row's mask is all ones, so masking keeps the word (R54). -/
theorem and_opcodeMask (w : Word) : w &&& 0xFFFFFFFF#32 = w := BitVec.and_allOnes

/-- The map has one row per command, with its word as match and a mask of all ones (R54). -/
theorem mem_opcodeMap_iff {r : OpcodeRow} :
    r ∈ opcodeMap ↔ r.mask = 0xFFFFFFFF#32 ∧ r.pattern = encode r.instr := by
  obtain ⟨mask, pattern, i⟩ := r
  cases i <;> simp [opcodeMap, encode]

/-- A row of the map selects exactly its command's word (R54). -/
theorem OpcodeRow.selects_iff {r : OpcodeRow} (h : r ∈ opcodeMap) (w : Word) :
    r.selects w = true ↔ w = encode r.instr := by
  obtain ⟨hmask, hpattern⟩ := mem_opcodeMap_iff.1 h
  rw [OpcodeRow.selects, hmask, hpattern, and_opcodeMask, beq_iff_eq]

/-- Settles O3: decoding as a command, equality with its word, and selection by its row are one condition. -/
theorem decodeMatchesOpcodeMap : Obligations.DecodeMatchesOpcodeMap := by
  intro w
  rw [and_opcodeMask]
  refine ⟨decodeWord_eq_instr_iff, decodeWord_eq_instr_iff, decodeWord_eq_instr_iff, decodeWord_eq_instr_iff,
    decodeWord_eq_instr_iff, fun i => decodeWord_eq_instr_iff.trans ⟨fun hw => ?_, ?_⟩⟩
  · have hrow : (⟨0xFFFFFFFF#32, encode i, i⟩ : OpcodeRow) ∈ opcodeMap := mem_opcodeMap_iff.2 ⟨rfl, rfl⟩
    exact ⟨_, hrow, rfl, (OpcodeRow.selects_iff hrow w).2 hw⟩
  · rintro ⟨r, hr, rfl, hsel⟩
    exact (OpcodeRow.selects_iff hr w).1 hsel

end Sys2Proof
end

section
/-! PROOFS. Error codes by priority (R123, O12) and the frame of a command's presentation (R66, R68, R69, O13). -/

namespace Sys2Proof.Machine

/-! ### `Validate`, command by command -/

section
variable {i : Instr} {src len : Word}

/-- RANGE comes before the checks of the length (R67, R123). -/
theorem validate_range (hi : i ≠ .fold) (h : 2 ^ 32 < src.toNat + len.toNat) :
    validate (encode i) src len = some .range := by
  have hrange : rangeCheck src len = some .range := if_pos h
  rw [validate_encode]
  cases i with
  | fold => exact absurd rfl hi
  | _ => simp [checkOf, hrange]

theorem rangeCheck_ok (h : ¬ 2 ^ 32 < src.toNat + len.toNat) : rangeCheck src len = none := if_neg h

/-- LEN_ALIGN is next, for every vector strategy (R67, R123). -/
theorem validate_lenAlign (hi : i ≠ .fold) (hs : i ≠ .scalar) (h : ¬ 2 ^ 32 < src.toNat + len.toNat)
    (hlen : len.toNat % 32 ≠ 0) : validate (encode i) src len = some .lenAlign := by
  have halign : alignCheck len = some .lenAlign := if_pos hlen
  rw [validate_encode]
  cases i with
  | fold => exact absurd rfl hi
  | scalar => exact absurd rfl hs
  | _ => simp [checkOf, rangeCheck_ok h, halign]

theorem alignCheck_ok (hlen : len.toNat % 32 = 0) : alignCheck len = none := if_neg (not_not.2 hlen)

/-- LEN_PAIR is last, for POPCNT alone (R67, R119, R123). -/
theorem validate_lenPair (h : ¬ 2 ^ 32 < src.toNat + len.toNat) (hlen : len.toNat % 32 = 0)
    (hodd : len.toNat / 32 % 2 = 1) : validate (encode .popcnt) src len = some .lenPair := by
  have hpair : pairCheck len = some .lenPair := if_pos (by omega)
  simp [validate_encode, checkOf, rangeCheck_ok h, alignCheck_ok hlen, hpair]

theorem validate_scalar_ok (h : ¬ 2 ^ 32 < src.toNat + len.toNat) : validate (encode .scalar) src len = none := by
  rw [validate_encode]
  exact rangeCheck_ok h

/-- WIDE and NARROW pass every buffer of whole chunks that does not wrap (R103, R108). -/
theorem validate_chunks_ok (hi : i = .wide ∨ i = .narrow) (h : ¬ 2 ^ 32 < src.toNat + len.toNat)
    (hlen : len.toNat % 32 = 0) : validate (encode i) src len = none := by
  rw [validate_encode]
  rcases hi with rfl | rfl <;> simp [checkOf, rangeCheck_ok h, alignCheck_ok hlen]

theorem validate_popcnt_ok (h : ¬ 2 ^ 32 < src.toNat + len.toNat) (hlen : len.toNat % 64 = 0) :
    validate (encode .popcnt) src len = none := by
  have hpair : pairCheck len = none := if_neg (by omega)
  simp [validate_encode, checkOf, rangeCheck_ok h, alignCheck_ok (len := len) (by omega), hpair]

/-- FOLD's operands are not checked (R97). -/
theorem validate_fold_ok : validate (encode .fold) src len = none := validate_encode .fold src len

end

/-! ### What STATUS reports -/

/-- Presenting the word `w` leaves the code `c` in ERR, DONE = `d`, and DROP set if the block was busy (R123). -/
def Answers (w : Word) (s : State) (c : BitVec 4) (d : Bool) : Prop :=
  ∃ t, presentCommand w s = .next t ∧ errCode t.regs.status.err = c ∧ t.regs.status.done = d
    ∧ t.regs.status.drop = (s.regs.status.drop || s.busy)

section
variable {w : Word} {s : State}

theorem answers_busy (hb : s.busy = true) :
    Answers w s (errCode s.regs.status.err) s.regs.status.done :=
  ⟨dropCommand s, presentCommand_busy hb, rfl, rfl, by rw [hb, Bool.or_true]; rfl⟩

theorem answers_rejected {e : Reject} (hb : s.busy = false) (hv : validate w s.regs.src s.regs.len = some e) :
    Answers w s (errCode (some e)) true :=
  ⟨rejectCommand e s, presentCommand_rejects hb hv, rfl, rfl, by rw [hb, Bool.or_false]; rfl⟩

theorem answers_accepted (hb : s.busy = false) (hv : validate w s.regs.src s.regs.len = none) :
    Answers w s 0 false := by
  obtain ⟨i, -, h⟩ := presentCommand_accepts hb hv
  exact ⟨acceptCommand i s, h, rfl, rfl, by rw [hb, Bool.or_false]; rfl⟩

end

/-- The words of the four strategies (R54, R86). -/
theorem exists_strategy {w : Word} (h : w = 0x1#32 ∨ w = 0x2#32 ∨ w = 0x3#32 ∨ w = 0x4#32) :
    ∃ i, i ≠ .fold ∧ w = encode i := by
  rcases h with rfl | rfl | rfl | rfl
  · exact ⟨.scalar, by decide, rfl⟩
  · exact ⟨.wide, by decide, rfl⟩
  · exact ⟨.narrow, by decide, rfl⟩
  · exact ⟨.popcnt, by decide, rfl⟩

/-- The words of the three vector strategies (R54). -/
theorem exists_vector {w : Word} (h : w = 0x2#32 ∨ w = 0x3#32 ∨ w = 0x4#32) :
    ∃ i, i ≠ .fold ∧ i ≠ .scalar ∧ w = encode i := by
  rcases h with rfl | rfl | rfl
  · exact ⟨.wide, by decide, by decide, rfl⟩
  · exact ⟨.narrow, by decide, by decide, rfl⟩
  · exact ⟨.popcnt, by decide, by decide, rfl⟩

/-- Settles O12: while busy the word is dropped; an idle block reports what `Validate` answers, by the word and the
first check that fails. -/
theorem errorCodesByPriority : Obligations.ErrorCodesByPriority := by
  intro w s strategy vector rangeErr answers
  refine ⟨answers_busy, fun hb => ⟨?_, ?_, ?_, ?_, ?_, ?_, ?_, ?_⟩⟩
  · rintro ⟨hstrategy, hfold⟩
    refine answers_rejected hb (validate_illegal (fun i hw => ?_) _ _)
    subst hw
    cases i with
    | fold => exact hfold rfl
    | _ => exact hstrategy (by decide)
  · rintro ⟨hstrategy, hrange⟩
    obtain ⟨i, hi, rfl⟩ := exists_strategy hstrategy
    exact answers_rejected hb (validate_range hi hrange)
  · rintro ⟨hvector, hrange, hlen⟩
    obtain ⟨i, hi, hs, rfl⟩ := exists_vector hvector
    exact answers_rejected hb (validate_lenAlign hi hs hrange hlen)
  · rintro ⟨rfl, hrange, hlen, hodd⟩
    exact answers_rejected hb (validate_lenPair hrange hlen hodd)
  · rintro ⟨rfl, hrange⟩
    exact answers_accepted hb (validate_scalar_ok hrange)
  · rintro ⟨rfl | rfl | rfl, hpopcnt, hrange, hlen⟩
    · exact answers_accepted hb (validate_chunks_ok (.inl rfl) hrange hlen)
    · exact answers_accepted hb (validate_chunks_ok (.inr rfl) hrange hlen)
    · exact absurd rfl hpopcnt
  · rintro ⟨rfl, hrange, hlen⟩
    exact answers_accepted hb (validate_popcnt_ok hrange hlen)
  · rintro rfl
    exact answers_accepted hb validate_fold_ok

/-- Settles O13: dropping and rejecting write STATUS alone, accepting writes STATUS and the engine and sets BUSY. -/
theorem commandFrame : Obligations.CommandFrame := by
  intro i s t h
  rcases exec_cases i s t h with ⟨hb, rfl⟩ | ⟨hb, r, -, rfl⟩ | ⟨hb, -, rfl⟩
  · exact ⟨rfl, rfl, fun _ => rfl, by rw [hb, Bool.or_true]; rfl, fun _ => ⟨rfl, rfl⟩, fun _ _ => rfl⟩
  · exact ⟨rfl, rfl, fun _ => rfl, by rw [hb, Bool.or_false]; rfl, fun hbusy => by simp [hbusy] at hb, fun _ _ => rfl⟩
  · exact ⟨rfl, rfl, fun _ => rfl, by rw [hb, Bool.or_false]; rfl, fun hbusy => by simp [hbusy] at hb,
      fun _ hidle => by cases hidle⟩

end Sys2Proof.Machine
end

section
/-! PROOFS. The host's turn (R59, R63, R140): a CMD write is exec of its word, on the instance addressed (O5, O6, O7),
and POLL (O19). -/

namespace Sys2Proof.Machine

/-- A write of a command's word to CMD of the instance in focus is exec of the command (R63, R67). -/
theorem hostOp_command {s : State} {w : Word} {i : Instr} (hw : decodeWord w = .instr i) :
    hostOp (.wr 32 s.base w) s = exec i (s.note (.regWrite s.base w)) := by
  obtain rfl := decodeWord_eq_instr_iff.1 hw
  have hwrite := hostOp_wr s 0x00 (encode i) rfl (by decide)
  rw [Nat.add_zero] at hwrite
  rw [hwrite]
  exact presentCommand_encode i _

/-- With the schedule run out and no engine busy, a host that has something to do moves (R141, log 3). -/
theorem nextTurn_idle {s : State} (hs : s.sched = []) (hb : s.busy = false)
    (hothers : ∀ o ∈ s.others, o.blk.regs.status.busy = false) (hp : s.program ≠ []) : nextTurn s = .host := by
  have hfind : s.others.findIdx? (fun o => o.blk.regs.status.busy) = none :=
    List.findIdx?_eq_none_iff.2 hothers
  simp [nextTurn, hs, defaultTurn, hb, hfind, hp]

/-- Settles O5: in both cases the step is the host's operation, which is exec of the word it writes. -/
theorem stepRunsDecodedInstruction : Obligations.StepRunsDecodedInstruction := by
  intro s w i p hp hw
  refine ⟨fun rest hs => ?_, fun hs hb hothers => ?_⟩
  · rw [step_scheduled_host hs hp]
    exact hostOp_command (s := (s.withSched rest).withProgram p) hw
  · rw [step_host s _ p hp (nextTurn_idle hs hb hothers (by simp [hp])), hs, List.tail_nil, ← hs]
    exact hostOp_command (s := s.withProgram p) hw

/-- Settles O6: the step is the register write on the instance addressed, which is exec of the word. -/
theorem stepRunsCommandOnAddressedInstance : Obligations.StepRunsCommandOnAddressedInstance := by
  intro s w i p rest k o hs ho hk hp hw
  have hoff : o.base - (s.focus (k + 1)).base = 0 := by
    rw [State.focus_succ_some s k o ho, Nat.sub_self]
  obtain ⟨-, hwrites⟩ := registerWrites
  obtain ⟨t, ht, hstep⟩ := hwrites s rest p o.base (k + 1) w hk (by rw [hoff]) hs hp
  obtain rfl := decodeWord_eq_instr_iff.1 hw
  rw [hoff] at ht
  exact ⟨t, (presentCommand_encode i _).symm.trans ht, hstep⟩

/-- Settles O7: the placed word is the host's next operation, in its next turn. -/
theorem placedWordRunsNext : Obligations.PlacedWordRunsNext := by
  intro s i
  have hp : (s.withFetchWord 32 (encode i).toNat).program = .wr 32 s.base (encode i) :: s.program := by
    rw [State.withFetchWord, ofNat_encode_toNat]
    rfl
  obtain ⟨hscheduled, -⟩ := stepRunsDecodedInstruction (s.withFetchWord 32 (encode i).toNat) (encode i) i s.program hp
    (decodeWord_eq_instr_iff.2 rfl)
  exact hscheduled s.sched rfl

/-- Settles O19: the turn is one read of the register addressed; POLL stays at the head unless the value matches. -/
theorem pollRepeatsUntilMatch : Obligations.PollRepeatsUntilMatch := by
  intro s rest p addr k mask val hk h4 hs hp v t
  have hread : readOf ((s.withSched rest).withProgram p) k (addr - (s.focus k).base) = v := by
    simp [readOf, v]
  have hstep : step s = if v &&& mask = val then .next (t.withProgram p) else .next t := by
    rw [step_scheduled_host hs hp, hostOp, registerAccess_at _ addr k _ (by simpa using hk) (by simpa using h4)]
    simp only [State.focus_withProgram, State.focus_withSched, State.withProgram_base, State.withSched_base, hread]
    have hprogram : t = t.withProgram (.poll addr mask val :: p) := by
      rw [← hp]; rfl
    rw [hprogram]
    rfl
  exact ⟨fun hmatch => hstep.trans (if_pos hmatch), fun hmatch => hstep.trans (if_neg hmatch)⟩

end Sys2Proof.Machine
end

section
/-! PROOFS. The layout of STATUS (R17, R122, O14) and the fold's corner cases (R96, O30). -/

namespace Sys2Proof.Machine

/-- ERR is bits 7:4 of STATUS (R17). -/
theorem statusWord_err (st : Status) : (statusWord st).extractLsb' 4 4 = errCode st.err := by
  refine BitVec.eq_of_getLsbD_eq fun j hj => ?_
  rw [BitVec.getLsbD_extractLsb', Nat.add_comm 4 j, statusWord_getLsbD_err, BitVec.getLsbD_append, if_pos hj,
    decide_eq_true hj, Bool.true_and]

/-- Bits 31:8 of STATUS are zero (R17). -/
theorem statusWord_reserved (st : Status) : (statusWord st).extractLsb' 8 24 = 0 := by
  refine BitVec.eq_of_getLsbD_eq fun j hj => ?_
  rw [BitVec.getLsbD_extractLsb', show 8 + j = (j + 4) + 4 by omega, statusWord_getLsbD_err, BitVec.getLsbD_append,
    if_neg (by omega)]
  simp

/-- Settles O14: STATUS bit by bit, and the codes by definition. -/
theorem statusLayout : Obligations.StatusLayout :=
  ⟨fun st => ⟨statusWord_busy st, statusWord_done st, statusWord_ovf st, statusWord_drop st, statusWord_err st,
    statusWord_reserved st⟩, rfl, rfl, rfl, rfl, rfl⟩

/-- Settles O30: the fold is run on the twelve words. -/
theorem foldCornerCases : Obligations.FoldCornerCases := by
  unfold Obligations.FoldCornerCases
  decide

end Sys2Proof.Machine
end

section
/-! PROOFS. A command whose engine takes the next turns (R70, R140): on a readable buffer it takes its beats one by
one, and one turn more completes it with its result (R71, R73). -/

namespace Sys2Proof.Machine

/-! ### What a run of engine turns leaves alone -/

theorem SameOutsideRun.trans {a b : Nat} {s t u : State} (h : SameOutsideRun a s t) (g : SameOutsideRun b t u) :
    SameOutsideRun (a + b) s u := by
  unfold SameOutsideRun at *
  rw [g, h]
  simp [State.withBlk, List.drop_drop]

/-- The instance's own engine turn leaves alone what a run of one step does (R35, R140). -/
theorem step_sameOutsideRun {s t : State} (hn : nextTurn s = .engine 0) (h : step s = .next t) :
    SameOutsideRun 1 s t := by
  rw [step_engine s hn] at h
  have hmove : BlockMove (s.withSched s.sched.tail) t := .inr (.inl h)
  unfold SameOutsideRun
  rw [List.drop_one]
  rcases hmove.outside with h | h <;> rw [h] <;> rfl

/-- Memory and the platform are as before a run of engine turns, so reads are too. -/
theorem SameOutsideRun.platform {n : Nat} {s t : State} (h : SameOutsideRun n s t) :
    t.mem = s.mem ∧ t.volatileRegions = s.volatileRegions ∧ t.readable = s.readable :=
  ⟨(congrArg State.mem h).trans rfl, (congrArg State.volatileRegions h).trans rfl,
    (congrArg State.readable h).trans rfl⟩

/-- Fewer turns of the engine are still its turns. -/
theorem State.engineTurnsNext.mono {s : State} {a b : Nat} (h : s.engineTurnsNext b) (hab : a ≤ b) :
    s.engineTurnsNext a :=
  fun t ht => h t (List.take_subset_take_left _ hab ht)

/-! ### A command on a readable buffer -/

/-- The block in focus runs command `i` and has taken `n` beats, its registers as acceptance left them, and its
engine can read all of its buffer, whose bytes are those of `m` (R36, R46, R69). -/
structure State.RunsReadable (i : Instr) (r0 : Regs) (m : Memory) (n : Nat) (s : State) : Prop where
  block : s.blk.Runs i r0 m n
  regs : s.regs = { r0 with status := statusAccepted r0.status }
  reads : s.ReadsFrom m s.eng.src.toNat s.eng.len.toNat
  readable : s.canRead s.eng.src.toNat s.eng.len.toNat

/-- What is latched as a buffer can be read: FOLD's is empty (R69, R97). -/
theorem latch_readable {i : Instr} {s : State}
    (h : i ≠ .fold → s.readableBuffer s.regs.src.toNat s.regs.len.toNat) :
    s.readableBuffer s.regs.src.toNat (latch i s.regs).len.toNat := by
  by_cases hi : i = .fold
  · subst hi
    exact fun a h1 h2 => absurd h2 (Nat.not_lt.2 h1)
  · have hlen : (latch i s.regs).len = s.regs.len := if_neg hi
    rw [hlen]
    exact h hi

/-- Acceptance starts the command (R69). -/
theorem acceptCommand_runsReadable {i : Instr} {s : State} (hc : checkOf i s.regs.src s.regs.len = none)
    (h : i ≠ .fold → s.readableBuffer s.regs.src.toNat s.regs.len.toNat) :
    (acceptCommand i s).RunsReadable i s.regs s.mem 0 := by
  have hbuffer := latch_readable h
  exact ⟨⟨rfl, rfl, rfl, ⟨rfl, rfl, rfl⟩, rfl, rfl, rfl, rfl, progressOk_latch hc, (consumed_zero _ _).symm,
    latch_partialSums _ _ _⟩, rfl, ⟨hbuffer.quiet, fun _ _ _ => rfl⟩, hbuffer.canRead⟩

section
variable {i : Instr} {r0 : Regs} {m : Memory} {n : Nat} {s : State}

/-- Before its last beat the engine's turn is a beat that goes on (R70). -/
theorem State.RunsReadable.engineStep_next (hr : s.RunsReadable i r0 m n) (hn : n < beats i s.eng.len.toNat) :
    ∃ t, engineStep s = .next t := by
  have hi : i ≠ .fold := by
    rintro rfl
    exact Nat.not_lt_zero n hn
  have hend : s.eng.pos + beatSize i s.eng.len.toNat s.eng.pos ≤ s.eng.len.toNat :=
    (hr.block.pos_beat hn).le.trans (consumed_le _ _ _)
  refine ⟨_, engineStep_beat s i hr.block.busy hr.block.op hi (hr.block.pos_lt hn) fun a h1 h2 => ?_⟩
  simp only [State.readAddr] at h1 h2
  exact hr.readable a (by omega) (by omega)

/-- An engine turn with beats left is the next beat (R70). -/
theorem State.RunsReadable.step_beat (hr : s.RunsReadable i r0 m n) (hn : n < beats i s.eng.len.toNat)
    (hturn : nextTurn s = .engine 0) :
    ∃ t, step s = .next t ∧ SameOutsideRun 1 s t ∧ t.RunsReadable i r0 m (n + 1) := by
  have hr' : (s.withSched s.sched.tail).RunsReadable i r0 m n := 
    ⟨hr.block, hr.regs, hr.reads.withSched _, hr.readable⟩
  obtain ⟨t, ht⟩ := hr'.engineStep_next hn
  have hstep : step s = .next t := (step_engine s hturn).trans ht
  have houtside := step_sameOutsideRun hturn hstep
  have hblock : t.blk.Runs i r0 m (n + 1) := hr'.block.of_beat hr'.reads hn ht
  obtain ⟨hmem, hvol, hreadable⟩ := houtside.platform
  have hregs : t.regs = s.regs := (engineStep_regs ht).resolve_right fun ⟨_, hle, _⟩ =>
    Nat.not_le.2 (hr.block.pos_lt hn) hle
  have hsrc : t.eng.src = s.eng.src := hblock.src.trans hr.block.src.symm
  have hlen : t.eng.len = s.eng.len := hblock.len.trans hr.block.len.symm
  refine ⟨t, hstep, houtside, hblock, hregs.trans hr.regs, ⟨fun a h1 h2 => ?_, fun a h1 h2 => ?_⟩, fun a h1 h2 => ?_⟩
  all_goals rw [hsrc] at h1 h2; rw [hlen] at h2
  · rw [State.isVolatile, hvol]; exact hr.reads.quiet a h1 h2
  · rw [hmem]; exact hr.reads.same a h1 h2
  · rw [State.isReadable, hreadable]; exact hr.readable a h1 h2

/-- An engine turn after the last beat completes the command (R71, R73). -/
theorem State.RunsReadable.step_complete (hr : s.RunsReadable i r0 m n) (hn : n = beats i s.eng.len.toNat)
    (hturn : nextTurn s = .engine 0) :
    let r := commandResult i m r0.src.toNat r0.len.toNat r0.sumIn
    ∃ u, step s = .next u ∧ SameOutsideRun 1 s u
      ∧ u.regs = completedRegs r.sum r.carry (fold r.sum) r.loss s.regs ∧ u.eng.op = none := by
  intro r
  have hcomplete : step s = .next (complete i (s.withSched s.sched.tail)) :=
    (step_engine s hturn).trans (engineStep_complete _ i hr.block.busy hr.block.op (hr.block.pos_eq hn).ge)
  exact ⟨_, hcomplete, step_sameOutsideRun hturn hcomplete,
    Block.Runs.completes (s := s.withSched s.sched.tail) hr.block (hr.reads.withSched _) hn
      ((step_engine s hturn).symm.trans hcomplete), rfl⟩

/-- A run of engine turns with as many beats left takes that many beats (R70, R140). -/
theorem State.RunsReadable.run_beats {k j : Nat} (hr : s.RunsReadable i r0 m n)
    (hturns : s.engineTurnsNext (k + j)) (hk : n + k ≤ beats i s.eng.len.toNat) :
    ∃ v, Host.Core.run core k s = .next v ∧ SameOutsideRun k s v ∧ v.RunsReadable i r0 m (n + k)
      ∧ v.engineTurnsNext j := by
  induction k generalizing s n with
  | zero => exact ⟨s, rfl, rfl, hr, Nat.zero_add j ▸ hturns⟩
  | succ k ih =>
    rw [Nat.add_right_comm] at hturns
    obtain ⟨t, hstep, houtside, ht⟩ :=
      hr.step_beat (by omega) (nextTurn_of_engineTurnsNext s _ hturns hr.block.busy)
    have hlen : t.eng.len = s.eng.len := ht.block.len.trans hr.block.len.symm
    obtain ⟨v, hrun, houtside', hv, hturns'⟩ :=
      ih ht (State.engineTurnsNext_tail s t _ hturns (step_sched hstep)) (by rw [hlen]; omega)
    refine ⟨v, (run_of_step (M := core) hstep).trans hrun, ?_, ?_, hturns'⟩
    · rw [Nat.add_comm k 1]; exact houtside.trans houtside'
    · rwa [Nat.add_right_comm, Nat.add_assoc] at hv

end

/-- A run of `k` that goes on, and a step more. -/
theorem run_last {M : Host.Core} {k : Nat} {s t u : M.State} (h : M.run k s = .next t) (g : M.step t = .next u) :
    M.run (k + 1) s = .next u := by
  induction k generalizing s with
  | zero => cases h; exact run_of_step g
  | succ k ih =>
    obtain ⟨r, hstep, hrun⟩ := run_succ h
    exact (run_of_step hstep).trans (ih hrun)

/-- What a whole command does, from `s` in which it is presented to `u` in which it is complete: acceptance, its
beats, and the completion with its result (R69, R70, R71, R73). -/
structure CommandCompletes (i : Instr) (s u : State) : Prop where
  accepted : exec i s = .next (acceptCommand i s)
  busy : ∀ k, k ≤ beats i s.regs.len.toNat →
    ∃ v, Host.Core.run core k (acceptCommand i s) = .next v ∧ State.busy v = true
  run : Host.Core.run core (beats i s.regs.len.toNat + 1) (acceptCommand i s) = .next u
  regs : let r := commandResult i s.mem s.regs.src.toNat s.regs.len.toNat s.regs.sumIn
    u.regs = completedRegs r.sum r.carry (fold r.sum) r.loss (acceptCommand i s).regs
  op : u.eng.op = none
  outside : SameOutsideRun (beats i s.regs.len.toNat + 1) s u

/-- On a readable buffer, with the engine taking the next turns, an idle block completes every command `Validate`
passes (R67, R70, R71). -/
theorem command_completes {i : Instr} {s : State} (hb : s.busy = false)
    (hturns : s.engineTurnsNext (beats i s.regs.len.toNat + 1))
    (hv : validate (encode i) s.regs.src s.regs.len = none)
    (h : i ≠ .fold → s.readableBuffer s.regs.src.toNat s.regs.len.toNat) : ∃ u, CommandCompletes i s u := by
  have hstart := acceptCommand_runsReadable (validate_encode i _ _ ▸ hv) h
  have hbeats : beats i (acceptCommand i s).eng.len.toNat = beats i s.regs.len.toNat := beats_latch i s.regs
  have hrun : ∀ {k j}, k + j = beats i s.regs.len.toNat + 1 → 1 ≤ j →
      ∃ v, Host.Core.run core k (acceptCommand i s) = .next v ∧ SameOutsideRun k (acceptCommand i s) v
        ∧ v.RunsReadable i s.regs s.mem (0 + k) ∧ v.engineTurnsNext j := fun hkj hj =>
    hstart.run_beats (hkj ▸ hturns) (by omega)
  obtain ⟨v, hbeats', houtside, hready, hturn⟩ := hrun rfl le_rfl
  have hlen : v.eng.len = (latch i s.regs).len := hready.block.len
  have hend : 0 + beats i s.regs.len.toNat = beats i v.eng.len.toNat := by
    rw [Nat.zero_add, hlen, beats_latch]
  obtain ⟨u, hstep, houtside', hregs, hop⟩ :=
    hready.step_complete hend (nextTurn_of_engineTurnsNext v 0 hturn hready.block.busy)
  refine ⟨u, exec_accepts_of_validate hb hv, fun k hk => ?_, run_last (M := core) hbeats' hstep, ?_, hop,
    houtside.trans houtside'⟩
  · obtain ⟨w, hw, -, hruns, -⟩ := hrun (k := k) (Nat.add_sub_cancel' (by omega)) (by omega)
    exact ⟨w, hw, hruns.block.busy⟩
  · rw [hregs, hready.regs]
    rfl

end Sys2Proof.Machine
end

section
/-! PROOFS. The whole commands (R87, R91, R103, R106, R108, R111, R113, R115, R118, R140): what each strategy leaves
after its beats and its completion (O39 to O45). -/

namespace Sys2Proof.Machine

/-! ### What SUM and CARRY account for -/

/-- With a carry at its weight 2^16, which is 0xFFFF more than the 1 it has in SUM, nothing is missing of the exact
lane sums (R111, R118). -/
theorem lowsAndCarries_account (e : Fin 16 → Nat) :
    (∑ i, e i % 2 ^ 16) + (∑ i, e i / 2 ^ 16) + 0xFFFF * ∑ i, e i / 2 ^ 16 = ∑ i, e i := by
  have hsplit : ∑ i, e i = ∑ i, (e i % 2 ^ 16 + 2 ^ 16 * (e i / 2 ^ 16)) :=
    Finset.sum_congr rfl fun i _ => (Nat.mod_add_div _ _).symm
  rw [hsplit, Finset.sum_add_distrib, ← Finset.mul_sum]
  omega

/-- A lane sum's low half is a 16-bit value. -/
theorem sum_mod_le (e : Fin 16 → Nat) : ∑ i, e i % 2 ^ 16 ≤ 16 * 2 ^ 16 :=
  sum_fin16_le fun _ => (Nat.mod_lt _ (Nat.two_pow_pos 16)).le

/-- A sum and its carries, both as words, when the sum fits in 32 bits. -/
theorem ofNat_account {lows carries total : Nat} (h : lows + carries + 0xFFFF * carries = total)
    (hlt : lows + carries < 2 ^ 32) :
    (BitVec.ofNat 32 (lows + carries)).toNat + 0xFFFF * (BitVec.ofNat 32 carries).toNat = total := by
  rw [BitVec.toNat_ofNat, BitVec.toNat_ofNat, Nat.mod_eq_of_lt hlt, Nat.mod_eq_of_lt (by omega), h]

/-- Without loss NARROW's SUM and CARRY account for the exact sum (R111, R113). -/
theorem narrow_accounts {m : Memory} {src len : Nat} {sumIn : Word} (hlen : len % 32 = 0)
    (hloss : (commandResult .narrow m src len sumIn).loss = false) :
    (commandResult .narrow m src len sumIn).sum.toNat
      + 0xFFFF * (commandResult .narrow m src len sumIn).carry.toNat = exactSum m src len := by
  have hsmall : ∀ i : Fin 16, laneSum m src 32 (len / 32) i < 2 ^ 32 := by
    simpa [commandResult] using hloss
  have hcarry : ∀ i : Fin 16, laneSum m src 32 (len / 32) i / 2 ^ 16 < 2 ^ 16 := fun i => by
    have hi := hsmall i
    omega
  have hlows := sum_mod_le fun i => laneSum m src 32 (len / 32) i
  have hcarries := sum_fin16_le fun i => (hcarry i).le
  have haccount := lowsAndCarries_account fun i => laneSum m src 32 (len / 32) i
  rw [← exactSum_chunks, Nat.mul_div_cancel' (Nat.dvd_of_mod_eq_zero hlen)] at haccount
  simp only [commandResult, Nat.mod_eq_of_lt (hcarry _)]
  exact ofNat_account haccount (by omega)

/-- POPCNT's SUM and CARRY account for the exact sum of every buffer (R118). -/
theorem popcnt_accounts {m : Memory} {src len : Nat} {sumIn : Word} (hlen : len % 64 = 0) (hmax : len < 2 ^ 32) :
    (commandResult .popcnt m src len sumIn).sum.toNat
      + 0xFFFF * (commandResult .popcnt m src len sumIn).carry.toNat = exactSum m src len := by
  have hlows := sum_mod_le fun i => laneSum m src 64 (len / 64) i
  have hlows' := sum_mod_le fun i => laneSum m (src + 32) 64 (len / 64) i
  have hcarries := pairCarries_le m src (len / 64)
  have haccount := lowsAndCarries_account fun i => laneSum m src 64 (len / 64) i
  have haccount' := lowsAndCarries_account fun i => laneSum m (src + 32) 64 (len / 64) i
  have htotal := exactSum_pairs m src (len / 64)
  rw [Nat.mul_div_cancel' (Nat.dvd_of_mod_eq_zero hlen)] at htotal
  unfold pairCarries at hcarries
  simp only [commandResult, Finset.sum_add_distrib] at *
  exact ofNat_account (by omega) (by omega)

/-! ### From the command to its registers -/

section
variable {i : Instr} {s u : State}

/-- Memory is as it was (R35). -/
theorem CommandCompletes.mem (h : CommandCompletes i s u) : u.mem = s.mem := h.outside.platform.1

/-- The registers, with the values R71 writes. -/
theorem CommandCompletes.regs_eq (h : CommandCompletes i s u) :
    let r := commandResult i s.mem s.regs.src.toNat s.regs.len.toNat s.regs.sumIn
    u.regs = { s.regs with
      sum := r.sum, carry := r.carry, result := fold r.sum,
      status := { busy := false, done := true, ovf := r.loss, drop := s.regs.status.drop, err := none } } :=
  h.regs

/-- OVF says whether the command lost something. -/
theorem CommandCompletes.ovf_eq (h : CommandCompletes i s u) : u.regs.status.ovf
    = (commandResult i s.mem s.regs.src.toNat s.regs.len.toNat s.regs.sumIn).loss :=
  congrArg (·.status.ovf) h.regs

/-- What `Validate` leaves of a strategy's length (R67). -/
theorem progressOk_of_validate {r : Regs} (hi : i ≠ .fold) (hv : validate (encode i) r.src r.len = none) :
    progressOk i r.len.toNat 0 := by
  have hlen : (latch i r).len = r.len := if_neg hi
  exact hlen ▸ progressOk_latch (validate_encode i _ _ ▸ hv)

/-- Without loss RESULT is the reference checksum (R86). -/
theorem CommandCompletes.result_eq_rfc (h : CommandCompletes i s u) (hi : i ≠ .fold)
    (hv : validate (encode i) s.regs.src s.regs.len = none) (hovf : u.regs.status.ovf = false) :
    u.regs.result = rfc s.mem s.regs.src.toNat s.regs.len.toNat := by
  rw [h.regs_eq]
  exact fold_commandResult hi (progressOk_of_validate hi hv) s.regs.len.isLt (h.ovf_eq.symm.trans hovf)

end

/-- Settles O39: SCALAR's check is RANGE alone, and its result is the exact sum. -/
theorem scalarCommandResult : Obligations.ScalarCommandResult := by
  intro s hb hturns hrange hread x
  have hv := validate_scalar_ok (Nat.not_lt.2 hrange)
  obtain ⟨u, h⟩ := command_completes hb hturns hv fun _ => hread
  refine ⟨_, u, h.accepted, h.run, h.regs_eq, fun hx => ?_, h.op, h.outside, fun a => by rw [h.mem]⟩
  exact h.result_eq_rfc (by decide) hv (h.ovf_eq.trans (decide_eq_false (Nat.not_le.2 hx)))

/-- Settles O40: WIDE's result is the exact sum, as SCALAR's is. -/
theorem wideCommandResult : Obligations.WideCommandResult := by
  intro s hb hturns hrange hlen hread x
  have hv := validate_chunks_ok (i := .wide) (.inl rfl) (Nat.not_lt.2 hrange) hlen
  obtain ⟨u, h⟩ := command_completes hb hturns hv fun _ => hread
  refine ⟨_, u, h.accepted, h.run, h.regs_eq, fun hx => ?_, h.op, h.outside, fun a => by rw [h.mem]⟩
  exact h.result_eq_rfc (by decide) hv (h.ovf_eq.trans (decide_eq_false (Nat.not_le.2 hx)))

/-- Settles O41: NARROW's result is the lanes and carries of the exact lane sums. -/
theorem narrowCommandResult : Obligations.NarrowCommandResult := by
  intro s hb hturns hrange hlen hread e lanes carries
  have hv := validate_chunks_ok (i := .narrow) (.inr rfl) (Nat.not_lt.2 hrange) hlen
  obtain ⟨u, h⟩ := command_completes hb hturns hv fun _ => hread
  refine ⟨_, u, h.accepted, h.run, h.regs_eq, fun hovf => ⟨?_, h.result_eq_rfc (by decide) hv hovf⟩, h.op,
    h.outside, fun a => by rw [h.mem]⟩
  rw [h.regs_eq]
  exact narrow_accounts (sumIn := s.regs.sumIn) hlen (h.ovf_eq.symm.trans hovf)

/-- Settles O42: POPCNT's result is the lanes and carries of both accumulators, without loss. -/
theorem popcntCommandResult : Obligations.PopcntCommandResult := by
  intro s hb hturns hrange hlen hread ea eb lanes carries
  have hv := validate_popcnt_ok (Nat.not_lt.2 hrange) hlen
  obtain ⟨u, h⟩ := command_completes hb hturns hv fun _ => hread
  refine ⟨_, u, h.accepted, h.run, h.regs_eq, ?_, h.result_eq_rfc (by decide) hv h.ovf_eq, h.op, h.outside,
    fun a => by rw [h.mem]⟩
  rw [h.regs_eq]
  exact popcnt_accounts (sumIn := s.regs.sumIn) hlen s.regs.len.isLt

/-- Settles O43: the block is busy through the beats and idle with DONE after the completion. -/
theorem commandTakesItsBeats : Obligations.CommandTakesItsBeats := by
  intro i s hb hturns hv hread
  obtain ⟨u, h⟩ := command_completes hb hturns hv hread
  have hstatus := congrArg Regs.status h.regs_eq
  exact ⟨_, u, h.accepted, h.busy, h.run, congrArg Status.busy hstatus, congrArg Status.done hstatus⟩

/-- Settles O44. -/
theorem noLossGivesReferenceChecksum : Obligations.NoLossGivesReferenceChecksum := by
  intro i s hi hb hturns hv hread
  obtain ⟨u, h⟩ := command_completes hb hturns hv fun _ => hread
  exact ⟨_, u, h.accepted, h.run, h.result_eq_rfc hi hv⟩

/-- WIDE takes no more beats than SCALAR (R70). -/
theorem beats_wide_le_scalar (len : Nat) : beats .wide len ≤ beats .scalar len := by
  simp only [beats]
  omega

/-- Settles O45: both leave the same result of the same buffer. -/
theorem wideAgreesWithScalar : Obligations.WideAgreesWithScalar := by
  intro s hb hturns hrange hlen hread
  have hturns' : s.engineTurnsNext (beats .wide s.regs.len.toNat + 1) :=
    hturns.mono (Nat.succ_le_succ (beats_wide_le_scalar _))
  have hrange' := Nat.not_lt.2 hrange
  obtain ⟨u, hwide⟩ := command_completes hb hturns' (validate_chunks_ok (.inl rfl) hrange' hlen) fun _ => hread
  obtain ⟨u', hscalar⟩ := command_completes hb hturns (validate_scalar_ok hrange') fun _ => hread
  exact ⟨_, u, _, u', hwide.accepted, hscalar.accepted, hwide.run, hscalar.run,
    hwide.regs_eq.trans hscalar.regs_eq.symm⟩

end Sys2Proof.Machine
end

section
/-! PROOFS. What can happen to the registers of the instance in focus in one step (R25, R30), said once, and the rules
on BUSY (O55), DROP (O56), DONE, OVF and ERR (O57) and the host's registers (O58) read off it. -/

namespace Sys2Proof.Machine

/-! ### The events -/

/-- The events by which the coming step of `s` makes `u` of the registers of the block `b` in focus (R30, R63 to R69,
R71, R137). -/
inductive RegsEvent (s : State) (b : Block) : Regs → Prop
  | kept : RegsEvent s b b.regs
  | reset : nextTurn s = .reset 0 → RegsEvent s b Regs.reset
  | completed {sum carry : Word} {result : Half} {ovf : Bool} : nextTurn s = .engine 0 → b.regs.status.busy = true →
      b.eng.len.toNat ≤ b.eng.pos → RegsEvent s b (completedRegs sum carry result ovf b.regs)
  | dropped {w : Word} : s.hostWrites 0x00 w → b.regs.status.busy = true →
      RegsEvent s b { b.regs with status := statusDropped b.regs.status }
  | rejected {w : Word} {e : Reject} : s.hostWrites 0x00 w → b.regs.status.busy = false →
      RegsEvent s b { b.regs with status := statusRejected e b.regs.status }
  | accepted {w : Word} {i : Instr} : s.hostWrites 0x00 w → b.regs.status.busy = false → decodeWord w = .instr i →
      RegsEvent s b { b.regs with status := statusAccepted b.regs.status }
  | cleared {v : Word} : s.hostWrites 0x04 v →
      RegsEvent s b { b.regs with status := statusW1C v b.regs.status }
  | srcWritten {v : Word} : s.hostWrites 0x08 v → RegsEvent s b { b.regs with src := v }
  | lenWritten {v : Word} : s.hostWrites 0x0C v → RegsEvent s b { b.regs with len := v }
  | sumInWritten {v : Word} : s.hostWrites 0x10 v → RegsEvent s b { b.regs with sumIn := v }

/-- A host's write to CMD (R66 to R69). -/
theorem presentCommand_regsEvent {s r t : State} {w : Word} (hw : s.hostWrites 0x00 w)
    (h : presentCommand w r = .next t) : RegsEvent s r.blk t.regs := by
  rcases presentCommand_cases w r t h with ⟨hb, rfl⟩ | ⟨hb, e, rfl⟩ | ⟨hb, i, hi, -, rfl⟩
  · exact .dropped hw hb
  · exact .rejected hw hb
  · exact .accepted hw hb hi

/-- A host's write to the window of the instance in focus (R63). -/
theorem regWrite_regsEvent {s r t : State} {off : Nat} {v : Word} (hw : s.hostWrites off v)
    (h : regWrite off v r = .next t) : RegsEvent s r.blk t.regs := by
  rcases regWrite_cases off v r t h with ⟨rfl, h⟩ | ⟨rfl, rfl⟩ | ⟨rfl, rfl⟩ | ⟨rfl, rfl⟩ | ⟨rfl, rfl⟩ | rfl
  · exact presentCommand_regsEvent hw h
  · exact .cleared hw
  · exact .srcWritten hw
  · exact .lenWritten hw
  · exact .sumInWritten hw
  · exact .kept

/-- The turn of the engine of the instance in focus (R70, R71). -/
theorem engineStep_regsEvent {s r t : State} (hn : nextTurn s = .engine 0) (h : engineStep r = .next t) :
    RegsEvent s r.blk t.regs := by
  rcases engineStep_cases r t h with ⟨-, rfl⟩ | ⟨-, i, -, -, -, -, rfl⟩ | ⟨hb, i, -, hle, rfl⟩
  · exact .kept
  · exact .kept
  · rw [complete_regs]
    exact .completed hn hb hle

/-- Whatever step is taken, one of the events happens to the registers of the instance in focus. -/
theorem step_regsEvent {s t : State} (h : step s = .next t) : RegsEvent s s.blk t.regs := by
  rcases step_block s t h with hblk | ⟨hn, hblk⟩ | ⟨hn, r, hr, he⟩ | ⟨hn, off, v, p, r, hp, -, -, hr, hw⟩
  · rw [State.regs, hblk]; exact .kept
  · rw [State.regs, hblk]; exact .reset hn
  · exact hr ▸ engineStep_regsEvent hn he
  · exact hr ▸ regWrite_regsEvent ⟨hn, p, hp⟩ hw

/-! ### BUSY, DROP, DONE, OVF and ERR -/

/-- A CMD write to the idle block is rejected: it stays idle, with a code in ERR (R68). -/
def Rejects (s : State) (b : Block) (u : Regs) : Prop :=
  ∃ w, s.hostWrites 0x00 w ∧ b.regs.status.busy = false ∧ u.status.busy = false ∧ u.status.err.isSome = true

/-- A CMD write to the idle block is accepted: it becomes busy, with no code in ERR (R69). -/
def Accepts (s : State) (b : Block) (u : Regs) : Prop :=
  ∃ w, s.hostWrites 0x00 w ∧ b.regs.status.busy = false ∧ u.status.busy = true ∧ u.status.err = none

/-- The coming step is the engine's, with all bytes of the command consumed (R71). -/
def Completes (s : State) (b : Block) : Prop :=
  nextTurn s = .engine 0 ∧ b.regs.status.busy = true ∧ b.eng.len.toNat ≤ b.eng.pos

section
variable {s : State} {b : Block} {u : Regs}

theorem RegsEvent.busy_set (h : RegsEvent s b u) (hb : b.regs.status.busy = false) (hu : u.status.busy = true) :
    ∃ w i, s.hostWrites 0x00 w ∧ decodeWord w = .instr i := by
  cases h with
  | accepted hw _ hi => exact ⟨_, _, hw, hi⟩
  | dropped _ hbusy => simp [hbusy] at hb
  | reset | completed => cases hu
  | _ => exact absurd (hb.symm.trans hu) Bool.false_ne_true

theorem RegsEvent.busy_cleared (h : RegsEvent s b u) (hb : b.regs.status.busy = true) (hu : u.status.busy = false) :
    nextTurn s = .reset 0 ∨ Completes s b := by
  cases h with
  | reset hn => exact .inl hn
  | completed hn hbusy hle => exact .inr ⟨hn, hbusy, hle⟩
  | accepted => cases hu
  | _ => exact absurd (hu.symm.trans hb) Bool.false_ne_true

theorem RegsEvent.drop_cleared (h : RegsEvent s b u) (hb : b.regs.status.drop = true) (hu : u.status.drop = false) :
    nextTurn s = .reset 0 ∨ ∃ v, s.hostWrites 0x04 v ∧ v.getLsbD 3 = true := by
  cases h with
  | reset hn => exact .inl hn
  | cleared hw => exact .inr ⟨_, hw, by simpa [statusW1C, hb] using hu⟩
  | dropped => cases hu
  | _ => exact absurd (hu.symm.trans hb) Bool.false_ne_true

theorem RegsEvent.done_set (h : RegsEvent s b u) (hb : b.regs.status.done = false) (hu : u.status.done = true) :
    Completes s b ∨ Rejects s b u := by
  cases h with
  | completed hn hbusy hle => exact .inl ⟨hn, hbusy, hle⟩
  | rejected hw hidle => exact .inr ⟨_, hw, hidle, hidle, rfl⟩
  | reset | accepted => cases hu
  | cleared => simp [statusW1C, hb] at hu
  | _ => exact absurd (hb.symm.trans hu) Bool.false_ne_true

theorem RegsEvent.done_cleared (h : RegsEvent s b u) (hb : b.regs.status.done = true) (hu : u.status.done = false) :
    nextTurn s = .reset 0 ∨ Accepts s b u ∨ ∃ v, s.hostWrites 0x04 v ∧ v.getLsbD 1 = true := by
  cases h with
  | reset hn => exact .inl hn
  | accepted hw hidle => exact .inr (.inl ⟨_, hw, hidle, rfl, rfl⟩)
  | cleared hw => exact .inr (.inr ⟨_, hw, by simpa [statusW1C, hb] using hu⟩)
  | completed | rejected => cases hu
  | _ => exact absurd (hu.symm.trans hb) Bool.false_ne_true

theorem RegsEvent.ovf_changed (h : RegsEvent s b u) (hu : u.status.ovf ≠ b.regs.status.ovf) :
    Completes s b ∨ u.status.ovf = false ∧ (nextTurn s = .reset 0 ∨ Rejects s b u ∨ Accepts s b u) := by
  cases h with
  | completed hn hbusy hle => exact .inl ⟨hn, hbusy, hle⟩
  | reset hn => exact .inr ⟨rfl, .inl hn⟩
  | rejected hw hidle => exact .inr ⟨rfl, .inr (.inl ⟨_, hw, hidle, hidle, rfl⟩)⟩
  | accepted hw hidle => exact .inr ⟨rfl, .inr (.inr ⟨_, hw, hidle, rfl, rfl⟩)⟩
  | _ => exact absurd rfl hu

theorem RegsEvent.err_changed (h : RegsEvent s b u) (hu : u.status.err ≠ b.regs.status.err) :
    nextTurn s = .reset 0 ∨ Rejects s b u ∨ Accepts s b u := by
  cases h with
  | reset hn => exact .inl hn
  | rejected hw hidle => exact .inr (.inl ⟨_, hw, hidle, hidle, rfl⟩)
  | accepted hw hidle => exact .inr (.inr ⟨_, hw, hidle, rfl, rfl⟩)
  | _ => exact absurd rfl hu

/-! ### SRC, LEN and SUM_IN -/

theorem RegsEvent.src_changed (h : RegsEvent s b u) (hu : u.src ≠ b.regs.src) :
    nextTurn s = .reset 0 ∨ s.hostWrites 0x08 u.src := by
  cases h with
  | reset hn => exact .inl hn
  | srcWritten hw => exact .inr hw
  | _ => exact absurd rfl hu

theorem RegsEvent.len_changed (h : RegsEvent s b u) (hu : u.len ≠ b.regs.len) :
    nextTurn s = .reset 0 ∨ s.hostWrites 0x0C u.len := by
  cases h with
  | reset hn => exact .inl hn
  | lenWritten hw => exact .inr hw
  | _ => exact absurd rfl hu

theorem RegsEvent.sumIn_changed (h : RegsEvent s b u) (hu : u.sumIn ≠ b.regs.sumIn) :
    nextTurn s = .reset 0 ∨ s.hostWrites 0x10 u.sumIn := by
  cases h with
  | reset hn => exact .inl hn
  | sumInWritten hw => exact .inr hw
  | _ => exact absurd rfl hu

end

/-- Settles O55. -/
theorem busyChangesOnlyByCommandCompletionReset : Obligations.BusyChangesOnlyByCommandCompletionReset := by
  intro s t h
  have hevent := step_regsEvent h
  refine ⟨fun hb ht => ?_, fun hb ht => ?_⟩
  · obtain ⟨w, i, ⟨hn, p, hp⟩, hi⟩ := hevent.busy_set hb ht
    exact ⟨hn, w, p, i, hp, hi⟩
  · exact (hevent.busy_cleared hb ht).imp_right fun ⟨hn, _, hle⟩ => ⟨hn, hle⟩

/-- Settles O56. -/
theorem dropIsSticky : Obligations.DropIsSticky := by
  intro s t h hs ht
  refine ((step_regsEvent h).drop_cleared hs ht).imp_right ?_
  rintro ⟨v, ⟨hn, p, hp⟩, hbit⟩
  exact ⟨hn, v, p, hp, hbit⟩

/-- Settles O57: `rejects`, `accepts` and the completion of the statement are the events of the same name. -/
theorem doneOvfErrChangeOnlyByTheirEvents : Obligations.DoneOvfErrChangeOnlyByTheirEvents := by
  intro s t h rejects accepts
  have hevent := step_regsEvent h
  exact ⟨hevent.done_set, hevent.done_cleared, hevent.ovf_changed, hevent.err_changed⟩

/-- Settles O58. -/
theorem hostRegistersWrittenByHostOnly : Obligations.HostRegistersWrittenByHostOnly := by
  intro s t h
  have hevent := step_regsEvent h
  exact ⟨hevent.src_changed, hevent.len_changed, hevent.sumIn_changed⟩

end Sys2Proof.Machine
end

section
/-! PROOFS. Writes to memory and the buffer of a running command (R142, R46, O59). -/

namespace Sys2Proof.Machine

section
variable {s : State} {addr n v : Nat}

/-- A write inside the buffer space that meets the buffer of a running command faults with such a byte (R125,
R142). -/
theorem memWrite_faults (hin : addr + n ≤ 2 ^ 32)
    (h : ∃ a, addr ≤ a ∧ a < addr + n ∧ s.bufferHolds a = true) :
    ∃ a, addr ≤ a ∧ a < addr + n ∧ s.bufferHolds a = true
      ∧ memWrite addr n v s = .fault (.bufferWrittenWhileBusy a) := by
  obtain ⟨a, h1, h2, ha⟩ := h
  obtain ⟨b, hb⟩ := firstAddr_isSome h1 h2 ha
  obtain ⟨hb1, hb2, hholds, -⟩ := firstAddr_some _ _ _ _ hb
  have hspace : insideSpace addr n = true := decide_eq_true hin
  exact ⟨b, hb1, hb2, hholds, by simp only [memWrite, hspace, hb, if_true]⟩

/-- A write inside the buffer space that meets no such buffer stores its bytes (R10, R46). -/
theorem memWrite_stores (hin : addr + n ≤ 2 ^ 32)
    (h : ∀ a, addr ≤ a → a < addr + n → s.bufferHolds a = false) :
    memWrite addr n v s = .next (s.withMem (s.mem.writeBytes addr n v)) := by
  have hspace : insideSpace addr n = true := decide_eq_true hin
  simp only [memWrite, hspace, (firstAddr_eq_none_iff _ _ _).2 h, if_true]

end

/-- A scheduled turn of another memory writer is its next write (R5, R140). -/
theorem step_scheduled_writer {s : State} {w : MemWrite} {ws : List MemWrite} {rest : List Turn}
    (hs : s.sched = .writer :: rest) (hw : s.writers = w :: ws) :
    step s = memWrite w.addr w.n w.v ((s.withSched rest).withWriters ws) := by
  simp [step, nextTurn_sched s _ _ hs, takeTurn, writerStep, hs, hw]

/-- Settles O59: the fault or the store by whether the search for a buffer byte finds one; the turns are that write;
and the three registers are not the engine's. -/
theorem bufferWriteWhileBusyFaults : Obligations.BufferWriteWhileBusyFaults := by
  refine ⟨fun s addr n v hm hin => ⟨memWrite_faults hin, fun hfree => ?_⟩, fun s rest p addr n v hs hp => ?_,
    fun s rest w ws => step_scheduled_writer, ?_⟩
  · refine ⟨_, memWrite_stores hin hfree, rfl, fun j hj => ?_, fun a ha => ?_⟩
    · rw [State.withMem_mem, Memory.read_writeBytes _ hm _ _ _ hin, if_pos (by omega), Nat.add_sub_cancel_left,
        byteOf]
    · rw [State.withMem_mem, Memory.read_writeBytes _ hm _ _ _ hin, if_neg (by omega)]
  · rw [step_scheduled_host hs hp, hostOp]
  · rintro s off v - (rfl | rfl | rfl) <;> exact ⟨_, rfl, rfl, rfl⟩

end Sys2Proof.Machine
end

section
/-! PROOFS. What a turn of one instance leaves of the others (R33, R134, O60), and the reset turn (R137, O52). -/

namespace Sys2Proof.Machine

/-! ### A turn of one instance -/

/-- The turn is instance `k`'s own: its engine's, its reset, or a host's register write to its window (R33, R134). -/
def InstanceTurn (k : Nat) (s t : State) : Prop :=
  takeTurn (.engine k) s = .next t ∨ takeTurn (.reset k) s = .next t
    ∨ takeTurn .host s = .next t ∧ ∃ width addr v p, s.program = .wr width addr v :: p ∧ s.instanceAt addr = some k

/-- The host's write to a window is a register write on the instance it names (R63). -/
theorem hostStep_wr {s t : State} {width addr k : Nat} {v : Word} {p : List HostOp}
    (hp : s.program = .wr width addr v :: p) (hk : s.instanceAt addr = some k) (h : takeTurn .host s = .next t) :
    ∃ off u, regWrite off v (((s.withProgram p).note (.regWrite addr v)).focus k) = .next u ∧ t = u.focus k := by
  simp only [takeTurn, hostStep, hp, hostOp] at h
  obtain ⟨j, hj, -, ht⟩ := registerAccess_next _ _ _ _ _ h
  obtain rfl : k = j := Option.some.inj (hk.symm.trans hj)
  obtain ⟨u, hu, rfl⟩ := onInstance_next _ _ _ _ ht
  exact ⟨_, u, hu, rfl⟩

/-- An instance's turn passes, or is its own move with the focus put back. -/
theorem InstanceTurn.move {k : Nat} {s t : State} (h : InstanceTurn k s t) :
    t = s ∨ ∃ r u, SameCore s r ∧ r.hasInstance k = true ∧ BlockMove (r.focus k) u ∧ t = u.focus k := by
  rcases h with h | h | ⟨h, width, addr, v, p, hp, hk⟩
  · rw [takeTurn] at h
    split at h
    · obtain ⟨u, hu, rfl⟩ := onInstance_next _ _ _ _ h
      exact .inr ⟨s, u, SameCore.rfl' s, by assumption, .inr (.inl hu), rfl⟩
    · cases h; exact .inl rfl
  · rw [takeTurn] at h
    split at h
    · obtain ⟨u, hu, rfl⟩ := onInstance_next _ _ _ _ h
      cases hu
      exact .inr ⟨s, _, SameCore.rfl' s, by assumption, .inr (.inr rfl), rfl⟩
    · cases h; exact .inl rfl
  · obtain ⟨off, u, hu, rfl⟩ := hostStep_wr hp hk h
    exact .inr ⟨(s.withProgram p).note (.regWrite addr v), u, ⟨rfl, rfl, rfl, rfl, rfl, rfl⟩,
      instanceAt_hasInstance s addr k hk, .inl ⟨off, v, hu⟩, rfl⟩

/-- A turn of instance `k + 1` leaves the block in focus, memory, every window and every third instance (R33). -/
theorem InstanceTurn.leaves_others {k : Nat} {s t : State} (h : InstanceTurn (k + 1) s t) :
    t.blk = s.blk ∧ t.base = s.base ∧ t.mem = s.mem ∧ (∀ j, j ≠ k → t.others[j]? = s.others[j]?)
      ∧ t.others.map (·.base) = s.others.map (·.base) := by
  rcases h.move with rfl | ⟨r, u, hc, hk, hm, rfl⟩
  · exact ⟨rfl, rfl, rfl, fun _ _ => rfl, rfl⟩
  · rcases move_of_instance r _ u (k + 1) hk hm rfl with ⟨hzero, -⟩ | ⟨j, o, hj, ho, hblk, hbase, hmem, hothers, -⟩
    · cases hzero
    · cases hj
      rw [hc.others] at ho hothers
      refine ⟨hblk.trans hc.blk, hbase.trans hc.base, hmem.trans hc.mem, fun j hj => ?_, ?_⟩
      · rw [hothers, List.getElem?_set_ne (Ne.symm hj)]
      · rw [hothers, map_base_set ho]

/-- A turn of the instance in focus leaves all other instances (R33). -/
theorem InstanceTurn.leaves_slots {s t : State} (h : InstanceTurn 0 s t) : t.others = s.others := by
  rcases h.move with rfl | ⟨r, u, hc, -, hm, rfl⟩
  · rfl
  · exact hm.others.1.trans hc.others

/-- A host's read or poll changes no block (R62). -/
theorem host_read_leaves_blocks {s t : State} (h : takeTurn .host s = .next t)
    (hp : (∃ width addr p, s.program = .rd width addr :: p) ∨ ∃ addr mask val p, s.program = .poll addr mask val :: p) :
    t.blk = s.blk ∧ t.others = s.others := by
  rcases hp with ⟨width, addr, p, hp⟩ | ⟨addr, mask, val, p, hp⟩
  · simp only [takeTurn, hostStep, hp, hostOp] at h
    obtain ⟨k, -, -, ht⟩ := registerAccess_next _ _ _ _ _ h
    cases ht
    exact ⟨rfl, rfl⟩
  · simp only [takeTurn, hostStep, hp, hostOp] at h
    obtain ⟨k, -, -, ht⟩ := registerAccess_next _ _ _ _ _ h
    split at ht <;> cases ht <;> exact ⟨rfl, rfl⟩

/-! ### The engine and the other instances -/

/-- An engine's turn is its instance's engine step, with the focus put back (R140). -/
theorem step_engine_instance {s : State} {k : Nat} (hn : nextTurn s = .engine k) (hk : s.hasInstance k = true) :
    step s = outcomeMap (fun t => t.focus k) (engineStep ((s.withSched s.sched.tail).focus k)) := by
  rw [step, hn, takeTurn, State.hasInstance_withSched, if_pos hk, onInstance]

/-- The same state with other instances beside the one in focus. -/
def State.withOthers (s : State) (others : List Slot) : State := { s with others := others }

/-- A beat reads memory and its own engine only (R35, R70). -/
theorem beatEngine_withOthers (i : Instr) (s : State) (others : List Slot) :
    beatEngine i (s.withOthers others) = beatEngine i s := by
  cases i <;> rfl

/-- An idle engine's step passes (R70, log 25). -/
theorem engineStep_idle {s : State} (hb : s.busy = false) : engineStep s = .next s := by
  simp [engineStep, hb]

/-- What an engine does to its block and to memory does not depend on the other instances (R33). -/
theorem engineStep_withOthers {s t : State} (others : List Slot) (h : engineStep s = .next t) :
    engineStep (s.withOthers others) = .next (t.withOthers others) := by
  rcases engineStep_cases s t h with ⟨hb, rfl⟩ | ⟨hb, i, hop, hi, hlt, hread, rfl⟩ | ⟨hb, i, hop, hle, rfl⟩
  · exact engineStep_idle (s := t.withOthers others) hb
  · rw [engineStep_beat (s.withOthers others) i hb hop hi hlt hread, beatEngine_withOthers]
    rfl
  · exact engineStep_complete (s.withOthers others) i hb hop hle

/-- Settles O60: the frames by what an instance's turn can do, and the engine's turn by its step on the instance. -/
theorem instancesShareNothing : Obligations.InstancesShareNothing := by
  refine ⟨fun s t k => InstanceTurn.leaves_others, fun s t => InstanceTurn.leaves_slots,
    fun s t => host_read_leaves_blocks, fun s k => step_engine_instance, fun s rest k o hs ho => ?_,
    fun s t others h => ⟨_, engineStep_withOthers others h, rfl, rfl⟩⟩
  obtain ⟨hk, -⟩ := List.getElem?_eq_some_iff.1 ho
  refine ⟨nextTurn_sched s _ _ hs, decide_eq_true hk, ?_⟩
  rw [State.focus_succ_some (s.withSched rest) k o ho]

/-! ### Reset -/

/-- A scheduled reset turn of an existing instance resets its block, with the focus put back (R137). -/
theorem step_scheduled_reset {s : State} {k : Nat} {rest : List Turn} (hs : s.sched = .reset k :: rest)
    (hk : s.hasInstance k = true) :
    step s = .next ((((s.withSched rest).focus k).withBlk Block.reset).focus k) := by
  rw [step, nextTurn_sched s _ _ hs, takeTurn, State.hasInstance_withSched, if_pos hk, hs, List.tail_cons]
  rfl

/-- Settles O52: the block in focus, or the one in its slot, becomes the reset block. -/
theorem resetAbandonsCommand : Obligations.ResetAbandonsCommand := by
  refine ⟨fun s rest hs => ⟨_, step_scheduled_reset hs (decide_eq_true (Nat.zero_le _)), rfl, rfl, rfl, rfl, rfl, rfl,
    fun _ => rfl⟩, fun s rest k o hs ho => ?_⟩
  obtain ⟨hk, -⟩ := List.getElem?_eq_some_iff.1 ho
  rw [step_scheduled_reset hs (decide_eq_true hk), State.withBlk_focus_succ (s.withSched rest) k o Block.reset ho]
  rfl

end Sys2Proof.Machine
end
